-- ==== Sys2Proof/Word.lean ====
section
/-! DEFINITION. The word types of the PSE: 32-bit registers (R6, R21), 8-bit section bytes (R40), 16-bit output units (R42). -/

namespace Sys2Proof

/-- A byte of SECBUF, an opcode or a modifier (R40, R90). -/
abbrev Byte := BitVec 8

/-- A 16-bit output unit of OUTBUF (R42). -/
abbrev Half := BitVec 16

/-- A 32-bit register, bus or command word (R6, R90). -/
abbrev Word := BitVec 32

/-- The word 1 for a true flag and 0 for a false one (zext_32 of one bit, R10). -/
def Word.ofBit (b : Bool) : Word := if b then 1 else 0

end Sys2Proof
end

