-- ==== Sys2Proof/Syntax.lean ====
section
/-! DEFINITION. The commands of the PSE: one constructor for each of the 19 rows of the opcode map (R93). The operands ARG0, ARG1 and CURPOS are registers (R94) and are no part of the word; the only operand a word carries is the width M of the three bit commands. -/

namespace Sys2Proof

/-- The commands of R93, in the order of the opcode map. -/
inductive Instr where
  /-- NOP, R127. -/
  | nop
  /-- BYTEAT, R141. -/
  | byteAt
  /-- WORD16AT, R142. -/
  | word16At
  /-- WORD32AT, R143. -/
  | word32At
  /-- SLICEAT, R144. -/
  | sliceAt
  /-- ISCLONE, R145. -/
  | isClone
  /-- BITFIELD with the width M, R146. -/
  | bitField (w : Byte)
  /-- SEEKBIT, R147. -/
  | seekBit
  /-- READBITS with the width M, R148. -/
  | readBits (w : Byte)
  /-- PEEKBITS with the width M, R149. -/
  | peekBits (w : Byte)
  /-- SECHDR, R175. -/
  | secHdr
  /-- HASCRC, R177. -/
  | hasCrc
  /-- CALCCRC, R178. -/
  | calcCrc
  /-- VERIFYCRC, R176. -/
  | verifyCrc
  /-- SECCRC, R179. -/
  | secCrc
  /-- SETCRC, R180. -/
  | setCrc
  /-- HUFFDEC with the title table C5, R203. -/
  | huffDecC5
  /-- HUFFDEC with the description table C7, R203. -/
  | huffDecC7
  /-- DVBTEXT, R232. -/
  | dvbText
  deriving DecidableEq, Repr

end Sys2Proof
end

