-- ==== Sys2Proof/WellFormed.lean ====
section
/-! DEFINITION. Which commands are well formed: a width M is legal only in 1..32 (R91); no other command has an operand in its word. -/

namespace Sys2Proof

/-- R91: "A width w = M is legal only in 1..32." -/
def widthLegal (w : Byte) : Bool := decide (1 ≤ w.toNat) && decide (w.toNat ≤ 32)

/-- The check of R91 and R95 on the operand a command carries. -/
def Instr.wellFormed : Instr → Bool
  | .bitField w => widthLegal w
  | .readBits w => widthLegal w
  | .peekBits w => widthLegal w
  | .nop => true
  | .byteAt => true
  | .word16At => true
  | .word32At => true
  | .sliceAt => true
  | .isClone => true
  | .seekBit => true
  | .secHdr => true
  | .hasCrc => true
  | .calcCrc => true
  | .verifyCrc => true
  | .secCrc => true
  | .setCrc => true
  | .huffDecC5 => true
  | .huffDecC7 => true
  | .dvbText => true

/-- A command the opcode map has a word for (R95). -/
abbrev Instr.WellFormed (i : Instr) : Prop := i.wellFormed = true

end Sys2Proof
end

