-- ==== Sys2Proof/Decode.lean ====
section
/-! DEFINITION. The command word (R90): its three fields, the decoder (R93, R95) and the encoder. A command is one 32-bit word that the host writes to CMD; there is no fetch byte order (R60) and no other length (R97). -/

namespace Sys2Proof

/-- OP, bits 7:0 (R90). -/
def opField (w : Word) : Byte := w.extractLsb' 0 8

/-- M, bits 15:8 (R90). -/
def mField (w : Word) : Byte := w.extractLsb' 8 8

/-- Z, bits 31:16 (R90). -/
def zField (w : Word) : Half := w.extractLsb' 16 16

/-- Why a word matches no row of R93 (R92, R95). -/
inductive DecodeError where
  /-- Z is not zero (R92). -/
  | reservedZ (z : Half)
  /-- OP is not listed (R95, R96). -/
  | unlistedOp (op : Byte)
  /-- M is not zero for an opcode that takes no modifier (R92). -/
  | modifierNotZero (op m : Byte)
  /-- M is no width 1..32 for BITFIELD, READBITS or PEEKBITS (R95). -/
  | widthOutOfRange (op m : Byte)
  /-- M selects no code table for HUFFDEC (R95, R202). -/
  | noCodeTable (m : Byte)
  deriving DecidableEq, Repr

/-- A row whose M must be zero. -/
def decodePlain (op m : Byte) (i : Instr) : Except DecodeError Instr :=
  if m = 0 then .ok i else .error (.modifierNotZero op m)

/-- A row whose M is a width. -/
def decodeWidth (op m : Byte) (mk : Byte → Instr) : Except DecodeError Instr :=
  if widthLegal m then .ok (mk m) else .error (.widthOutOfRange op m)

/-- The two HUFFDEC rows: M = 0x01 is C5 and M = 0x02 is C7 (R91, R202). -/
def decodeHuff (m : Byte) : Except DecodeError Instr :=
  if m = 0x01 then .ok .huffDecC5
  else if m = 0x02 then .ok .huffDecC7
  else .error (.noCodeTable m)

/-- The opcode map R93 on the fields OP and M. -/
def decodeOp (op m : Byte) : Except DecodeError Instr :=
  match op.toNat with
  | 0x00 => decodePlain op m .nop
  | 0x01 => decodePlain op m .byteAt
  | 0x02 => decodePlain op m .word16At
  | 0x03 => decodePlain op m .word32At
  | 0x04 => decodePlain op m .sliceAt
  | 0x05 => decodePlain op m .isClone
  | 0x06 => decodeWidth op m .bitField
  | 0x07 => decodePlain op m .seekBit
  | 0x08 => decodeWidth op m .readBits
  | 0x09 => decodeWidth op m .peekBits
  | 0x10 => decodePlain op m .secHdr
  | 0x11 => decodePlain op m .hasCrc
  | 0x12 => decodePlain op m .calcCrc
  | 0x13 => decodePlain op m .verifyCrc
  | 0x14 => decodePlain op m .secCrc
  | 0x15 => decodePlain op m .setCrc
  | 0x20 => decodeHuff m
  | 0x21 => decodePlain op m .dvbText
  | _ => .error (.unlistedOp op)

/-- The decoder, total on every word: R95, "A command word is legal if and only if it matches one row of rule R93 exactly". -/
def decode (w : Word) : Except DecodeError Instr :=
  if zField w = 0 then decodeOp (opField w) (mField w) else .error (.reservedZ (zField w))

/-- The OP column of R93. -/
def Instr.opcode : Instr → Byte
  | .nop => 0x00
  | .byteAt => 0x01
  | .word16At => 0x02
  | .word32At => 0x03
  | .sliceAt => 0x04
  | .isClone => 0x05
  | .bitField _ => 0x06
  | .seekBit => 0x07
  | .readBits _ => 0x08
  | .peekBits _ => 0x09
  | .secHdr => 0x10
  | .hasCrc => 0x11
  | .calcCrc => 0x12
  | .verifyCrc => 0x13
  | .secCrc => 0x14
  | .setCrc => 0x15
  | .huffDecC5 => 0x20
  | .huffDecC7 => 0x20
  | .dvbText => 0x21

/-- The M column of R93. -/
def Instr.modifier : Instr → Byte
  | .bitField w => w
  | .readBits w => w
  | .peekBits w => w
  | .huffDecC5 => 0x01
  | .huffDecC7 => 0x02
  | .nop => 0
  | .byteAt => 0
  | .word16At => 0
  | .word32At => 0
  | .sliceAt => 0
  | .isClone => 0
  | .seekBit => 0
  | .secHdr => 0
  | .hasCrc => 0
  | .calcCrc => 0
  | .verifyCrc => 0
  | .secCrc => 0
  | .setCrc => 0
  | .dvbText => 0

/-- The word of format CW with Z = 0 (R90). -/
def commandWord (op m : Byte) : Word := (0 : Half) ++ m ++ op

/-- The encoder: the "word" column of R93. -/
def encode (i : Instr) : Word := commandWord i.opcode i.modifier

/-- The instruction the decoder reads from a table word of `nbits` bits (bits above are zero). -/
def decodeTableWord (nbits w : Nat) : Option Instr :=
  match decode (BitVec.ofNat 32 (w % 2 ^ nbits)) with
  | .ok i => some i
  | .error _ => none

end Sys2Proof
end

