-- ==== Sys2Proof/Config.lean ====
section
/-! DEFINITION. What is fixed when a PSE is built: the fixed parameters of R6, and the open parameters of R7 as plain data (`Build`). The open parameters are no state of the block (R47, R343); the model carries one `Build` in State because `step` has no other argument, so that a statement over every state holds for every value of every parameter (R8; log entries 1 and 2). -/

namespace Sys2Proof

namespace Config

/-- BUF_BYTES, the size of SECBUF (R6). -/
abbrev bufBytes : Nat := 4096

/-- OUT_UNITS, the entries of OUTBUF (R6). -/
abbrev outUnits : Nat := 4096

/-- CRC_POLY (R6). -/
def crcPoly : Word := 0x04C11DB7

/-- CRC_SEED (R6). -/
def crcSeed : Word := 0xFFFFFFFF

end Config

/-- The two ATSC code tables: titles and descriptions (R2, R202). -/
inductive CodeTable where
  | c5
  | c7
  deriving DecidableEq, Repr

/-- A symbol 0..127 of a Huffman code, or a context 0..127 (R200). -/
abbrev Symbol := BitVec 7

/-- One entry of the finite map HUFF_CODE(t, ctx): a code word, first bit first, and its symbol (R200). -/
structure CodeWord where
  bits   : List Bool
  symbol : Symbol
  deriving DecidableEq, Repr, Inhabited

/-- HUFF_CODE(t, ctx) for one table and one context: a finite map from bit strings to symbols (R200). -/
abbrev HuffCode := List CodeWord

/-- HUFF_CODE(t, ·): the code of each of the 128 contexts; `special` lists the contexts whose code is not `otherwise`. A context-free code has no special rows. -/
structure ContextCodes where
  special   : List (Symbol × HuffCode)
  otherwise : HuffCode
  deriving DecidableEq, Repr, Inhabited

/-- HUFF_CODE for both tables (R200). -/
structure HuffCodes where
  c5 : ContextCodes
  c7 : ContextCodes
  deriving DecidableEq, Repr, Inhabited

/-- The parts of ISO-8859, 1..15. Part 12 is the abandoned slot: it has a number and no table (R7, R231). -/
inductive IsoPart where
  | p1 | p2 | p3 | p4 | p5 | p6 | p7 | p8 | p9 | p10 | p11 | p12 | p13 | p14 | p15
  deriving DecidableEq, Repr

/-- The code points of 0xA0..0xFF in one part, in order (R235). -/
abbrev UpperHalf := Vector Half 96

/-- ISO8859(n) for n in 1..15 without 12 (R7, R235). -/
structure IsoTables where
  p1  : UpperHalf
  p2  : UpperHalf
  p3  : UpperHalf
  p4  : UpperHalf
  p5  : UpperHalf
  p6  : UpperHalf
  p7  : UpperHalf
  p8  : UpperHalf
  p9  : UpperHalf
  p10 : UpperHalf
  p11 : UpperHalf
  p13 : UpperHalf
  p14 : UpperHalf
  p15 : UpperHalf
  deriving DecidableEq, Repr, Inhabited

/-- One value of SHORT_LEN that differs from the suggested raw + 3 (R7, R174). -/
structure ShortLenRow where
  tid : Byte
  raw : BitVec 12
  len : Nat
  deriving DecidableEq, Repr, Inhabited

/-- One value of every open parameter of R7. SHORT_LEN and HUFF_CTX_NEXT are given by the arguments where they differ from the suggested default, so every function of R7's type is one `Build` (log entry 11). -/
structure Build where
  /-- PSE_BASE. -/
  pseBase          : Nat
  /-- NOCRC_TIDS. -/
  noCrcTids        : List Byte
  /-- SHORT_LEN, where it is not raw + 3. -/
  shortLenRows     : List ShortLenRow
  /-- HUFF_CODE. -/
  huffCode         : HuffCodes
  /-- HUFF_CTX_START. -/
  huffCtxStart     : Symbol
  /-- HUFF_CTX_NEXT, where it is not c & 0x7F. -/
  huffCtxNextRows  : List (Byte × Symbol)
  /-- HUFF_LIT_BITS. -/
  huffLitBits      : Nat
  /-- HUFF_END. -/
  huffEnd          : Symbol
  /-- HUFF_ESC. -/
  huffEsc          : Symbol
  /-- ISO8859. Part 1 is as free as the others: R235's identity is a premise, not a fact of the type (log entry 27). -/
  iso8859          : IsoTables
  /-- DVB_DEFAULT. -/
  dvbDefault       : IsoPart
  deriving DecidableEq, Repr

namespace Config

/-- PSE_BASE: a platform choice (R7 suggests no default); left free. -/
opaque pseBase : Nat

/-- HUFF_CODE: the ATSC tables are not in the source (R7, R209); left free. -/
opaque huffCode : HuffCodes

/-- ISO8859: the tabulation is lost (R7, R235); left free for every part. DESIGN CHOICE for part 1 (log entry 27): R235 and G10 give it as the identity c -> U+00cc, from general knowledge, where R7, D21 and N10 leave every part open; a claim about the identity takes `PartOneIsIdentity` (Safety.lean) as a premise. -/
opaque iso8859 : IsoTables

/-- What ERRINFO holds after BAD_SECTION_LENGTH(L) when L does not fit its 32 bits, which only a SHORT_LEN above 2^32 - 1 can cause: the spec states no value, so it is free (log entry 10). -/
opaque longLenInfo : Nat → Word

/-- The parameters of the machine after reset: the defaults R7 suggests, and free values where it suggests none. DESIGN CHOICE (log entry 2). -/
def build : Build where
  pseBase         := Config.pseBase
  noCrcTids       := [0x70]
  shortLenRows    := []
  huffCode        := Config.huffCode
  huffCtxStart    := 0
  huffCtxNextRows := []
  huffLitBits     := 8
  huffEnd         := 0
  huffEsc         := 0x1B
  iso8859         := Config.iso8859
  dvbDefault      := .p1

end Config

end Sys2Proof
end

