-- ==== Sys2Proof/Machine/State.lean ====
section
/-! DEFINITION. The state of the PSE (10_state.md): its registers, its two buffers, the model's marks (R46), and three fields of the model's own (the parameters it was built with, the turns still to come, and the latest host read). Plain data throughout. -/

namespace Sys2Proof.Machine

/-- The error codes of R301. The reserved codes 0x0C..0xFF are never produced and have no name. -/
inductive ErrCode where
  | none
  | illegalCmd
  | outOfBounds
  | badSectionLength
  | readOnly
  | noCrcTrailer
  | huffTruncated
  | huffBadCode
  | outOverflow
  | unsupportedCharset
  | textTruncated
  | badBufLen
  deriving DecidableEq, Repr

/-- The stored fields of CTRL (R25). Bits 30:2 read 0 and SRST holds no value. -/
structure Ctrl where
  clone : Bool
  ie    : Bool
  deriving DecidableEq, Repr

/-- The fields of STATUS (R29). The other bits read 0. -/
structure Status where
  busy    : Bool
  done    : Bool
  err     : Bool
  ovr     : Bool
  errCode : ErrCode
  deriving DecidableEq, Repr

/-- The widths of a host access (R63). A 64-bit access exists on the bus and is always a bus error. -/
inductive AccessSize where
  | b8
  | b16
  | b32
  | b64
  deriving DecidableEq, Repr

/-- Why the machine stops with a model fault (R46, R302). The hardware's behaviour there is unspecified, so stopping is safe: nothing is claimed of what it returns instead. -/
inductive Fault where
  /-- UNDEF_READ of a SECBUF byte never written since power-on: raised by every command that reads SECBUF, and by a host read of it (R41). Safe. -/
  | undefReadSecBuf (offset : Nat)
  /-- UNDEF_READ of an OUTBUF entry with a clear written mark: raised by a host read of OUTBUF (R41, R124). Safe. -/
  | undefReadOutBuf (entry : Nat)
  /-- HOST_BUS_ERROR: raised by a host access of a width or alignment the window does not accept; `offset` is the window offset (R63). Safe. -/
  | hostBusError (size : AccessSize) (offset : Nat)
  deriving DecidableEq, Repr

/-- Why the machine refuses to go on: the refusal mark of R46, or an instruction without a meaning. -/
inductive Refusal where
  /-- Raised by `exec` for an instruction that has no meaning yet. Safe. -/
  | notModelled (mnemonic : String)
  /-- Raised by HUFFDEC.C5 and HUFFDEC.C7 in a machine whose Huffman parameters break R200, R201 or the ranges of R7 (R201: "Every HUFFDEC step of such a model sets the refusal mark"). Safe. -/
  | huffCodeIllFormed
  /-- Raised by DVBTEXT when a byte 0xA0..0xFF must go through a table that R7 gives no value for: only DVB_DEFAULT = 12 can cause it (R46; log entry 13). Safe. -/
  | isoTableAbsent (part : IsoPart)
  deriving DecidableEq, Repr

/-- One bus access by the host at a host bus address (R62, R63). A write uses the low bits of `data`, as many as its width. -/
inductive HostAccess where
  | read  (size : AccessSize) (addr : Nat)
  | write (size : AccessSize) (addr : Nat) (data : Word)
  deriving DecidableEq, Repr

/-- Who moves next in the interleaving (R20, R71): the engine, the host with one access, or power-on reset. -/
inductive Turn where
  | engine
  | host (a : HostAccess)
  | powerOn
  deriving DecidableEq, Repr

/-- SECBUF: the written bytes by offset, offsets strictly rising; an offset that is not listed is unwritten (R40, R41; log entry 5). -/
abbrev Memory := List Host.Cell

/-- The state of one PSE instance. -/
structure State where
  /-- CTRL (R25). -/
  ctrl        : Ctrl
  /-- STATUS (R29). -/
  status      : Status
  /-- BUFLEN (R33). -/
  bufLen      : BitVec 13
  /-- CMD (R34). -/
  cmd         : Word
  /-- ARG0 (R35). -/
  arg0        : Word
  /-- ARG1 (R35). -/
  arg1        : Word
  /-- RES0 (R36). -/
  res0        : Word
  /-- RES1 (R36). -/
  res1        : Word
  /-- CURPOS (R37). -/
  curPos      : BitVec 16
  /-- OUTLEN (R38). -/
  outLen      : BitVec 13
  /-- ERRINFO (R39). -/
  errInfo     : Word
  /-- SECBUF with its written marks (R40, R41). -/
  secBuf      : Memory
  /-- OUTBUF with its written marks: the entries 0..n-1 whose mark is set (R41, R42; log entry 6). -/
  outBuf      : List Half
  /-- The model's own: the open parameters (R7, R47). -/
  build       : Build
  /-- The model's own: the turns still to come, next first (R71). -/
  schedule    : List Turn
  /-- The model's own: what the latest host read returned. -/
  hostData    : Option Word
  /-- The fault mark (R46). -/
  faultMark   : Option Fault
  /-- The refusal mark (R46). -/
  refusalMark : Option Refusal
  deriving DecidableEq, Repr

/-- What a step answers. -/
abbrev Result := Host.Outcome State Fault Refusal

/-- Power-on reset of a PSE built with the parameters `b` (R340). -/
def State.powerOn (b : Build) : State where
  ctrl        := { clone := false, ie := false }
  status      := { busy := false, done := false, err := false, ovr := false, errCode := .none }
  bufLen      := 0
  cmd         := 0
  arg0        := 0
  arg1        := 0
  res0        := 0
  res1        := 0
  curPos      := 0
  outLen      := 0
  errInfo     := 0
  secBuf      := []
  outBuf      := []
  build       := b
  schedule    := []
  hostData    := none
  faultMark   := none
  refusalMark := none

/-- The machine right after power-on reset, the start state of every run (R340). -/
def State.reset : State := State.powerOn Config.build

end Sys2Proof.Machine
end

