-- ==== Sys2Proof/Machine/Flags.lean ====
section
/-! DEFINITION. The flags: every way STATUS changes (R29 to R33, R120, R122, R123), the words CTRL and STATUS read as (R25, R29), and the interrupt output (R45). -/

namespace Sys2Proof.Machine

/-- The numbers of R301. -/
def ErrCode.number : ErrCode → Byte
  | .none               => 0x00
  | .illegalCmd         => 0x01
  | .outOfBounds        => 0x02
  | .badSectionLength   => 0x03
  | .readOnly           => 0x04
  | .noCrcTrailer       => 0x05
  | .huffTruncated      => 0x06
  | .huffBadCode        => 0x07
  | .outOverflow        => 0x08
  | .unsupportedCharset => 0x09
  | .textTruncated      => 0x0A
  | .badBufLen          => 0x0B

/-- CTRL as it reads: bit 0 CLONE, bit 1 IE, every other bit 0 (R25). -/
def Ctrl.toWord (c : Ctrl) : Word :=
  Word.ofBit c.clone ||| (Word.ofBit c.ie <<< 1)

/-- CTRL after a host write with bit 31 = 0: CLONE and IE from bits 0 and 1 (R25). -/
def Ctrl.ofWrite (v : Word) : Ctrl where
  clone := v.getLsbD 0
  ie    := v.getLsbD 1

/-- STATUS as it reads: bits 0..3 BUSY, DONE, ERR, OVR, bits 15:8 ERRCODE, every other bit 0 (R29). -/
def Status.toWord (st : Status) : Word :=
  Word.ofBit st.busy ||| (Word.ofBit st.done <<< 1) ||| (Word.ofBit st.err <<< 2)
    ||| (Word.ofBit st.ovr <<< 3) ||| (st.errCode.number.setWidth 32 <<< 8)

/-- A command start: BUSY set; DONE, ERR and ERRCODE cleared; OVR kept (R120). -/
def Status.started (st : Status) : Status :=
  { st with busy := true, done := false, err := false, errCode := .none }

/-- A successful completion (R122). -/
def Status.completed (st : Status) : Status :=
  { st with busy := false, done := true }

/-- A failed completion (R123). -/
def Status.failed (st : Status) (c : ErrCode) : Status :=
  { st with busy := false, err := true, errCode := c }

/-- A rejected BUFLEN write (R33). -/
def Status.bufLenRejected (st : Status) : Status :=
  { st with done := false, err := true, errCode := .badBufLen }

/-- A host write dropped because BUSY was 1 (R67). -/
def Status.dropped (st : Status) : Status :=
  { st with ovr := true }

/-- A host write to STATUS: DONE, ERR and OVR are cleared where bits 1, 2 and 3 of the value are 1; every other bit of the value is ignored and ERRCODE stays (R31). -/
def Status.acknowledged (st : Status) (v : Word) : Status :=
  { st with
    done := st.done && !v.getLsbD 1
    err  := st.err && !v.getLsbD 2
    ovr  := st.ovr && !v.getLsbD 3 }

/-- R45: IRQ = CTRL.IE and (STATUS.DONE or STATUS.ERR), a level. -/
def State.irq (s : State) : Bool := s.ctrl.ie && (s.status.done || s.status.err)

end Sys2Proof.Machine
end

