-- ==== Sys2Proof/Machine/Operands.lean ====
section
/-! DEFINITION. The operands of the commands (R91, R94), the bounds of an access (R9, R140), and the values of the open parameters (R7). Operands are taken exactly: none is extended, scaled or wrapped. -/

namespace Sys2Proof.Machine

/-- ARG0 as a byte offset (R94). -/
abbrev State.byteOffset (s : State) : Nat := s.arg0.toNat

/-- ARG1 as a byte length (R94). -/
abbrev State.byteLength (s : State) : Nat := s.arg1.toNat

/-- ARG0 as a bit address (R94). -/
abbrev State.bitAddress (s : State) : Nat := s.arg0.toNat

/-- CURPOS as a bit address (R37, R94). -/
abbrev State.cursor (s : State) : Nat := s.curPos.toNat

/-- BUFLEN, the extent of the section in bytes (R33). -/
abbrev State.extent (s : State) : Nat := s.bufLen.toNat

/-- R140: a byte access of width n at offset off is in bounds iff off + n <= BUFLEN, without wrap-around. -/
def State.bytesInBounds (s : State) (off n : Nat) : Bool := decide (off + n ≤ s.extent)

/-- R140: a bit access of width w at address p is in bounds iff p + w <= 8 * BUFLEN. -/
def State.bitsInBounds (s : State) (p w : Nat) : Bool := decide (p + w ≤ 8 * s.extent)

/-- SHORT_LEN(tid, raw): the listed value, or the suggested default raw + 3 (R7, R174). -/
def shortLen (b : Build) (tid : Byte) (raw : BitVec 12) : Nat :=
  match b.shortLenRows.find? (fun r => r.tid == tid && r.raw == raw) with
  | some r => r.len
  | none   => raw.toNat + 3

/-- HUFF_CTX_NEXT(c): the listed value, or the suggested default c & 0x7F (R7). -/
def huffCtxNext (b : Build) (c : Byte) : Symbol :=
  match b.huffCtxNextRows.find? (fun r => r.1 == c) with
  | some r => r.2
  | none   => c.setWidth 7

/-- The code of one context (R200). -/
def contextCode (t : ContextCodes) (ctx : Symbol) : HuffCode :=
  match t.special.find? (fun r => r.1 == ctx) with
  | some r => r.2
  | none   => t.otherwise

/-- HUFF_CODE(t, ctx) (R200). -/
def huffCode (b : Build) (t : CodeTable) (ctx : Symbol) : HuffCode :=
  match t with
  | .c5 => contextCode b.huffCode.c5 ctx
  | .c7 => contextCode b.huffCode.c7 ctx

/-- The number n of ISO-8859-n. -/
def isoNumber : IsoPart → Nat
  | .p1 => 1
  | .p2 => 2
  | .p3 => 3
  | .p4 => 4
  | .p5 => 5
  | .p6 => 6
  | .p7 => 7
  | .p8 => 8
  | .p9 => 9
  | .p10 => 10
  | .p11 => 11
  | .p12 => 12
  | .p13 => 13
  | .p14 => 14
  | .p15 => 15

/-- The part of a number, where a selector may name it: 1..15 without 12 (R231). -/
def isoSelectable : Nat → Option IsoPart
  | 1 => some .p1
  | 2 => some .p2
  | 3 => some .p3
  | 4 => some .p4
  | 5 => some .p5
  | 6 => some .p6
  | 7 => some .p7
  | 8 => some .p8
  | 9 => some .p9
  | 10 => some .p10
  | 11 => some .p11
  | 13 => some .p13
  | 14 => some .p14
  | 15 => some .p15
  | _ => none

/-- The table of a part; part 12 has none (R7, R235). -/
def isoTable (t : IsoTables) : IsoPart → Option UpperHalf
  | .p1 => some t.p1
  | .p2 => some t.p2
  | .p3 => some t.p3
  | .p4 => some t.p4
  | .p5 => some t.p5
  | .p6 => some t.p6
  | .p7 => some t.p7
  | .p8 => some t.p8
  | .p9 => some t.p9
  | .p10 => some t.p10
  | .p11 => some t.p11
  | .p12 => none
  | .p13 => some t.p13
  | .p14 => some t.p14
  | .p15 => some t.p15

/-- A natural number as the information word of an error: itself where 32 bits hold it, else the free value of log entry 10. -/
def infoWord (n : Nat) : Word :=
  if n < 2 ^ 32 then BitVec.ofNat 32 n else Config.longLenInfo n

end Sys2Proof.Machine
end

