-- ==== Sys2Proof/Machine/Ops.lean ====
section
/-! DEFINITION. The shared operations: SECBUF (R40, R41), the reads MemRead and Bits and the write MemWrite (R12), command start (R120), completion (R122), taking a command error (R123, R300, R306) and the return from it (R307), the failed string command (R124), and the two resets (R26, R340). -/

namespace Sys2Proof.Machine

/-! ### SECBUF -/

/-- The byte at an offset; `none` where the written mark is clear (R41). -/
def Memory.get : Memory → Nat → Option Byte
  | [], _ => none
  | (k, v) :: rest, a => if a = k then some v else Memory.get rest a

/-- Write one byte and set its mark, keeping the offsets rising. -/
def Memory.set : Memory → Nat → Byte → Memory
  | [], a, v => [(a, v)]
  | (k, u) :: rest, a, v =>
    if a < k then (a, v) :: (k, u) :: rest
    else if a = k then (a, v) :: rest
    else (k, u) :: Memory.set rest a v

/-- MemWrite(off, n, v): the n low bytes of v, most significant first (R12, R60). -/
def Memory.writeBE (m : Memory) : (n : Nat) → (off v : Nat) → Memory
  | 0, _, _ => m
  | n + 1, off, v => (m.set off (BitVec.ofNat 8 (v / 256 ^ n))).writeBE n (off + 1) v

/-- The canonical form: offsets strictly rise and lie in SECBUF. -/
def Memory.wf (m : Memory) : Bool :=
  decide (m.Pairwise fun a b => a.1 < b.1) && m.all fun c => decide (c.1 < Config.bufBytes)

/-! ### What a command's Exec answers (R121) -/

/-- How an Exec ends without success: a command error (R300), or the model's fault or refusal (R302). -/
inductive Stop where
  | error   (c : ErrCode) (info : Word)
  | fault   (f : Fault)
  | refusal (r : Refusal)
  deriving DecidableEq, Repr

/-- A computation of an Exec. -/
abbrev Exec (α : Type) := Except Stop α

/-- `raise CODE(info)` (R12, R300). -/
def raise {α : Type} (c : ErrCode) (info : Word) : Exec α := .error (.error c info)

/-- The registers and buffers a successful Exec names (R122). -/
structure Writes where
  res0    : Option Word := none
  res1    : Option Word := none
  curPos  : Option (BitVec 16) := none
  /-- The decoded string: OUTBUF[0 ..] and OUTLEN. -/
  out     : Option (List Half) := none
  /-- SETCRC's trailer: its offset and its value. -/
  trailer : Option (Nat × Word) := none
  deriving DecidableEq, Repr

/-! ### Reads of the section -/

/-- One byte of SECBUF; UNDEF_READ where it was never written (R41). -/
def State.secByte (s : State) (off : Nat) : Exec Byte :=
  match s.secBuf.get off with
  | some b => .ok b
  | none   => .error (.fault (.undefReadSecBuf off))

/-- `n` bytes from `off` on, big-endian, appended to `acc` (R60). -/
def State.readBytes (s : State) : (n : Nat) → (off acc : Nat) → Exec Nat
  | 0, _, acc => .ok acc
  | n + 1, off, acc => do
    let b ← s.secByte off
    s.readBytes n (off + 1) (acc * 256 + b.toNat)

/-- MemRead(off, n) (R12): OUT_OF_BOUNDS(off) past BUFLEN, else the big-endian value. -/
def State.memRead (s : State) (off n : Nat) : Exec Nat :=
  if s.bytesInBounds off n then s.readBytes n off 0
  else raise .outOfBounds (BitVec.ofNat 32 off)

/-- The bit at bit address p: bit 7 - (p mod 8) of byte p div 8 (R11). -/
def State.bitAt (s : State) (p : Nat) : Exec Bool := do
  let b ← s.secByte (p / 8)
  .ok (b.getLsbD (7 - p % 8))

/-- `w` bits from `p` on, the first the most significant, appended to `acc` (R11). -/
def State.takeBits (s : State) : (w : Nat) → (p acc : Nat) → Exec Nat
  | 0, _, acc => .ok acc
  | w + 1, p, acc => do
    let b ← s.bitAt p
    s.takeBits w (p + 1) (acc * 2 + b.toNat)

/-- Bits(p, w) (R12): OUT_OF_BOUNDS(p) past 8 * BUFLEN, else the field of R11. -/
def State.bits (s : State) (p w : Nat) : Exec Nat :=
  if s.bitsInBounds p w then s.takeBits w p 0
  else raise .outOfBounds (BitVec.ofNat 32 p)

/-- Out(u) on the working copy: OUT_OVERFLOW on the 4097th unit (R12). -/
def emit (out : List Half) (u : Half) : Exec (List Half) :=
  if out.length = Config.outUnits then raise .outOverflow (BitVec.ofNat 32 Config.outUnits)
  else .ok (out ++ [u])

/-! ### Start and completion -/

/-- Command start (R120): a CMD write while BUSY = 0. -/
def State.startCommand (s : State) (v : Word) : State :=
  { s with cmd := v, status := s.status.started, errInfo := 0 }

/-- The writes a successful Exec names; what it does not name is unchanged (R122). -/
def State.write (s : State) (w : Writes) : State :=
  { s with
    res0   := w.res0.getD s.res0
    res1   := w.res1.getD s.res1
    curPos := w.curPos.getD s.curPos
    outLen := match w.out with
      | some u => BitVec.ofNat 13 u.length
      | none   => s.outLen
    outBuf := w.out.getD s.outBuf
    secBuf := match w.trailer with
      | some (off, v) => s.secBuf.writeBE 4 off v.toNat
      | none          => s.secBuf }

/-- The end of a successful completion: BUSY <- 0, DONE <- 1 (R122). -/
def State.markDone (s : State) : State :=
  { s with status := s.status.completed }

/-- Taking a command error, the block's one exception (R123, R306): BUSY <- 0, ERR <- 1, the cause in ERRCODE and its information in ERRINFO, and nothing else. -/
def State.takeError (s : State) (c : ErrCode) (info : Word) : State :=
  { s with status := s.status.failed c, errInfo := info }

/-- The return from an error (R307): the host's STATUS write, which clears the flags named and leaves ERRCODE and ERRINFO readable (R31). -/
def State.acknowledge (s : State) (v : Word) : State :=
  { s with status := s.status.acknowledged v }

/-- What a failed string command adds: OUTLEN <- 0 and every written mark of OUTBUF cleared (R124). -/
def State.clearOutput (s : State) : State :=
  { s with outLen := 0, outBuf := [] }

/-- Completion of every command but the string commands (R122, R123, R302). -/
def State.complete (s : State) : Exec Writes → Result
  | .ok w                   => .next (s.write w).markDone
  | .error (.error c info)  => .next (s.takeError c info)
  | .error (.fault f)       => .fault f
  | .error (.refusal r)     => .refused r

/-- Completion of HUFFDEC and DVBTEXT (R122, R123, R124, R302). -/
def State.completeString (s : State) : Exec Writes → Result
  | .ok w                   => .next (s.write w).markDone
  | .error (.error c info)  => .next (s.takeError c info).clearOutput
  | .error (.fault f)       => .fault f
  | .error (.refusal r)     => .refused r

/-! ### Resets and marks -/

/-- Soft reset (R26, R341): every register to its reset value, a pending command dropped, the buffers and their marks kept. -/
def State.softReset (s : State) : State :=
  { State.powerOn s.build with
    secBuf := s.secBuf
    outBuf := s.outBuf
    schedule := s.schedule
    hostData := s.hostData
    faultMark := s.faultMark
    refusalMark := s.refusalMark }

/-- Power-on reset as an event of a run (R20, R340); the turns still to come are the outside world's and stay. -/
def State.powerOnReset (s : State) : State :=
  { State.powerOn s.build with schedule := s.schedule }

/-- The state a step leaves, with the marks of R46 set where it does not complete (R302): a mark is all that changes. -/
def State.settle (s : State) : Result → State
  | .next s'   => s'
  | .fault f   => { s with faultMark := some f }
  | .refused r => { s with refusalMark := some r }

end Sys2Proof.Machine
end

