-- ==== Sys2Proof/Machine/Crc.lean ====
section
/-! DEFINITION. The CRC-32/MPEG-2 function (R170), the short section header (R172 to R174), and the meanings of the validator's commands (42_crc.md). -/

namespace Sys2Proof.Machine

/-- One message bit, MSB-first, no reflection (R170). -/
def crcBit (c : Word) (b : Bool) : Word :=
  if c.getLsbD 31 ^^ b then (c <<< 1) ^^^ Config.crcPoly else c <<< 1

/-- One message byte, bit 7 first (R170). -/
def crcByte (c : Word) (b : Byte) : Word :=
  [7, 6, 5, 4, 3, 2, 1, 0].foldl (fun c i => crcBit c (b.getLsbD i)) c

/-- The CRC of a string of bytes: the seed, every byte in order, no final XOR (R170). -/
def crcOf (bytes : List Byte) : Word := bytes.foldl crcByte Config.crcSeed

/-- The loop of R170 over the bytes of SECBUF. -/
def State.crcLoop (s : State) : (n : Nat) → (off : Nat) → Word → Exec Word
  | 0, _, c => .ok c
  | n + 1, off, c => do
    let v ← s.memRead off 1
    s.crcLoop n (off + 1) (crcByte c (BitVec.ofNat 8 v))

/-- CRC(off, n) (R170): OUT_OF_BOUNDS(off) past BUFLEN, else the CRC of the bytes. -/
def State.crc (s : State) (off n : Nat) : Exec Word :=
  if s.bytesInBounds off n then s.crcLoop n off Config.crcSeed
  else raise .outOfBounds (BitVec.ofNat 32 off)

/-- The fields of the three-byte short header (R172). -/
structure Header where
  tid  : Byte
  ssi  : Bool
  priv : Bool
  raw  : BitVec 12
  deriving DecidableEq, Repr

/-- The header in three bytes: tid, then ssi at bit 7 and priv at bit 6 of byte 1, then raw from bits 3:0 of byte 1 and byte 2; bits 5:4 are ignored (R172). -/
def Header.ofBytes (b0 b1 b2 : Byte) : Header where
  tid  := b0
  ssi  := b1.getLsbD 7
  priv := b1.getLsbD 6
  raw  := b1.extractLsb' 0 4 ++ b2

/-- ReadHdr (R172): OUT_OF_BOUNDS(0) where BUFLEN < 3. -/
def State.readHdr (s : State) : Exec Header :=
  if s.bytesInBounds 0 3 then do
    let b0 ← s.memRead 0 1
    let b1 ← s.memRead 1 1
    let b2 ← s.memRead 2 1
    .ok (Header.ofBytes (BitVec.ofNat 8 b0) (BitVec.ofNat 8 b1) (BitVec.ofNat 8 b2))
  else raise .outOfBounds 0

/-- HasCRC(h) = (ssi = 1) or (tid not in NOCRC_TIDS) (R173). -/
def hasTrailer (b : Build) (h : Header) : Bool := h.ssi || !b.noCrcTids.contains h.tid

/-- PhysLen(h) = raw + 3 if ssi = 1, else SHORT_LEN(tid, raw) (R174). -/
def physLen (b : Build) (h : Header) : Nat :=
  if h.ssi then h.raw.toNat + 3 else shortLen b h.tid h.raw

/-- SECHDR's RES1: bits 7:0 table id, bit 8 SSI, bit 9 private indicator, bit 10 HasCRC, bits 27:16 raw length, the rest zero (R175). -/
def headerWord (b : Build) (h : Header) : Word :=
  (h.raw.setWidth 32 <<< 16) ||| (Word.ofBit (hasTrailer b h) <<< 10)
    ||| (Word.ofBit h.priv <<< 9) ||| (Word.ofBit h.ssi <<< 8) ||| h.tid.setWidth 32

/-- SECHDR (R175). -/
def State.secHdrExec (s : State) : Exec Writes := do
  let h ← s.readHdr
  let len := physLen s.build h
  if s.extent < len then raise .badSectionLength (infoWord len)
  else .ok { res0 := some (BitVec.ofNat 32 len), res1 := some (headerWord s.build h) }

/-- SECHDR: its Exec, then its completion. -/
def execSecHdr (s : State) : Result := s.complete s.secHdrExec

/-- HASCRC (R177). -/
def State.hasCrcExec (s : State) : Exec Writes := do
  let h ← s.readHdr
  .ok { res0 := some (Word.ofBit (hasTrailer s.build h)) }

/-- HASCRC: its Exec, then its completion. -/
def execHasCrc (s : State) : Result := s.complete s.hasCrcExec

/-- CALCCRC (R178): RES0 <- CRC(ARG0, ARG1). -/
def State.calcCrcExec (s : State) : Exec Writes := do
  let c ← s.crc s.byteOffset s.byteLength
  .ok { res0 := some c }

/-- CALCCRC: its Exec, then its completion. -/
def execCalcCrc (s : State) : Result := s.complete s.calcCrcExec

/-- VERIFYCRC (R176): true without a check where there is no trailer; else the computed CRC against the trailer. -/
def State.verifyCrcExec (s : State) : Exec Writes := do
  let h ← s.readHdr
  if hasTrailer s.build h then
    let len := physLen s.build h
    if s.extent < len ∨ len < 4 then raise .badSectionLength (infoWord len)
    else do
      let c ← s.crc 0 (len - 4)
      let t ← s.memRead (len - 4) 4
      .ok { res0 := some (Word.ofBit (c == BitVec.ofNat 32 t)), res1 := some c }
  else .ok { res0 := some 1, res1 := some 0 }

/-- VERIFYCRC: its Exec, then its completion. -/
def execVerifyCrc (s : State) : Result := s.complete s.verifyCrcExec

/-- SECCRC (R179): the CRC of the section without its trailer, which is not read. -/
def State.secCrcExec (s : State) : Exec Writes := do
  let h ← s.readHdr
  if hasTrailer s.build h then
    let len := physLen s.build h
    if s.extent < len ∨ len < 4 then raise .badSectionLength (infoWord len)
    else do
      let c ← s.crc 0 (len - 4)
      .ok { res0 := some c }
  else raise .noCrcTrailer (h.tid.setWidth 32)

/-- SECCRC: its Exec, then its completion. -/
def execSecCrc (s : State) : Result := s.complete s.secCrcExec

/-- Where SETCRC stores: the offset of the trailer, or the error that stops it (R180). -/
def State.trailerOffset (s : State) : Exec Nat :=
  if s.ctrl.clone then do
    let h ← s.readHdr
    if hasTrailer s.build h then
      let len := physLen s.build h
      if s.extent < len ∨ len < 7 then raise .badSectionLength (infoWord len)
      else .ok (len - 4)
    else raise .noCrcTrailer (h.tid.setWidth 32)
  else raise .readOnly 0

/-- SETCRC (R180): MemWrite(L - 4, 4, ARG0) on an owned buffer. -/
def State.setCrcExec (s : State) : Exec Writes := do
  let off ← s.trailerOffset
  .ok { trailer := some (off, s.arg0) }

/-- SETCRC: its Exec, then its completion. -/
def execSetCrc (s : State) : Result := s.complete s.setCrcExec

end Sys2Proof.Machine
end

