-- ==== Sys2Proof/Machine/Cursor.lean ====
section
/-! DEFINITION. The meanings of the bit-extraction cursor (41_cursor.md). -/

namespace Sys2Proof.Machine

/-- BYTEAT (R141): RES0 <- zext_32(MemRead(ARG0, 1)). -/
def State.byteAtExec (s : State) : Exec Writes := do
  let v ← s.memRead s.byteOffset 1
  .ok { res0 := some (BitVec.ofNat 32 v) }

/-- BYTEAT: its Exec, then its completion. -/
def execByteAt (s : State) : Result := s.complete s.byteAtExec

/-- WORD16AT (R142): RES0 <- zext_32(MemRead(ARG0, 2)). -/
def State.word16AtExec (s : State) : Exec Writes := do
  let v ← s.memRead s.byteOffset 2
  .ok { res0 := some (BitVec.ofNat 32 v) }

/-- WORD16AT: its Exec, then its completion. -/
def execWord16At (s : State) : Result := s.complete s.word16AtExec

/-- WORD32AT (R143): RES0 <- MemRead(ARG0, 4). -/
def State.word32AtExec (s : State) : Exec Writes := do
  let v ← s.memRead s.byteOffset 4
  .ok { res0 := some (BitVec.ofNat 32 v) }

/-- WORD32AT: its Exec, then its completion. -/
def execWord32At (s : State) : Result := s.complete s.word32AtExec

/-- SLICEAT (R144): the bounds check, then the view (ARG0, ARG1); no byte is read. -/
def State.sliceAtExec (s : State) : Exec Writes :=
  if s.bytesInBounds s.byteOffset s.byteLength then .ok { res0 := some s.arg0, res1 := some s.arg1 }
  else raise .outOfBounds s.arg0

/-- SLICEAT: its Exec, then its completion. -/
def execSliceAt (s : State) : Result := s.complete s.sliceAtExec

/-- ISCLONE (R145): RES0 <- zext_32(CTRL.CLONE). -/
def State.isCloneExec (s : State) : Exec Writes := .ok { res0 := some (Word.ofBit s.ctrl.clone) }

/-- ISCLONE: its Exec, then its completion. -/
def execIsClone (s : State) : Result := s.complete s.isCloneExec

/-- A width the opcode map has no row for is ILLEGAL_CMD before anything else (R125, R146, R148, R149). -/
def State.checkWidth (s : State) (w : Byte) : Exec Unit :=
  if widthLegal w then .ok () else raise .illegalCmd s.cmd

/-- BITFIELD (R146): RES0 <- zext_32(Bits(ARG0, w)). -/
def State.bitFieldExec (s : State) (w : Byte) : Exec Writes := do
  s.checkWidth w
  let v ← s.bits s.bitAddress w.toNat
  .ok { res0 := some (BitVec.ofNat 32 v) }

/-- BITFIELD: its Exec, then its completion. -/
def execBitField (w : Byte) (s : State) : Result := s.complete (s.bitFieldExec w)

/-- SEEKBIT (R147): CURPOS <- ARG0, for any bit address up to 8 * BUFLEN; no byte is read. -/
def State.seekBitExec (s : State) : Exec Writes :=
  if s.bitsInBounds s.bitAddress 0 then .ok { curPos := some (BitVec.ofNat 16 s.bitAddress) }
  else raise .outOfBounds s.arg0

/-- SEEKBIT: its Exec, then its completion. -/
def execSeekBit (s : State) : Result := s.complete s.seekBitExec

/-- READBITS (R148): RES0 <- zext_32(Bits(CURPOS, w)), CURPOS <- CURPOS + w. -/
def State.readBitsExec (s : State) (w : Byte) : Exec Writes := do
  s.checkWidth w
  let v ← s.bits s.cursor w.toNat
  .ok { res0 := some (BitVec.ofNat 32 v), curPos := some (BitVec.ofNat 16 (s.cursor + w.toNat)) }

/-- READBITS: its Exec, then its completion. -/
def execReadBits (w : Byte) (s : State) : Result := s.complete (s.readBitsExec w)

/-- PEEKBITS (R149): RES0 <- zext_32(Bits(CURPOS, w)); CURPOS stays. -/
def State.peekBitsExec (s : State) (w : Byte) : Exec Writes := do
  s.checkWidth w
  let v ← s.bits s.cursor w.toNat
  .ok { res0 := some (BitVec.ofNat 32 v) }

/-- PEEKBITS: its Exec, then its completion. -/
def execPeekBits (w : Byte) (s : State) : Result := s.complete (s.peekBitsExec w)

end Sys2Proof.Machine
end

