-- ==== Sys2Proof/Machine/DvbText.lean ====
section
/-! DEFINITION. The DVB code-table text decoder (44_dvbtext.md) and the meaning of DVBTEXT. -/

namespace Sys2Proof.Machine

/-- The encoding a selector picks (R231). -/
inductive TextEnc where
  | iso (p : IsoPart)
  | ucs2
  deriving DecidableEq, Repr

/-- RES1: n for ISO-8859-n, 0x100 for UCS-2 (R232). -/
def TextEnc.number : TextEnc → Word
  | .iso p => BitVec.ofNat 32 (isoNumber p)
  | .ucs2  => 0x100

/-- The one-byte selectors 0x01..0x07 and 0x09..0x0B: ISO-8859-(b0 + 4) (R231). -/
def shortSelector : Nat → Option IsoPart
  | 0x01 => some .p5
  | 0x02 => some .p6
  | 0x03 => some .p7
  | 0x04 => some .p8
  | 0x05 => some .p9
  | 0x06 => some .p10
  | 0x07 => some .p11
  | 0x09 => some .p13
  | 0x0A => some .p14
  | 0x0B => some .p15
  | _    => none

/-- The part of the three-byte form 0x10, b1, b2 (R231). -/
def longSelector (b1 b2 : Nat) : Option IsoPart :=
  if b1 = 0 then isoSelectable b2 else none

/-- Selector(off, n) (R231): the encoding and the offset of the first character byte. -/
def State.selector (s : State) (off n : Nat) : Exec (TextEnc × Nat) := do
  let b0 ← s.memRead off 1
  if 0x20 ≤ b0 then .ok (.iso s.build.dvbDefault, off)
  else if b0 = 0x11 then .ok (.ucs2, off + 1)
  else if b0 = 0x10 then
    if n < 3 then raise .textTruncated (BitVec.ofNat 32 n)
    else do
      let b1 ← s.memRead (off + 1) 1
      let b2 ← s.memRead (off + 2) 1
      match longSelector b1 b2 with
      | some p => .ok (.iso p, off + 3)
      | none   => raise .unsupportedCharset (BitVec.ofNat 32 (0x100000 + b1 * 256 + b2))
  else
    match shortSelector b0 with
    | some p => .ok (.iso p, off + 1)
    | none   => raise .unsupportedCharset (BitVec.ofNat 32 b0)

/-- ISO8859(n)(c) for c in 0xA0..0xFF (R235). -/
def upperCode (t : UpperHalf) (c : Byte) : Half :=
  t[c.toNat - 0xA0]'(by have := c.isLt; omega)

/-- EmitByte(enc, c): the unit a byte gives, or none where it is dropped (R233). -/
def mapByte (t : IsoTables) (p : IsoPart) (c : Byte) : Exec (Option Half) :=
  if c = 0x8A then .ok (some 0x000A)
  else if 0x80 ≤ c.toNat ∧ c.toNat ≤ 0x9F then .ok none
  else if c.toNat ≤ 0x7F then .ok (some (c.setWidth 16))
  else
    match isoTable t p with
    | some u => .ok (some (upperCode u c))
    | none   => .error (.refusal (.isoTableAbsent p))

/-- EmitUnit(u): the unit a UCS-2 code unit gives, or none where it is dropped (R234). -/
def mapUnit (u : Half) : Option Half :=
  if u = 0xE08A then some 0x000A
  else if 0xE080 ≤ u.toNat ∧ u.toNat ≤ 0xE09F then none
  else some u

/-- Append a unit that may have been dropped. -/
def emitOption (out : List Half) : Option Half → Exec (List Half)
  | some u => emit out u
  | none   => .ok out

/-- The single-byte loop of R232: `n` bytes from `j` on. -/
def State.decodeBytes (s : State) (p : IsoPart) :
    (n : Nat) → (j : Nat) → (out : List Half) → Exec (List Half)
  | 0, _, out => .ok out
  | n + 1, j, out => do
    let c ← s.memRead j 1
    let u ← mapByte s.build.iso8859 p (BitVec.ofNat 8 c)
    let out' ← emitOption out u
    s.decodeBytes p n (j + 1) out'

/-- The UCS-2 loop of R232: `n` code units from `j` on. -/
def State.decodeUnits (s : State) : (n : Nat) → (j : Nat) → (out : List Half) → Exec (List Half)
  | 0, _, out => .ok out
  | n + 1, j, out => do
    let u ← s.memRead j 2
    let out' ← emitOption out (mapUnit (BitVec.ofNat 16 u))
    s.decodeUnits n (j + 2) out'

/-- The characters of a span that ends at `e`, from `i` on (R232). -/
def State.decodeChars (s : State) (enc : TextEnc) (i e n : Nat) : Exec (List Half) :=
  match enc with
  | .ucs2 =>
    if (e - i) % 2 = 1 then raise .textTruncated (BitVec.ofNat 32 n)
    else s.decodeUnits ((e - i) / 2) i []
  | .iso p => s.decodeBytes p (e - i) i []

/-- The results of DVBTEXT (R232). -/
def textWrites (out : List Half) (enc : TextEnc) : Writes :=
  { out := some out, res0 := some (BitVec.ofNat 32 out.length), res1 := some enc.number }

/-- The Exec of DVBTEXT (R232). -/
def State.textDecode (s : State) : Exec Writes :=
  if s.bytesInBounds s.byteOffset s.byteLength then
    if s.byteLength = 0 then .ok (textWrites [] (.iso s.build.dvbDefault))
    else do
      let r ← s.selector s.byteOffset s.byteLength
      let out ← s.decodeChars r.1 r.2 (s.byteOffset + s.byteLength) s.byteLength
      .ok (textWrites out r.1)
  else raise .outOfBounds s.arg0

/-- DVBTEXT (R232). -/
def execDvbText (s : State) : Result := s.completeString s.textDecode

end Sys2Proof.Machine
end

