-- ==== Sys2Proof/Machine/Huffman.lean ====
section
/-! DEFINITION. The ATSC Huffman string decoder (43_huffman.md) and the meanings of HUFFDEC.C5 and HUFFDEC.C7. -/

namespace Sys2Proof.Machine

/-- The symbol of a code word: HUFF_CODE(t, ctx)(s), where s is in its domain (R200). -/
def lookupWord (code : HuffCode) (word : List Bool) : Option Symbol :=
  (code.find? fun c => c.bits == word).map CodeWord.symbol

/-- Whether a bit string is a proper prefix of a code word (R203). -/
def extendsToWord (code : HuffCode) (word : List Bool) : Bool :=
  code.any fun c => word.isPrefixOf c.bits && c.bits != word

/-- R200 and R201 for one context: code words are not empty, and none is a prefix of another (or equal to another: HUFF_CODE is a map). -/
def codeOk (code : HuffCode) : Bool :=
  code.all (fun c => !c.bits.isEmpty) &&
    decide (code.Pairwise fun a b => a.bits.isPrefixOf b.bits = false ∧ b.bits.isPrefixOf a.bits = false)

/-- R201 for every table and context. -/
def codesOk (b : Build) (t : CodeTable) : Bool :=
  (List.range 128).all fun i => codeOk (huffCode b t (BitVec.ofNat 7 i))

/-- Whether HUFFDEC has a meaning in a machine with these parameters: R201, and HUFF_LIT_BITS in 1..8 (R7; log entry 12). -/
def huffOk (b : Build) : Bool :=
  codesOk b .c5 && codesOk b .c7 && b.huffEnd != b.huffEsc
    && decide (1 ≤ b.huffLitBits) && decide (b.huffLitBits ≤ 8)

/-- Read one code word (the inner loop of R203): `left` bits remain before the end of the span, `q` is the next bit, `word` the bits read so far. -/
def readCodeWord (code : HuffCode) (bit : Nat → Exec Bool) (start : Nat) :
    (left : Nat) → (q : Nat) → (word : List Bool) → Exec (Symbol × Nat)
  | 0, q, _ => raise .huffTruncated (BitVec.ofNat 32 q)
  | left + 1, q, word => do
    let b ← bit q
    match lookupWord code (word ++ [b]) with
    | some sym => .ok (sym, q + 1)
    | none =>
      if extendsToWord code (word ++ [b]) then readCodeWord code bit start left (q + 1) (word ++ [b])
      else raise .huffBadCode (BitVec.ofNat 32 start)

/-- Bits(base + q, 1) as a bit (R204). -/
def State.spanBit (s : State) (base q : Nat) : Exec Bool := do
  let v ← s.bits (base + q) 1
  .ok (decide (v = 1))

/-- The character a code word stands for, and the bits after it: the symbol itself, or after HUFF_ESC the literal (R203). -/
def State.readChar (s : State) (base total : Nat) (sym : Symbol) (q : Nat) : Exec (Byte × Nat) :=
  if sym = s.build.huffEsc then
    if total < q + s.build.huffLitBits then raise .huffTruncated (BitVec.ofNat 32 q)
    else do
      let v ← s.bits (base + q) s.build.huffLitBits
      .ok (BitVec.ofNat 8 v, q + s.build.huffLitBits)
  else .ok (sym.setWidth 8, q)

/-- The outer loop of R203. Every turn consumes a bit or ends, so `total + 1` turns are enough and the first case is never reached from there (Laws/Huffman.lean). -/
def State.huffLoop (s : State) (t : CodeTable) (base total : Nat) :
    (fuel : Nat) → (q : Nat) → (ctx : Symbol) → (out : List Half) → Exec (List Half × Nat)
  | 0, q, _, _ => raise .huffTruncated (BitVec.ofNat 32 q)
  | fuel + 1, q, ctx, out => do
    let r ← readCodeWord (huffCode s.build t ctx) (s.spanBit base) q (total - q) q []
    if r.1 = s.build.huffEnd then .ok (out, r.2)
    else do
      let c ← s.readChar base total r.1 r.2
      let out' ← emit out (c.1.setWidth 16)
      s.huffLoop t base total fuel c.2 (huffCtxNext s.build c.1) out'

/-- The Exec of HUFFDEC with one table (R203). -/
def State.huffDecode (s : State) (t : CodeTable) : Exec Writes :=
  if huffOk s.build then
    if s.bytesInBounds s.byteOffset s.byteLength then do
      let r ← s.huffLoop t (8 * s.byteOffset) (8 * s.byteLength) (8 * s.byteLength + 1) 0
        s.build.huffCtxStart []
      .ok { out := some r.1, res0 := some (BitVec.ofNat 32 r.1.length), res1 := some (BitVec.ofNat 32 r.2) }
    else raise .outOfBounds s.arg0
  else .error (.refusal .huffCodeIllFormed)

/-- HUFFDEC.C5 (R203): the title table. -/
def execHuffDecC5 (s : State) : Result := s.completeString (s.huffDecode .c5)

/-- HUFFDEC.C7 (R203): the description table. -/
def execHuffDecC7 (s : State) : Result := s.completeString (s.huffDecode .c7)

end Sys2Proof.Machine
end

