-- ==== Sys2Proof/Machine/Lifecycle.lean ====
section
/-! DEFINITION. The meaning of NOP (40_lifecycle.md). -/

namespace Sys2Proof.Machine

/-- NOP (R127): a success that writes nothing. -/
def nopExec : Exec Writes := .ok {}

/-- NOP: its Exec, then its completion. -/
def execNop (s : State) : Result := s.complete nopExec

end Sys2Proof.Machine
end

