-- ==== Sys2Proof/Machine/Dispatch.lean ====
section
/-! DEFINITION. The dispatch from a command to its meaning. -/

namespace Sys2Proof.Machine

def exec (i : Instr) (s : State) : Host.Outcome State Fault Refusal :=
  match i with
  | .nop => Sys2Proof.Machine.execNop s
  | .byteAt => Sys2Proof.Machine.execByteAt s
  | .word16At => Sys2Proof.Machine.execWord16At s
  | .word32At => Sys2Proof.Machine.execWord32At s
  | .sliceAt => Sys2Proof.Machine.execSliceAt s
  | .isClone => Sys2Proof.Machine.execIsClone s
  | .bitField w => Sys2Proof.Machine.execBitField w s
  | .seekBit => Sys2Proof.Machine.execSeekBit s
  | .readBits w => Sys2Proof.Machine.execReadBits w s
  | .peekBits w => Sys2Proof.Machine.execPeekBits w s
  | .secHdr => Sys2Proof.Machine.execSecHdr s
  | .hasCrc => Sys2Proof.Machine.execHasCrc s
  | .calcCrc => Sys2Proof.Machine.execCalcCrc s
  | .verifyCrc => Sys2Proof.Machine.execVerifyCrc s
  | .secCrc => Sys2Proof.Machine.execSecCrc s
  | .setCrc => Sys2Proof.Machine.execSetCrc s
  | .huffDecC5 => Sys2Proof.Machine.execHuffDecC5 s
  | .huffDecC7 => Sys2Proof.Machine.execHuffDecC7 s
  | .dvbText => Sys2Proof.Machine.execDvbText s

end Sys2Proof.Machine
end

