-- ==== Sys2Proof/Machine/HostBus.lean ====
section
/-! DEFINITION. The host's side of the window: the register map (R23), the widths and alignments of an access (R63), what each read returns (R68) and what each write does (R24 to R43, R67). -/

namespace Sys2Proof.Machine

/-- The registers of R23. -/
inductive Reg where
  | id | ctrl | status | bufLen | cmd | arg0 | arg1 | res0 | res1 | curPos | outLen | errInfo
  deriving DecidableEq, Repr

/-- The offset column of R23; the offsets 0x030..0xFFF are reserved (R43). -/
def regAt : Nat → Option Reg
  | 0x000 => some .id
  | 0x004 => some .ctrl
  | 0x008 => some .status
  | 0x00C => some .bufLen
  | 0x010 => some .cmd
  | 0x014 => some .arg0
  | 0x018 => some .arg1
  | 0x01C => some .res0
  | 0x020 => some .res1
  | 0x024 => some .curPos
  | 0x028 => some .outLen
  | 0x02C => some .errInfo
  | _     => none

/-- ID reads as the ASCII bytes "PSE1" (R24). -/
def idValue : Word := 0x50534531

/-- The bytes an access moves. -/
def AccessSize.bytes : AccessSize → Nat
  | .b8  => 1
  | .b16 => 2
  | .b32 => 4
  | .b64 => 8

/-- Where an access falls in the window (R23). -/
inductive Region where
  | registers
  | sectionBuf
  | outputBuf
  deriving DecidableEq, Repr

/-- The region of a window offset below 0x4000. -/
def regionOf (off : Nat) : Region :=
  if off < 0x1000 then .registers else if off < 0x2000 then .sectionBuf else .outputBuf

/-- The window offset of a host bus address, if the address is the block's (R62). -/
def windowOffset (base addr : Nat) : Option Nat :=
  if base ≤ addr ∧ addr < base + 0x4000 then some (addr - base) else none

/-- R63: registers take aligned 32-bit accesses; the buffers take naturally aligned 8, 16 and 32-bit accesses; anything else is a bus error. -/
def accessLegal (size : AccessSize) (off : Nat) : Bool :=
  match regionOf off with
  | .registers => size == .b32 && off % 4 == 0
  | .sectionBuf   => size != .b64 && off % size.bytes == 0
  | .outputBuf    => size != .b64 && off % size.bytes == 0

/-- What a register reads as (R24 to R39). -/
def State.readReg (s : State) : Reg → Word
  | .id      => idValue
  | .ctrl    => s.ctrl.toWord
  | .status  => s.status.toWord
  | .bufLen  => s.bufLen.setWidth 32
  | .cmd     => s.cmd
  | .arg0    => s.arg0
  | .arg1    => s.arg1
  | .res0    => s.res0
  | .res1    => s.res1
  | .curPos  => s.curPos.setWidth 32
  | .outLen  => s.outLen.setWidth 32
  | .errInfo => s.errInfo

/-- What a register offset reads as; a reserved one reads 0 (R43). -/
def State.readRegAt (s : State) (off : Nat) : Word :=
  match regAt off with
  | some r => s.readReg r
  | none   => 0

/-- Byte k of OUTBUF: the high byte of entry k / 2 where k is even, else its low byte; UNDEF_READ where the entry's mark is clear (R41, R42). -/
def State.outByte (s : State) (k : Nat) : Except Fault Byte :=
  match s.outBuf[k / 2]? with
  | some u => .ok (if k % 2 = 0 then u.extractLsb' 8 8 else u.extractLsb' 0 8)
  | none   => .error (.undefReadOutBuf (k / 2))

/-- Byte k of SECBUF as the host reads it; UNDEF_READ where its mark is clear (R41). -/
def State.hostSecByte (s : State) (k : Nat) : Except Fault Byte :=
  match s.secBuf.get k with
  | some b => .ok b
  | none   => .error (.undefReadSecBuf k)

/-- `n` bytes of a buffer from offset `k` on, big-endian (R63). -/
def hostBytes (byte : Nat → Except Fault Byte) : (n : Nat) → (k acc : Nat) → Except Fault Nat
  | 0, _, acc => .ok acc
  | n + 1, k, acc => do
    let b ← byte k
    hostBytes byte n (k + 1) (acc * 256 + b.toNat)

/-- The value a host read of the window returns (R63, R68). -/
def State.hostRead (s : State) (size : AccessSize) (off : Nat) : Except Fault Word :=
  if accessLegal size off then
    match regionOf off with
    | .registers => .ok (s.readRegAt off)
    | .sectionBuf   => (hostBytes s.hostSecByte size.bytes (off - 0x1000) 0).map (BitVec.ofNat 32)
    | .outputBuf    => (hostBytes s.outByte size.bytes (off - 0x2000) 0).map (BitVec.ofNat 32)
  else .error (.hostBusError size off)

/-- R67: a host write that BUSY = 1 drops sets OVR and does nothing else. -/
def State.unlessBusy (s s' : State) : State :=
  if s.status.busy then { s with status := s.status.dropped } else s'

/-- A BUFLEN write (R33): above 4096 it is rejected with BAD_BUFLEN. -/
def State.writeBufLen (s : State) (v : Word) : State :=
  if v.toNat ≤ Config.bufBytes then { s with bufLen := v.setWidth 13 }
  else { s with status := s.status.bufLenRejected, errInfo := v }

/-- A CTRL write (R25): bit 31 is the soft reset, whatever BUSY is. -/
def State.writeCtrl (s : State) (v : Word) : State :=
  if v.getLsbD 31 then s.softReset else s.unlessBusy { s with ctrl := Ctrl.ofWrite v }

/-- What a host write to a register does (R24 to R39). -/
def State.writeReg (s : State) (v : Word) : Reg → State
  | .id      => s
  | .ctrl    => s.writeCtrl v
  | .status  => s.acknowledge v
  | .bufLen  => s.unlessBusy (s.writeBufLen v)
  | .cmd     => s.unlessBusy (s.startCommand v)
  | .arg0    => s.unlessBusy { s with arg0 := v }
  | .arg1    => s.unlessBusy { s with arg1 := v }
  | .res0    => s
  | .res1    => s
  | .curPos  => s
  | .outLen  => s
  | .errInfo => s

/-- A register write at an offset; at a reserved one it is ignored (R43). -/
def State.writeRegAt (s : State) (off : Nat) (v : Word) : State :=
  match regAt off with
  | some r => s.writeReg v r
  | none   => s

/-- What a host write to the window does (R63, R67, R68): OUTBUF writes are ignored (R42). -/
def State.hostWrite (s : State) (size : AccessSize) (off : Nat) (v : Word) : Except Fault State :=
  if accessLegal size off then
    match regionOf off with
    | .registers => .ok (s.writeRegAt off v)
    | .sectionBuf   =>
      .ok (s.unlessBusy { s with secBuf := s.secBuf.writeBE size.bytes (off - 0x1000) v.toNat })
    | .outputBuf    => .ok s
  else .error (.hostBusError size off)

/-- One host access as an atomic event (R66). An address outside the window is not the block's (R62; log entry 9). A read changes nothing of the block (R68); the model notes the value it returned. -/
def State.hostAccess (s : State) : HostAccess → Result
  | .read size addr =>
    match windowOffset s.build.pseBase addr with
    | none => .next s
    | some off =>
      match s.hostRead size off with
      | .ok v    => .next { s with hostData := some v }
      | .error f => .fault f
  | .write size addr v =>
    match windowOffset s.build.pseBase addr with
    | none => .next s
    | some off =>
      match s.hostWrite size off v with
      | .ok s'   => .next s'
      | .error f => .fault f

end Sys2Proof.Machine
end

