-- ==== Sys2Proof/Machine/Engine.lean ====
section
/-! DEFINITION. One turn of the machine: the engine's step (R121, R125), and the choice among the agents (R20, R71). -/

namespace Sys2Proof.Machine

/-- The command the engine finds pending in CMD (R44, R121). -/
def State.pending (s : State) : Except DecodeError Instr := decode s.cmd

/-- The engine step (R121): the pending command, or ILLEGAL_CMD with ERRINFO = CMD for an illegal word (R125). -/
def State.engineStep (s : State) : Result :=
  match s.pending with
  | .ok i    => exec i s
  | .error _ => .next (s.takeError .illegalCmd s.cmd)

/-- The engine's turn: it has a step exactly when BUSY = 1 (R121); idle, nothing changes (R315). -/
def State.engineTurn (s : State) : Result :=
  if s.status.busy then s.engineStep else .next s

/-- One turn of the interleaving: the first of the schedule, or the engine where none is left (R71; log entries 3 and 20). -/
def State.takeTurn (s : State) : Result :=
  match s.schedule with
  | []                => s.engineTurn
  | .engine :: rest   => { s with schedule := rest }.engineTurn
  | .host a :: rest   => { s with schedule := rest }.hostAccess a
  | .powerOn :: rest  => .next { s with schedule := rest }.powerOnReset

/-- A marked state is quiescent: it takes no further step (R46, R302). -/
def State.markedOr (s : State) (r : Result) : Result :=
  match s.faultMark, s.refusalMark with
  | some f, _         => .fault f
  | none, some r'     => .refused r'
  | none, none        => r

end Sys2Proof.Machine
end

