-- ==== Sys2Proof/Machine/Step.lean ====
section
/-! DEFINITION. The step of the machine. -/

namespace Sys2Proof.Machine

/-- One step: quiescent where a mark is set (R302), else one turn of the interleaving (R71). -/
def step (s : State) : Host.Outcome State Fault Refusal := s.markedOr s.takeTurn

/-- The state after one step with the marks of R46: where the step does not complete, the mark is set and nothing else changes (R302). -/
def advance (s : State) : State := s.settle (step s)

/-- `s` with the word `w` of `nbits` bits just started as a command and the engine to move next: the CMD write of R120 by a host that waits for the command (log entry 4). -/
def State.withFetchWord (s : State) (nbits w : Nat) : State :=
  { s.startCommand (BitVec.ofNat 32 (w % 2 ^ nbits)) with
    schedule := []
    faultMark := none
    refusalMark := none }

end Sys2Proof.Machine
end

