-- ==== Sys2Proof/Safety.lean ====
section
/-! DEFINITION. The terms claims are stated in: which states are marked, final and lawful (`Inv`), runs of the machine, and the spec's own relations on data: the bytes of a span, the bit at a bit address (R11), the bit strings a Huffman code stands for (R203), and the selector table of DVB text (R231). -/

namespace Sys2Proof.Machine

/-! ### States -/

/-- No fault mark and no refusal mark (R46). -/
def State.unmarked (s : State) : Prop := s.faultMark = none ∧ s.refusalMark = none

/-- A good final state: nothing pending, nothing to come, no mark (R46, R126). -/
def State.final (s : State) : Prop := s.unmarked ∧ s.status.busy = false ∧ s.schedule = []

/-- `k` turns, stopping at the first that does not complete. -/
def runTurns : Nat → State → Result
  | 0, s => .next s
  | k + 1, s =>
    match step s with
    | .next t    => runTurns k t
    | .fault f   => .fault f
    | .refused r => .refused r

/-- A result that is a next state with a property. -/
def Completes (r : Result) (p : State → Prop) : Prop := ∃ t, r = .next t ∧ p t

/-- What holds of every state a run of the block can reach. -/
structure Inv (s : State) : Prop where
  /-- SECBUF keeps its canonical form, within its 4096 bytes (R40). -/
  secBuf  : s.secBuf.wf = true
  /-- BUFLEN holds 0..4096 (R33). -/
  bufLen  : s.bufLen.toNat ≤ 4096
  /-- CURPOS holds 0..32768 (R37). -/
  curPos  : s.curPos.toNat ≤ 32768
  /-- OUTBUF has 4096 entries (R42). -/
  outBuf  : s.outBuf.length ≤ 4096
  /-- The marked entries are 0..OUTLEN-1 (R41), but after a soft reset, which keeps them and clears OUTLEN (R341). -/
  outLen  : s.outLen.toNat = s.outBuf.length ∨ s.outLen.toNat = 0
  /-- STATUS.DONE and STATUS.ERR are never both 1 (R304). -/
  doneErr : ¬(s.status.done = true ∧ s.status.err = true)
  /-- A pending command's start cleared DONE, ERR and ERRCODE (R120). -/
  busy    : s.status.busy = true → s.status.done = false ∧ s.status.err = false ∧ s.status.errCode = .none
  /-- After a success there is no failure on record (R120, R122). -/
  done    : s.status.done = true → s.status.errCode = .none
  /-- A failure on record has a code (R32). -/
  err     : s.status.err = true → s.status.errCode ≠ .none
  /-- ERRINFO is 0 where no failure is on record (R301, code 0x00). -/
  info    : s.status.errCode = .none → s.errInfo = 0

/-! ### Data of the section -/

/-- SECBUF holds the written bytes `bs` from offset `off` on. -/
def State.holds (s : State) (off : Nat) (bs : List Byte) : Prop :=
  ∀ k b, bs[k]? = some b → s.secBuf.get (off + k) = some b

/-- The big-endian value of a string of bytes (R60). -/
def bigEndian (bs : List Byte) : Nat := bs.foldl (fun a b => a * 256 + b.toNat) 0

/-- The four bytes of a word, most significant first (R60, R180). -/
def wordBytes (v : Word) : List Byte :=
  [v.extractLsb' 24 8, v.extractLsb' 16 8, v.extractLsb' 8 8, v.extractLsb' 0 8]

/-- The bit at bit address p, where its byte is written: bit 7 - (p mod 8) of byte p div 8 (R11). -/
def Memory.bit (m : Memory) (p : Nat) : Option Bool :=
  (m.get (p / 8)).map fun b => b.getLsbD (7 - p % 8)

/-- The bits of SECBUF from bit address p on are the string `bs`. -/
def State.holdsBits (s : State) (p : Nat) (bs : List Bool) : Prop :=
  ∀ k b, bs[k]? = some b → s.secBuf.bit (p + k) = some b

/-- `v` is the w-bit field at bit address p: its most significant bit is the bit at p, its least significant the bit at p + w - 1, and the bits above are 0 (R10, R11). -/
def State.isField (s : State) (p w : Nat) (v : Word) : Prop :=
  v.toNat < 2 ^ w ∧ ∀ k, k < w → s.secBuf.bit (p + k) = some (v.getLsbD (w - 1 - k))

/-- Every byte that holds a bit of the field of width w at p is written. -/
def State.fieldWritten (s : State) (p w : Nat) : Prop :=
  ∀ k, k < w → (s.secBuf.bit (p + k)).isSome = true

/-! ### Huffman strings -/

/-- The value of a bit string, first bit most significant (R11). -/
def bitsValue (bs : List Bool) : Nat := bs.foldl (fun a b => a * 2 + b.toNat) 0

/-- `Chars b t c bs out c'`: read from context `c`, the bits `bs` are the code words (and literals) of the characters `out`, and leave the context `c'` (R200, R203). -/
inductive Chars (b : Build) (t : CodeTable) : Symbol → List Bool → List Half → Symbol → Prop where
  /-- No character. -/
  | nil (c : Symbol) : Chars b t c [] [] c
  /-- A code word whose symbol is a character code. -/
  | char (c : Symbol) (w : List Bool) (sym : Symbol) (bs : List Bool) (out : List Half) (c' : Symbol) :
      ⟨w, sym⟩ ∈ huffCode b t c → sym ≠ b.huffEnd → sym ≠ b.huffEsc →
      Chars b t (huffCtxNext b (sym.setWidth 8)) bs out c' →
      Chars b t c (w ++ bs) (sym.setWidth 16 :: out) c'
  /-- HUFF_ESC and a literal of HUFF_LIT_BITS bits. -/
  | esc (c : Symbol) (w : List Bool) (lit : List Bool) (bs : List Bool) (out : List Half) (c' : Symbol) :
      ⟨w, b.huffEsc⟩ ∈ huffCode b t c → lit.length = b.huffLitBits →
      Chars b t (huffCtxNext b (BitVec.ofNat 8 (bitsValue lit))) bs out c' →
      Chars b t c (w ++ lit ++ bs) (BitVec.ofNat 16 (bitsValue lit) :: out) c'

/-- The HUFFDEC command of a table. -/
def huffDec : CodeTable → Instr
  | .c5 => .huffDecC5
  | .c7 => .huffDecC7

/-- HUFFDEC over the bytes `span`, alone in SECBUF, succeeds with exactly the characters `chars`. -/
def HuffGives (b : Build) (t : CodeTable) (span : List Byte) (chars : List Half) : Prop :=
  Completes (exec (huffDec t) { State.powerOn b with
      bufLen := BitVec.ofNat 13 span.length, arg1 := BitVec.ofNat 32 span.length
      secBuf := span.zipIdx.map fun x => (x.2, x.1) }) fun u =>
    u.status.done = true ∧ u.outLen.toNat = chars.length ∧ u.outBuf = chars ∧ u.res1.toNat ≤ 8 * span.length

/-- "The next" (R209). -/
def theNext : List Half := [0x54, 0x68, 0x65, 0x20, 0x6E, 0x65, 0x78, 0x74]

/-- "MythTV is cool" without its last character (R209). -/
def mythTvIsCool : List Half :=
  [0x4D, 0x79, 0x74, 0x68, 0x54, 0x56, 0x20, 0x69, 0x73, 0x20, 0x63, 0x6F, 0x6F, 0x6C]

/-- R209: the three demands of the source on HUFF_CODE: the five bytes of C5 it gives, and by their lengths alone the two vectors whose bytes are lost (91_not_in_source.md N2): some 12 bytes of C5 give "MythTV is cool!" and some 11 bytes of C7 give "MythTV is cool.". Where this fails the code is not the ATSC table; a claim about that table takes it as a premise. -/
def MeetsSourceVectors (b : Build) : Prop :=
  HuffGives b .c5 [0x43, 0x28, 0xDC, 0x84, 0xD4] theNext ∧
  (∃ span, span.length = 12 ∧ HuffGives b .c5 span (mythTvIsCool ++ [0x21])) ∧
  (∃ span, span.length = 11 ∧ HuffGives b .c7 span (mythTvIsCool ++ [0x2E]))

/-! ### DVB text -/

/-- R235, G10: part 1 is the identity c -> U+00cc on 0xA0..0xFF, from general knowledge. No parameters are assumed to meet it: R7, D21 and N10 leave ISO8859 open for every part. DESIGN CHOICE (log entry 27); a claim about the identity takes it as a premise. -/
def PartOneIsIdentity (t : IsoTables) : Prop :=
  ∀ k : Fin 96, t.p1[k] = BitVec.ofNat 16 (0xA0 + k.val)

/-- `Selects b span enc chars`: by the table of R231 the text `span` has the encoding `enc` and the character bytes `chars`. -/
inductive Selects (b : Build) : List Byte → TextEnc → List Byte → Prop where
  /-- 0x20..0xFF: no selector byte. -/
  | noSelector (c : Byte) (rest : List Byte) :
      0x20 ≤ c.toNat → Selects b (c :: rest) (.iso b.dvbDefault) (c :: rest)
  /-- 0x01..0x07 and 0x09..0x0B: ISO-8859-(b0 + 4). -/
  | short (c : Byte) (rest : List Byte) (p : IsoPart) :
      1 ≤ c.toNat → c.toNat ≤ 0x0B → c.toNat ≠ 8 → isoNumber p = c.toNat + 4 →
      Selects b (c :: rest) (.iso p) rest
  /-- 0x10, 0x00, n: ISO-8859-n for n in 1..15, n != 12. -/
  | long (n : Byte) (rest : List Byte) (p : IsoPart) :
      isoNumber p = n.toNat → p ≠ .p12 → Selects b (0x10 :: 0x00 :: n :: rest) (.iso p) rest
  /-- 0x11: UCS-2. -/
  | ucs2 (rest : List Byte) : Selects b (0x11 :: rest) .ucs2 rest

/-! ### Results of a command -/

/-- STATUS after a success: BUSY <- 0, DONE <- 1 (R122). -/
def doneStatus (st : Status) : Status := { st with busy := false, done := true }

/-- STATUS after an error: BUSY <- 0, ERR <- 1, ERRCODE <- the code (R123). -/
def errStatus (st : Status) (c : ErrCode) : Status :=
  { st with busy := false, err := true, errCode := c }

/-- A command that is no string command fails with `c` and `info`: STATUS and ERRINFO change, and nothing else (R123). -/
def FailsWith (i : Instr) (s : State) (c : ErrCode) (info : Word) : Prop :=
  exec i s = .next { s with status := errStatus s.status c, errInfo := info }

/-- A string command fails with `c` and `info`: as R123 says, and OUTLEN is 0 and no entry of OUTBUF is marked (R124). -/
def StringFailsWith (i : Instr) (s : State) (c : ErrCode) (info : Word) : Prop :=
  exec i s = .next { s with status := errStatus s.status c, errInfo := info, outLen := 0, outBuf := [] }

/-- The engine step of the word fails with ILLEGAL_CMD, ERRINFO = the word, and no other effect (R95, R125). -/
def WordIllegal (w : Word) : Prop :=
  ∀ s : State, s.cmd = w →
    s.engineStep = .next { s with status := errStatus s.status .illegalCmd, errInfo := w }

/-- "ILLEGAL_CMD if M or Z is not zero", for the words of an opcode. -/
def IllegalUnlessPlain (op : Byte) : Prop :=
  ∀ w : Word, opField w = op → mField w ≠ 0 ∨ zField w ≠ 0 → WordIllegal w

/-- "ILLEGAL_CMD if w = 0 or w > 32 or Z != 0", for the words of an opcode. -/
def IllegalUnlessWidth (op : Byte) : Prop :=
  ∀ w : Word, opField w = op → mField w = 0 ∨ 32 < (mField w).toNat ∨ zField w ≠ 0 → WordIllegal w

/-- The encoding of a command without a modifier: its word is its opcode alone, and no other word of that opcode is legal. -/
def PlainCommand (op : Byte) (i : Instr) : Prop :=
  decode (op.setWidth 32) = .ok i ∧ IllegalUnlessPlain op

/-- The encoding of a command with a width: the word 0x0000ww and the opcode for each width 1..32, and no other word of that opcode is legal. -/
def WidthCommand (op : Byte) (mk : Byte → Instr) : Prop :=
  (∀ w : Byte, 1 ≤ w.toNat → w.toNat ≤ 32 → decode (BitVec.ofNat 32 (w.toNat * 256 + op.toNat)) = .ok (mk w)) ∧
  IllegalUnlessWidth op

/-! ### The section header, by arithmetic on its three bytes (R172 to R174) -/

/-- The 12-bit raw section length: bits 3:0 of byte 1, then byte 2. -/
def rawLength (b1 b2 : Byte) : Nat := b1.toNat % 16 * 256 + b2.toNat

/-- PhysLen: raw + 3 if ssi = 1, else SHORT_LEN(tid, raw) (R174). -/
def sectionLength (b : Build) (b0 b1 b2 : Byte) : Nat :=
  if b1.getLsbD 7 then rawLength b1 b2 + 3 else shortLen b b0 (BitVec.ofNat 12 (rawLength b1 b2))

/-- HasCRC: ssi = 1 or tid not in NOCRC_TIDS (R173). -/
def sectionHasCrc (b : Build) (b0 b1 : Byte) : Prop :=
  b1.getLsbD 7 = true ∨ b0 ∉ b.noCrcTids

/-! ### Which commands read a byte that was never written (R41, R65, R303) -/

/-- A byte read of width n at `off` is in bounds, and one of its bytes was never written. -/
def State.bytesUnwritten (s : State) (off n : Nat) : Prop :=
  off + n ≤ s.bufLen.toNat ∧ ∃ k, k < n ∧ s.secBuf.get (off + k) = none

/-- A bit read of width w at p is in bounds, and one of its bits lies in a byte that was never written. -/
def State.bitsUnwritten (s : State) (p w : Nat) : Prop :=
  p + w ≤ 8 * s.bufLen.toNat ∧ ∃ k, k < w ∧ s.secBuf.bit (p + k) = none

/-- HUFFDEC, after the code words and literals of at most 4096 characters and the bits `w` of a code word begun: the next bit it needs, or a bit of the literal after HUFF_ESC, is unwritten (R203). -/
def State.huffUnwritten (s : State) (t : CodeTable) : Prop :=
  huffOk s.build = true ∧ s.arg0.toNat + s.arg1.toNat ≤ s.bufLen.toNat ∧
  ∃ bs w out c, Chars s.build t s.build.huffCtxStart bs out c ∧ out.length ≤ 4096 ∧
    s.holdsBits (8 * s.arg0.toNat) (bs ++ w) ∧
    (((w = [] ∨ extendsToWord (huffCode s.build t c) w = true) ∧ (bs ++ w).length < 8 * s.arg1.toNat ∧
        s.secBuf.bit (8 * s.arg0.toNat + (bs ++ w).length) = none) ∨
      (⟨w, s.build.huffEsc⟩ ∈ huffCode s.build t c ∧
        (bs ++ w).length + s.build.huffLitBits ≤ 8 * s.arg1.toNat ∧
        ∃ k, k < s.build.huffLitBits ∧ s.secBuf.bit (8 * s.arg0.toNat + (bs ++ w).length + k) = none))

/-- DVBTEXT: a byte of the selector is unwritten, or after the selector and the characters of `pre` the next byte is; an odd UCS-2 length is found before any character (R232), and a byte 0xA0..0xFF of the absent part 12 before the bytes after it (log entry 13). -/
def State.textUnwritten (s : State) : Prop :=
  s.arg0.toNat + s.arg1.toNat ≤ s.bufLen.toNat ∧
  ((0 < s.arg1.toNat ∧ s.secBuf.get s.arg0.toNat = none) ∨
    (3 ≤ s.arg1.toNat ∧ s.secBuf.get s.arg0.toNat = some 0x10 ∧
      (s.secBuf.get (s.arg0.toNat + 1) = none ∨ s.secBuf.get (s.arg0.toNat + 2) = none)) ∨
    ∃ pre enc chars, Selects s.build pre enc chars ∧ s.holds s.arg0.toNat pre ∧ pre.length < s.arg1.toNat ∧
      s.secBuf.get (s.arg0.toNat + pre.length) = none ∧ (enc = .ucs2 → s.arg1.toNat % 2 = 1) ∧
      (enc = .iso .p12 → ∀ c ∈ chars, c.toNat < 0xA0))

/-- The command, run from `s`, reads in bounds a byte that was never written, and no cause checked before stops it. -/
def State.readsUnwritten (s : State) : Instr → Prop
  | .nop => False
  | .byteAt => s.bytesUnwritten s.arg0.toNat 1
  | .word16At => s.bytesUnwritten s.arg0.toNat 2
  | .word32At => s.bytesUnwritten s.arg0.toNat 4
  | .sliceAt => False
  | .isClone => False
  | .bitField w => 1 ≤ w.toNat ∧ w.toNat ≤ 32 ∧ s.bitsUnwritten s.arg0.toNat w.toNat
  | .seekBit => False
  | .readBits w => 1 ≤ w.toNat ∧ w.toNat ≤ 32 ∧ s.bitsUnwritten s.curPos.toNat w.toNat
  | .peekBits w => 1 ≤ w.toNat ∧ w.toNat ≤ 32 ∧ s.bitsUnwritten s.curPos.toNat w.toNat
  | .secHdr => s.bytesUnwritten 0 3
  | .hasCrc => s.bytesUnwritten 0 3
  | .calcCrc => s.bytesUnwritten s.arg0.toNat s.arg1.toNat
  | .verifyCrc => s.bytesUnwritten 0 3 ∨ ∃ b0 b1 b2, s.holds 0 [b0, b1, b2] ∧ sectionHasCrc s.build b0 b1 ∧
      4 ≤ sectionLength s.build b0 b1 b2 ∧ s.bytesUnwritten 0 (sectionLength s.build b0 b1 b2)
  | .secCrc => s.bytesUnwritten 0 3 ∨ ∃ b0 b1 b2, s.holds 0 [b0, b1, b2] ∧ sectionHasCrc s.build b0 b1 ∧
      4 ≤ sectionLength s.build b0 b1 b2 ∧ sectionLength s.build b0 b1 b2 ≤ s.bufLen.toNat ∧
      s.bytesUnwritten 0 (sectionLength s.build b0 b1 b2 - 4)
  | .setCrc => s.ctrl.clone = true ∧ s.bytesUnwritten 0 3
  | .huffDecC5 => s.huffUnwritten .c5
  | .huffDecC7 => s.huffUnwritten .c7
  | .dvbText => s.textUnwritten

/-- DVBTEXT meets a byte 0xA0..0xFF of a text in the default table with DVB_DEFAULT = 12, after written bytes only (R46, log entry 13). -/
def State.textWithoutTable (s : State) : Prop :=
  s.arg0.toNat + s.arg1.toNat ≤ s.bufLen.toNat ∧
  ∃ pre c, Selects s.build (pre ++ [c]) (.iso .p12) (pre ++ [c]) ∧ s.holds s.arg0.toNat (pre ++ [c]) ∧
    (pre ++ [c]).length ≤ s.arg1.toNat ∧ 0xA0 ≤ c.toNat

/-! ### The CRC as a remainder (R171) -/

/-- The bits of a value, the most significant first. -/
def msbFirst {n : Nat} (v : BitVec n) : List Bool := (List.range n).map fun i => v.getLsbD (n - 1 - i)

end Sys2Proof.Machine
end

