-- ==== Sys2Proof/Certificates/Slice0/Obligations.lean ====
section
/-! DEFINITION. The statements for the provers. Each docstring names the rule of spec/ it formalises. -/

open Sys2Proof Sys2Proof.Machine

/-! ### The command word -/

/-- Decoding the word of a well-formed command gives the command back (R93). -/
def Obligations.DecodeOfEncode : Prop :=
  ∀ i : Instr, i.WellFormed → decode (encode i) = .ok i

/-- R95: a word is legal iff it matches one row of the opcode map exactly, and every other word fails with ILLEGAL_CMD, ERRINFO = the word, and no other effect. -/
def Obligations.LegalWordsAreTheRows : Prop :=
  (∀ (w : Word) (i : Instr), decode w = .ok i ↔ i.WellFormed ∧ encode i = w) ∧
  (∀ w : Word, (¬∃ i : Instr, i.WellFormed ∧ encode i = w) → WordIllegal w)

/-- Words written out from R93 and R101 decode to their commands. -/
def Obligations.OpcodeMapWords : Prop :=
  decode 0x00000000 = .ok .nop ∧ decode 0x00000001 = .ok .byteAt ∧
  decode 0x00000C06 = .ok (.bitField 12) ∧ decode 0x00001008 = .ok (.readBits 16) ∧
  decode 0x00000013 = .ok .verifyCrc ∧ decode 0x00000120 = .ok .huffDecC5 ∧
  decode 0x00000220 = .ok .huffDecC7 ∧ decode 0x00000021 = .ok .dvbText ∧
  (∀ i : Instr, decode 0x00002106 ≠ .ok i) ∧ (∀ i : Instr, decode 0x0000000A ≠ .ok i)

/-! ### The step -/

/-- R121, R125: at the engine's turn with BUSY = 1 the step is the meaning of the command CMD selects; the turn leaves the schedule, and nothing else happens around it. An empty schedule gives the engine the turn. -/
def Obligations.StepRunsPendingCommand : Prop :=
  ∀ (s : State) (i : Instr), s.unmarked → s.status.busy = true → decode s.cmd = .ok i →
    (s.schedule = [] → step s = exec i s) ∧
    (∀ rest, s.schedule = Turn.engine :: rest → step s = exec i { s with schedule := rest })

/-- R121, R125, R315: the engine's turn without a legal command, as the next turn of the schedule or with none left: an idle block changes nothing but the schedule; an illegal word that is pending fails with ILLEGAL_CMD and ERRINFO = CMD, and OUTLEN and OUTBUF are unchanged even when its OP is a string command's. -/
def Obligations.EngineTurnWithoutLegalCommand : Prop :=
  ∀ (s : State) (rest : List Turn), s.unmarked →
    (s.schedule = [] ∧ rest = []) ∨ s.schedule = Turn.engine :: rest →
    (s.status.busy = false → step s = .next { s with schedule := rest }) ∧
    (s.status.busy = true → (∀ i, decode s.cmd ≠ .ok i) →
      step s = .next { s with
        schedule := rest, status := errStatus s.status .illegalCmd, errInfo := s.cmd })

/-- R66, R68: a host turn is one access of the window; a write that is accepted is the step, a read changes no state of the block (the model notes the value it returned). -/
def Obligations.StepOfHostAccess : Prop :=
  ∀ (s : State) (size : AccessSize) (off : Nat) (v : Word) (rest : List Turn), s.unmarked → off < 0x4000 →
    (s.schedule = Turn.host (.write size (s.build.pseBase + off) v) :: rest →
      ∀ t, State.hostWrite { s with schedule := rest } size off v = .ok t → step s = .next t) ∧
    (s.schedule = Turn.host (.write size (s.build.pseBase + off) v) :: rest →
      ∀ f, s.hostWrite size off v = .error f → step s = .fault f) ∧
    (s.schedule = Turn.host (.read size (s.build.pseBase + off)) :: rest →
      ∀ d, s.hostRead size off = .ok d → step s = .next { s with schedule := rest, hostData := some d }) ∧
    (s.schedule = Turn.host (.read size (s.build.pseBase + off)) :: rest →
      ∀ f, s.hostRead size off = .error f → step s = .fault f)

/-- R46, R302: where a turn does not complete, its mark is set and nothing else changes; a marked state takes no further step. -/
def Obligations.MarkedStatesAreQuiescent : Prop :=
  (∀ (s : State) (f : Fault), step s = .fault f → advance s = { s with faultMark := some f }) ∧
  (∀ (s : State) (r : Refusal), step s = .refused r → advance s = { s with refusalMark := some r }) ∧
  (∀ s : State, ¬s.unmarked → advance s = s ∧ ∀ t, step s ≠ .next t)

/-- R350, R126: with fairness built in, a pending command does not stay pending: once every turn of the schedule and one engine turn have completed, nothing is pending. -/
def Obligations.EngineStepHappens : Prop :=
  ∀ s t : State, s.unmarked → runTurns (s.schedule.length + 1) s = .next t → t.final

/-! ### Reset -/

/-- R340, R20: the state after power-on reset, whatever the parameters; it is the start state, and a power-on turn sets it. That the turn keeps the turns still to come and the parameters is the model's choice (log entries 3 and 17). -/
def Obligations.PowerOnState : Prop :=
  (∃ b, State.reset = State.powerOn b) ∧
  ∀ b : Build, let s := State.powerOn b
    (∀ r : Reg, s.readReg r = if r = .id then 0x50534531 else 0) ∧
    s.ctrl = ⟨false, false⟩ ∧ s.status = ⟨false, false, false, false, .none⟩ ∧
    s.irq = false ∧ (∀ a, s.secBuf.get a = none) ∧ s.outBuf = [] ∧ s.unmarked ∧
    (∀ (u : State) (rest : List Turn), u.unmarked → u.build = b → u.schedule = Turn.powerOn :: rest →
      step u = .next { s with schedule := rest })

/-- R26, R341: a CTRL write with bit 31 = 1 sets every register to its reset value, drops a pending command, and keeps SECBUF, OUTBUF and their marks, whatever BUSY is. -/
def Obligations.SoftResetKeepsBuffers : Prop :=
  ∀ (s : State) (v : Word), v.getLsbD 31 = true →
    ∃ t, s.hostWrite .b32 0x004 v = .ok t ∧
      (∀ r : Reg, t.readReg r = (State.powerOn s.build).readReg r) ∧
      t.ctrl = ⟨false, false⟩ ∧ t.status = ⟨false, false, false, false, .none⟩ ∧
      (∀ a, t.secBuf.get a = s.secBuf.get a) ∧ t.outBuf = s.outBuf ∧ t.engineTurn = .next t

/-! ### The host's accesses -/

/-- R120: a CMD write while BUSY = 0 stores the word and starts it, without a check of the word; every other field is unchanged. -/
def Obligations.CmdWriteStartsCommand : Prop :=
  ∀ (s : State) (v : Word), s.status.busy = false →
    s.hostWrite .b32 0x010 v = .ok { s with
      cmd := v
      status := { s.status with busy := true, done := false, err := false, errCode := .none }
      errInfo := 0 }

/-- R25 (bit 31 = 0), R35: while idle a CTRL write sets CLONE and IE from bits 0 and 1, and an ARG0 or ARG1 write stores all 32 bits; nothing else changes. -/
def Obligations.IdleWritesOfCtrlAndArgs : Prop :=
  ∀ (s : State) (v : Word), s.status.busy = false →
    (v.getLsbD 31 = false →
      s.hostWrite .b32 0x004 v = .ok { s with ctrl := ⟨v.getLsbD 0, v.getLsbD 1⟩ }) ∧
    s.hostWrite .b32 0x014 v = .ok { s with arg0 := v } ∧
    s.hostWrite .b32 0x018 v = .ok { s with arg1 := v }

/-- R31: a STATUS write clears DONE, ERR and OVR where bits 1, 2 and 3 of the value are 1, whatever BUSY is; ERRCODE and ERRINFO stay. -/
def Obligations.StatusWriteClearsFlags : Prop :=
  ∀ (s : State) (v : Word),
    ∃ t, s.hostWrite .b32 0x008 v = .ok t ∧
      t = { s with status := t.status } ∧
      t.status.busy = s.status.busy ∧ t.status.errCode = s.status.errCode ∧
      t.status.done = (if v.getLsbD 1 then false else s.status.done) ∧
      t.status.err = (if v.getLsbD 2 then false else s.status.err) ∧
      t.status.ovr = (if v.getLsbD 3 then false else s.status.ovr)

/-- R23, R25, R29, R301: what the registers read as: CTRL its two bits and zeros, STATUS its five fields and zeros with ERRCODE by its number, and the others their values. -/
def Obligations.RegisterReads : Prop :=
  (∀ (s : State) (c : ErrCode) (n : Byte),
    (c, n) ∈ [(ErrCode.none, (0x00 : Byte)), (.illegalCmd, 0x01), (.outOfBounds, 0x02), (.badSectionLength, 0x03),
      (.readOnly, 0x04), (.noCrcTrailer, 0x05), (.huffTruncated, 0x06), (.huffBadCode, 0x07), (.outOverflow, 0x08),
      (.unsupportedCharset, 0x09), (.textTruncated, 0x0A), (.badBufLen, 0x0B)] →
    s.status.errCode = c → (s.readReg .status).extractLsb' 8 8 = n) ∧
  ∀ s : State,
    (∀ k, (s.readReg .ctrl).getLsbD k =
      if k = 0 then s.ctrl.clone else if k = 1 then s.ctrl.ie else false) ∧
    (s.readReg .status).getLsbD 0 = s.status.busy ∧ (s.readReg .status).getLsbD 1 = s.status.done ∧
    (s.readReg .status).getLsbD 2 = s.status.err ∧ (s.readReg .status).getLsbD 3 = s.status.ovr ∧
    (s.readReg .status).extractLsb' 4 4 = 0 ∧
    (s.readReg .status).extractLsb' 16 16 = 0 ∧
    s.hostRead .b32 0x000 = .ok 0x50534531 ∧ s.hostRead .b32 0x004 = .ok (s.readReg .ctrl) ∧
    s.hostRead .b32 0x008 = .ok (s.readReg .status) ∧ s.hostRead .b32 0x00C = .ok (s.bufLen.setWidth 32) ∧
    s.hostRead .b32 0x010 = .ok s.cmd ∧ s.hostRead .b32 0x014 = .ok s.arg0 ∧
    s.hostRead .b32 0x018 = .ok s.arg1 ∧ s.hostRead .b32 0x01C = .ok s.res0 ∧
    s.hostRead .b32 0x020 = .ok s.res1 ∧ s.hostRead .b32 0x024 = .ok (s.curPos.setWidth 32) ∧
    s.hostRead .b32 0x028 = .ok (s.outLen.setWidth 32) ∧ s.hostRead .b32 0x02C = .ok s.errInfo

/-- R33: a BUFLEN write while idle stores a value up to 4096 and rejects any other with BAD_BUFLEN and ERRINFO = the value; while BUSY = 1 it only sets OVR. SECBUF and CURPOS never change. -/
def Obligations.BufLenWrite : Prop :=
  ∀ (s : State) (v : Word),
    (s.status.busy = false → v.toNat ≤ 4096 →
      ∃ t, s.hostWrite .b32 0x00C v = .ok t ∧ t = { s with bufLen := t.bufLen } ∧
        t.bufLen.toNat = v.toNat ∧ t.readReg .bufLen = v) ∧
    (s.status.busy = false → 4096 < v.toNat →
      s.hostWrite .b32 0x00C v = .ok { s with
        status := { s.status with done := false, err := true, errCode := .badBufLen }
        errInfo := v }) ∧
    (s.status.busy = true →
      s.hostWrite .b32 0x00C v = .ok { s with status := { s.status with ovr := true } })

/-- R67: while BUSY = 1 a host write to CTRL with bit 31 = 0, BUFLEN, CMD, ARG0, ARG1 or any SECBUF byte sets OVR and does nothing else. -/
def Obligations.BusyDropsHostWrites : Prop :=
  ∀ (s : State) (size : AccessSize) (off : Nat) (v : Word), s.status.busy = true →
    accessLegal size off = true →
    (off = 0x004 ∧ v.getLsbD 31 = false) ∨ off ∈ [0x00C, 0x010, 0x014, 0x018] ∨
      (0x1000 ≤ off ∧ off < 0x2000) →
    s.hostWrite size off v = .ok { s with status := { s.status with ovr := true } }

/-- R24, R36 to R39, R42, R43: host writes to ID, RES0, RES1, CURPOS, OUTLEN, ERRINFO, the reserved offsets and OUTBUF are ignored and set no flag; the reserved offsets read 0. -/
def Obligations.IgnoredHostWrites : Prop :=
  ∀ (s : State) (size : AccessSize) (off : Nat) (v : Word), accessLegal size off = true →
    (off ∈ [0x000, 0x01C, 0x020, 0x024, 0x028, 0x02C] ∨ (0x030 ≤ off ∧ off < 0x1000) ∨ 0x2000 ≤ off →
      s.hostWrite size off v = .ok s) ∧
    (0x030 ≤ off ∧ off < 0x1000 → s.hostRead size off = .ok 0)

/-- R63: an access is accepted iff it is an aligned 32-bit access of a register or a naturally aligned 8, 16 or 32-bit access of a buffer; any other is HOST_BUS_ERROR. -/
def Obligations.BusErrorsExactly : Prop :=
  ∀ (s : State) (size : AccessSize) (off : Nat) (v : Word), off < 0x4000 →
    let ok := (off < 0x1000 ∧ size = .b32 ∧ off % 4 = 0) ∨
      (0x1000 ≤ off ∧ (size = .b8 ∨ (size = .b16 ∧ off % 2 = 0) ∨ (size = .b32 ∧ off % 4 = 0)))
    (ok → ∃ t, s.hostWrite size off v = .ok t) ∧
    (ok → s.hostRead size off ≠ .error (.hostBusError size off)) ∧
    (¬ok → s.hostWrite size off v = .error (.hostBusError size off)) ∧
    (¬ok → s.hostRead size off = .error (.hostBusError size off))

/-- R41, R42, R63: what a host read of OUTBUF returns: entry i at 0x2000 + 2i, its high byte first, and a pair of entries in a 32-bit read; UNDEF_READ in every width where the mark of an entry read is clear (the fault names the first such entry, log entry 14). -/
def Obligations.HostReadsOutBuf : Prop :=
  ∀ (s : State) (i : Nat), i < 4096 →
    (∀ u, s.outBuf[i]? = some u →
      s.hostRead .b16 (0x2000 + 2 * i) = .ok (u.setWidth 32) ∧
      s.hostRead .b8 (0x2000 + 2 * i) = .ok ((u.extractLsb' 8 8).setWidth 32) ∧
      s.hostRead .b8 (0x2001 + 2 * i) = .ok ((u.extractLsb' 0 8).setWidth 32)) ∧
    (∀ u u', i % 2 = 0 → s.outBuf[i]? = some u → s.outBuf[i + 1]? = some u' →
      s.hostRead .b32 (0x2000 + 2 * i) = .ok (u ++ u')) ∧
    (s.outBuf[i]? = none →
      s.hostRead .b16 (0x2000 + 2 * i) = .error (.undefReadOutBuf i) ∧
      s.hostRead .b8 (0x2000 + 2 * i) = .error (.undefReadOutBuf i) ∧
      s.hostRead .b8 (0x2001 + 2 * i) = .error (.undefReadOutBuf i)) ∧
    (i % 2 = 0 → s.outBuf[i]? = none →
      s.hostRead .b32 (0x2000 + 2 * i) = .error (.undefReadOutBuf i)) ∧
    (∀ u, i % 2 = 0 → s.outBuf[i]? = some u → s.outBuf[i + 1]? = none →
      s.hostRead .b32 (0x2000 + 2 * i) = .error (.undefReadOutBuf (i + 1)))

/-- R40, R41, R63: a host write of SECBUF while idle stores its bytes big-endian at the access's offsets and leaves every other byte alone; a read of the same place returns the value. R67, R74: in every state, busy or not and whoever wrote the bytes, a read of each width returns the big-endian value of the bytes that are there, and where one of them was never written it is UNDEF_READ (the fault names the first such byte, log entry 14). -/
def Obligations.HostWritesSecBuf : Prop :=
  (∀ (s : State) (size : AccessSize) (k : Nat) (v : Word), s.status.busy = false → k < 4096 →
    size ≠ .b64 → k % size.bytes = 0 →
    ∃ m, s.hostWrite size (0x1000 + k) v = .ok { s with secBuf := m } ∧
      (∀ j, j < size.bytes → m.get (k + j) = some (v.extractLsb' (8 * (size.bytes - 1 - j)) 8)) ∧
      (∀ a, a < k ∨ k + size.bytes ≤ a → m.get a = s.secBuf.get a) ∧
      State.hostRead { s with secBuf := m } size (0x1000 + k) =
        .ok (BitVec.ofNat 32 (v.toNat % 2 ^ (8 * size.bytes)))) ∧
  (∀ (s : State) (size : AccessSize) (k : Nat), k < 4096 → size ≠ .b64 → k % size.bytes = 0 →
    (∀ bs, bs.length = size.bytes → s.holds k bs →
      s.hostRead size (0x1000 + k) = .ok (BitVec.ofNat 32 (bigEndian bs))) ∧
    (∀ j, j < size.bytes → (∀ l, l < j → (s.secBuf.get (k + l)).isSome = true) → s.secBuf.get (k + j) = none →
      s.hostRead size (0x1000 + k) = .error (.undefReadSecBuf (k + j))))

/-- R45: IRQ = CTRL.IE and (STATUS.DONE or STATUS.ERR), and OVR does not drive it. -/
def Obligations.InterruptLevel : Prop :=
  ∀ s : State, (s.irq = true ↔ s.ctrl.ie = true ∧ (s.status.done = true ∨ s.status.err = true)) ∧
    (∀ b, State.irq { s with status := { s.status with ovr := b } } = s.irq) ∧
    (∀ v, State.irq (s.startCommand v) = false)

/-! ### Results of the commands -/

/-- R127: NOP sets DONE, clears BUSY and writes nothing else. -/
def Obligations.NopWritesNothing : Prop :=
  (∀ s : State, exec .nop s = .next { s with status := doneStatus s.status }) ∧ PlainCommand 0x00 .nop

/-- R141: BYTEAT gives the byte at ARG0; past BUFLEN it is OUT_OF_BOUNDS, and a byte never written is UNDEF_READ. -/
def Obligations.ByteAtResult : Prop :=
  (∀ (s : State) (b : Byte), s.arg0.toNat + 1 ≤ s.bufLen.toNat → s.holds s.arg0.toNat [b] →
    exec .byteAt s = .next { s with res0 := b.setWidth 32, status := doneStatus s.status }) ∧
  (∀ s : State, s.bufLen.toNat < s.arg0.toNat + 1 → FailsWith .byteAt s .outOfBounds s.arg0) ∧
  (∀ s : State, s.arg0.toNat + 1 ≤ s.bufLen.toNat → s.secBuf.get s.arg0.toNat = none →
    exec .byteAt s = .fault (.undefReadSecBuf s.arg0.toNat)) ∧
  PlainCommand 0x01 .byteAt

/-- R142, R143: WORD16AT and WORD32AT give the big-endian value at ARG0, at any offset, and OUT_OF_BOUNDS past BUFLEN. -/
def Obligations.WordReadResults : Prop :=
  (∀ (s : State) (b0 b1 : Byte), s.arg0.toNat + 2 ≤ s.bufLen.toNat → s.holds s.arg0.toNat [b0, b1] →
    exec .word16At s = .next { s with
      res0 := (b0.setWidth 32 <<< 8) ||| b1.setWidth 32, status := doneStatus s.status }) ∧
  (∀ s : State, s.bufLen.toNat < s.arg0.toNat + 2 → FailsWith .word16At s .outOfBounds s.arg0) ∧
  PlainCommand 0x02 .word16At ∧
  (∀ (s : State) (b0 b1 b2 b3 : Byte), s.arg0.toNat + 4 ≤ s.bufLen.toNat →
    s.holds s.arg0.toNat [b0, b1, b2, b3] →
    exec .word32At s = .next { s with
      res0 := (b0.setWidth 32 <<< 24) ||| (b1.setWidth 32 <<< 16) ||| (b2.setWidth 32 <<< 8) ||| b3.setWidth 32
      status := doneStatus s.status }) ∧
  (∀ s : State, s.bufLen.toNat < s.arg0.toNat + 4 → FailsWith .word32At s .outOfBounds s.arg0) ∧
  PlainCommand 0x03 .word32At

/-- R144: SLICEAT, with exact arithmetic; no byte is read. -/
def Obligations.SliceAtResult : Prop :=
  (∀ s : State, s.arg0.toNat + s.arg1.toNat ≤ s.bufLen.toNat →
    exec .sliceAt s = .next { s with res0 := s.arg0, res1 := s.arg1, status := doneStatus s.status }) ∧
  (∀ s : State, s.bufLen.toNat < s.arg0.toNat + s.arg1.toNat → FailsWith .sliceAt s .outOfBounds s.arg0) ∧
  PlainCommand 0x04 .sliceAt

/-- R145: ISCLONE gives 1 exactly when the buffer is owned. -/
def Obligations.IsCloneResult : Prop :=
  (∀ s : State, exec .isClone s = .next { s with
    res0 := if s.ctrl.clone then 1 else 0, status := doneStatus s.status }) ∧ PlainCommand 0x05 .isClone

/-- R146: BITFIELD.w gives the w-bit field at bit address ARG0, for every width 1..32; the other widths are ILLEGAL_CMD. -/
def Obligations.BitFieldResult : Prop :=
  (∀ (s : State) (w : Byte), 1 ≤ w.toNat → w.toNat ≤ 32 → s.arg0.toNat + w.toNat ≤ 8 * s.bufLen.toNat →
    s.fieldWritten s.arg0.toNat w.toNat →
    ∃ v, s.isField s.arg0.toNat w.toNat v ∧
      exec (.bitField w) s = .next { s with res0 := v, status := doneStatus s.status }) ∧
  (∀ (s : State) (w : Byte), 1 ≤ w.toNat → w.toNat ≤ 32 → 8 * s.bufLen.toNat < s.arg0.toNat + w.toNat →
    FailsWith (.bitField w) s .outOfBounds s.arg0) ∧
  WidthCommand 0x06 .bitField

/-- R147: SEEKBIT moves the cursor to any bit address up to 8 * BUFLEN, and reads no byte. -/
def Obligations.SeekBitResult : Prop :=
  (∀ s : State, s.arg0.toNat ≤ 8 * s.bufLen.toNat →
    ∃ p, exec .seekBit s = .next { s with curPos := p, status := doneStatus s.status } ∧
      p.toNat = s.arg0.toNat) ∧
  (∀ s : State, 8 * s.bufLen.toNat < s.arg0.toNat → FailsWith .seekBit s .outOfBounds s.arg0) ∧
  PlainCommand 0x07 .seekBit

/-- R148: READBITS.w gives the w-bit field at CURPOS and advances CURPOS by w; out of bounds it fails with ERRINFO = CURPOS and CURPOS stays. -/
def Obligations.ReadBitsResult : Prop :=
  (∀ (s : State) (w : Byte), 1 ≤ w.toNat → w.toNat ≤ 32 → s.curPos.toNat + w.toNat ≤ 8 * s.bufLen.toNat →
    s.fieldWritten s.curPos.toNat w.toNat →
    ∃ v p, s.isField s.curPos.toNat w.toNat v ∧ p.toNat = s.curPos.toNat + w.toNat ∧
      exec (.readBits w) s = .next { s with res0 := v, curPos := p, status := doneStatus s.status }) ∧
  (∀ (s : State) (w : Byte), 1 ≤ w.toNat → w.toNat ≤ 32 → 8 * s.bufLen.toNat < s.curPos.toNat + w.toNat →
    FailsWith (.readBits w) s .outOfBounds (s.curPos.setWidth 32)) ∧
  WidthCommand 0x08 .readBits

/-- R149: PEEKBITS.w gives the w-bit field at CURPOS, and CURPOS stays. -/
def Obligations.PeekBitsResult : Prop :=
  (∀ (s : State) (w : Byte), 1 ≤ w.toNat → w.toNat ≤ 32 → s.curPos.toNat + w.toNat ≤ 8 * s.bufLen.toNat →
    s.fieldWritten s.curPos.toNat w.toNat →
    ∃ v, s.isField s.curPos.toNat w.toNat v ∧
      exec (.peekBits w) s = .next { s with res0 := v, status := doneStatus s.status }) ∧
  (∀ (s : State) (w : Byte), 1 ≤ w.toNat → w.toNat ≤ 32 → 8 * s.bufLen.toNat < s.curPos.toNat + w.toNat →
    FailsWith (.peekBits w) s .outOfBounds (s.curPos.setWidth 32)) ∧
  WidthCommand 0x09 .peekBits

/-- R175: SECHDR gives L and the packed header, and its errors in order. An L that 32 bits do not hold leaves ERRINFO free (log entry 10). -/
def Obligations.SecHdrResult : Prop :=
  (∀ (s : State) (b0 b1 b2 : Byte), 3 ≤ s.bufLen.toNat → s.holds 0 [b0, b1, b2] →
    (sectionLength s.build b0 b1 b2 ≤ s.bufLen.toNat →
      ∃ h : Nat, ((sectionHasCrc s.build b0 b1 ∧ h = 1) ∨ (¬sectionHasCrc s.build b0 b1 ∧ h = 0)) ∧
        exec .secHdr s = .next { s with
          res0 := BitVec.ofNat 32 (sectionLength s.build b0 b1 b2)
          res1 := BitVec.ofNat 32 (rawLength b1 b2 * 2 ^ 16 + h * 2 ^ 10 + b1.toNat / 64 % 2 * 2 ^ 9
            + b1.toNat / 128 * 2 ^ 8 + b0.toNat)
          status := doneStatus s.status }) ∧
    (s.bufLen.toNat < sectionLength s.build b0 b1 b2 →
      ∃ info, FailsWith .secHdr s .badSectionLength info ∧
        (sectionLength s.build b0 b1 b2 < 2 ^ 32 → info = BitVec.ofNat 32 (sectionLength s.build b0 b1 b2)))) ∧
  (∀ s : State, s.bufLen.toNat < 3 → FailsWith .secHdr s .outOfBounds 0) ∧
  PlainCommand 0x10 .secHdr

/-- R177: HASCRC says whether the section carries a trailer, with no length check. -/
def Obligations.HasCrcResult : Prop :=
  (∀ (s : State) (b0 b1 b2 : Byte), 3 ≤ s.bufLen.toNat → s.holds 0 [b0, b1, b2] →
    (sectionHasCrc s.build b0 b1 → exec .hasCrc s = .next { s with res0 := 1, status := doneStatus s.status }) ∧
    (¬sectionHasCrc s.build b0 b1 → exec .hasCrc s = .next { s with res0 := 0, status := doneStatus s.status })) ∧
  (∀ s : State, s.bufLen.toNat < 3 → FailsWith .hasCrc s .outOfBounds 0) ∧
  PlainCommand 0x11 .hasCrc

/-- R178: CALCCRC gives the CRC of the span, for any span in bounds. -/
def Obligations.CalcCrcResult : Prop :=
  (∀ (s : State) (bs : List Byte), bs.length = s.arg1.toNat → s.arg0.toNat + s.arg1.toNat ≤ s.bufLen.toNat →
    s.holds s.arg0.toNat bs →
    exec .calcCrc s = .next { s with res0 := crcOf bs, status := doneStatus s.status }) ∧
  (∀ s : State, s.bufLen.toNat < s.arg0.toNat + s.arg1.toNat → FailsWith .calcCrc s .outOfBounds s.arg0) ∧
  PlainCommand 0x12 .calcCrc

/-- R171, R6: the CRC in closed form, and its residue. Over GF(2), the CRC of the bytes m is the remainder of x^32 * M(x) + x^(8n) * S(x) by P(x), where M is m read as bits, S the seed 0xFFFFFFFF, P is x^32 + 0x04C11DB7, and each value is read most significant bit first; the CRC of m followed by the big-endian bytes of t is 0 if and only if t is the CRC of m. -/
def Obligations.CrcResidue : Prop :=
  (∀ m : List Byte,
    let poly : List Bool → Polynomial (ZMod 2) :=
      fun bs => bs.foldl (fun p b => p * Polynomial.X + if b then 1 else 0) 0
    poly (msbFirst (crcOf m)) = Polynomial.modByMonic
      (Polynomial.X ^ 32 * poly (m.flatMap msbFirst) +
        Polynomial.X ^ (8 * m.length) * poly (msbFirst (0xFFFFFFFF : Word)))
      (Polynomial.X ^ 32 + poly (msbFirst (0x04C11DB7 : Word)))) ∧
  (∀ (m : List Byte) (t : Word), crcOf (m ++ wordBytes t) = 0 ↔ t = crcOf m)

/-- R176: VERIFYCRC. Without a trailer it is true with no length check; with one, RES0 says whether the CRC of the bytes before the trailer equals it, and RES1 is that CRC. -/
def Obligations.VerifyCrcResult : Prop :=
  (∀ (s : State) (b0 b1 b2 : Byte), 3 ≤ s.bufLen.toNat → s.holds 0 [b0, b1, b2] →
    ¬sectionHasCrc s.build b0 b1 →
    exec .verifyCrc s = .next { s with res0 := 1, res1 := 0, status := doneStatus s.status }) ∧
  (∀ (s : State) (body : List Byte) (t : Word) (b0 b1 b2 : Byte), 3 ≤ s.bufLen.toNat →
    s.holds 0 [b0, b1, b2] → s.holds 0 (body ++ wordBytes t) → sectionHasCrc s.build b0 b1 →
    sectionLength s.build b0 b1 b2 = body.length + 4 → body.length + 4 ≤ s.bufLen.toNat →
    exec .verifyCrc s = .next { s with
      res0 := if crcOf body = t then 1 else 0, res1 := crcOf body, status := doneStatus s.status }) ∧
  (∀ (s : State) (b0 b1 b2 : Byte), 3 ≤ s.bufLen.toNat → s.holds 0 [b0, b1, b2] →
    sectionHasCrc s.build b0 b1 →
    s.bufLen.toNat < sectionLength s.build b0 b1 b2 ∨ sectionLength s.build b0 b1 b2 < 4 →
    ∃ info, FailsWith .verifyCrc s .badSectionLength info ∧
      (sectionLength s.build b0 b1 b2 < 2 ^ 32 → info = BitVec.ofNat 32 (sectionLength s.build b0 b1 b2))) ∧
  (∀ s : State, s.bufLen.toNat < 3 → FailsWith .verifyCrc s .outOfBounds 0) ∧
  PlainCommand 0x13 .verifyCrc

/-- R179: SECCRC gives the CRC of the section without its trailer, whose bytes need not be written. -/
def Obligations.SecCrcResult : Prop :=
  (∀ (s : State) (body : List Byte) (b0 b1 b2 : Byte), 3 ≤ s.bufLen.toNat → s.holds 0 [b0, b1, b2] →
    s.holds 0 body → sectionHasCrc s.build b0 b1 →
    sectionLength s.build b0 b1 b2 = body.length + 4 → body.length + 4 ≤ s.bufLen.toNat →
    exec .secCrc s = .next { s with res0 := crcOf body, status := doneStatus s.status }) ∧
  (∀ (s : State) (b0 b1 b2 : Byte), 3 ≤ s.bufLen.toNat → s.holds 0 [b0, b1, b2] →
    (¬sectionHasCrc s.build b0 b1 → FailsWith .secCrc s .noCrcTrailer (b0.setWidth 32)) ∧
    (sectionHasCrc s.build b0 b1 →
      s.bufLen.toNat < sectionLength s.build b0 b1 b2 ∨ sectionLength s.build b0 b1 b2 < 4 →
      ∃ info, FailsWith .secCrc s .badSectionLength info ∧
        (sectionLength s.build b0 b1 b2 < 2 ^ 32 → info = BitVec.ofNat 32 (sectionLength s.build b0 b1 b2)))) ∧
  (∀ s : State, s.bufLen.toNat < 3 → FailsWith .secCrc s .outOfBounds 0) ∧
  PlainCommand 0x14 .secCrc

/-- R180: SETCRC writes ARG0 big-endian over the four trailer bytes of an owned section with L >= 7, and no other byte; its errors come in the order READ_ONLY, OUT_OF_BOUNDS, NO_CRC_TRAILER, BAD_SECTION_LENGTH. -/
def Obligations.SetCrcResult : Prop :=
  (∀ (s : State) (b0 b1 b2 : Byte), s.ctrl.clone = true → 3 ≤ s.bufLen.toNat → s.holds 0 [b0, b1, b2] →
    sectionHasCrc s.build b0 b1 → 7 ≤ sectionLength s.build b0 b1 b2 →
    sectionLength s.build b0 b1 b2 ≤ s.bufLen.toNat →
    ∃ m, exec .setCrc s = .next { s with secBuf := m, status := doneStatus s.status } ∧
      State.holds { s with secBuf := m } (sectionLength s.build b0 b1 b2 - 4) (wordBytes s.arg0) ∧
      (∀ a, a < sectionLength s.build b0 b1 b2 - 4 ∨ sectionLength s.build b0 b1 b2 ≤ a →
        m.get a = s.secBuf.get a)) ∧
  (∀ s : State, s.ctrl.clone = false → FailsWith .setCrc s .readOnly 0) ∧
  (∀ s : State, s.ctrl.clone = true → s.bufLen.toNat < 3 → FailsWith .setCrc s .outOfBounds 0) ∧
  (∀ (s : State) (b0 b1 b2 : Byte), s.ctrl.clone = true → 3 ≤ s.bufLen.toNat → s.holds 0 [b0, b1, b2] →
    (¬sectionHasCrc s.build b0 b1 → FailsWith .setCrc s .noCrcTrailer (b0.setWidth 32)) ∧
    (sectionHasCrc s.build b0 b1 →
      s.bufLen.toNat < sectionLength s.build b0 b1 b2 ∨ sectionLength s.build b0 b1 b2 < 7 →
      ∃ info, FailsWith .setCrc s .badSectionLength info ∧
        (sectionLength s.build b0 b1 b2 < 2 ^ 32 → info = BitVec.ofNat 32 (sectionLength s.build b0 b1 b2)))) ∧
  PlainCommand 0x15 .setCrc

/-- R203 (success), for HUFFDEC.C5 and HUFFDEC.C7: where the span begins with the code words and literals of the characters `out` and then a code word of HUFF_END, the command gives exactly those characters, their number, and the bits consumed, END included; whatever follows is not decoded. -/
def Obligations.HuffDecResult : Prop :=
  ∀ (s : State) (t : CodeTable) (bs w : List Bool) (out : List Half) (c : Symbol),
    huffOk s.build = true → s.arg0.toNat + s.arg1.toNat ≤ s.bufLen.toNat →
    Chars s.build t s.build.huffCtxStart bs out c → ⟨w, s.build.huffEnd⟩ ∈ huffCode s.build t c →
    s.holdsBits (8 * s.arg0.toNat) (bs ++ w) → (bs ++ w).length ≤ 8 * s.arg1.toNat →
    out.length ≤ 4096 →
    exec (huffDec t) s = .next { s with
      outBuf := out, outLen := BitVec.ofNat 13 out.length
      res0 := BitVec.ofNat 32 out.length, res1 := BitVec.ofNat 32 (bs ++ w).length
      status := doneStatus s.status }

/-- R203 (errors): OUT_OF_BOUNDS of the span; HUFF_TRUNCATED at the end of the span, between code words, inside one, or in a literal; HUFF_BAD_CODE at the start of the code word that is none; OUT_OVERFLOW on the 4097th character. -/
def Obligations.HuffDecErrors : Prop :=
  (∀ (s : State) (t : CodeTable), huffOk s.build = true → s.bufLen.toNat < s.arg0.toNat + s.arg1.toNat →
    StringFailsWith (huffDec t) s .outOfBounds s.arg0) ∧
  (∀ (s : State) (t : CodeTable) (bs w : List Bool) (out : List Half) (c : Symbol),
    huffOk s.build = true → s.arg0.toNat + s.arg1.toNat ≤ s.bufLen.toNat →
    Chars s.build t s.build.huffCtxStart bs out c → s.holdsBits (8 * s.arg0.toNat) (bs ++ w) →
    out.length ≤ 4096 →
    ((w = [] ∨ extendsToWord (huffCode s.build t c) w = true) → (bs ++ w).length = 8 * s.arg1.toNat →
      StringFailsWith (huffDec t) s .huffTruncated (BitVec.ofNat 32 (8 * s.arg1.toNat))) ∧
    (⟨w, s.build.huffEsc⟩ ∈ huffCode s.build t c → (bs ++ w).length ≤ 8 * s.arg1.toNat →
      8 * s.arg1.toNat < (bs ++ w).length + s.build.huffLitBits →
      StringFailsWith (huffDec t) s .huffTruncated (BitVec.ofNat 32 (bs ++ w).length)) ∧
    (∀ b, w = w.dropLast ++ [b] → (bs ++ w).length ≤ 8 * s.arg1.toNat →
      (w.dropLast = [] ∨ extendsToWord (huffCode s.build t c) w.dropLast = true) →
      lookupWord (huffCode s.build t c) w = none → extendsToWord (huffCode s.build t c) w = false →
      StringFailsWith (huffDec t) s .huffBadCode (BitVec.ofNat 32 bs.length))) ∧
  (∀ (s : State) (t : CodeTable) (bs : List Bool) (out : List Half) (c : Symbol),
    huffOk s.build = true → s.arg0.toNat + s.arg1.toNat ≤ s.bufLen.toNat →
    Chars s.build t s.build.huffCtxStart bs out c → s.holdsBits (8 * s.arg0.toNat) bs →
    bs.length ≤ 8 * s.arg1.toNat → out.length = 4097 →
    StringFailsWith (huffDec t) s .outOverflow 4096)

/-- R201: in a machine whose codes hold a proper prefix of a code word, or whose HUFF_END and HUFF_ESC are equal, every HUFFDEC is refused. -/
def Obligations.IllFormedCodesAreRefused : Prop :=
  ∀ (s : State) (t : CodeTable),
    (s.build.huffEnd = s.build.huffEsc ∨
      ∃ (t' : CodeTable) (c : Symbol) (a b : CodeWord), a ∈ huffCode s.build t' c ∧ b ∈ huffCode s.build t' c ∧
        a.bits <+: b.bits ∧ a.bits ≠ b.bits) →
    exec (huffDec t) s = .refused .huffCodeIllFormed

/-- R208: over written bytes HUFFDEC always ends: with a success, HUFF_TRUNCATED, HUFF_BAD_CODE or OUT_OVERFLOW. -/
def Obligations.HuffDecEnds : Prop :=
  ∀ (s : State) (t : CodeTable), huffOk s.build = true → s.status.err = false →
    s.arg0.toNat + s.arg1.toNat ≤ s.bufLen.toNat →
    (∀ k, k < s.arg1.toNat → (s.secBuf.get (s.arg0.toNat + k)).isSome = true) →
    Completes (exec (huffDec t) s) fun u =>
      (u.status.done = true ∧ u.status.err = false) ∨
      (u.status.err = true ∧ u.status.errCode ∈ [ErrCode.huffTruncated, ErrCode.huffBadCode, ErrCode.outOverflow])

/-- R205: the pad bits after END do not matter: a successful HUFFDEC gives the same results over any SECBUF that agrees on the bits it consumed. -/
def Obligations.HuffDecIgnoresPadBits : Prop :=
  ∀ (s u : State) (t : CodeTable) (m : Memory),
    exec (huffDec t) s = .next u → u.status.err = false →
    (∀ q, q < u.res1.toNat → m.bit (8 * s.arg0.toNat + q) = s.secBuf.bit (8 * s.arg0.toNat + q)) →
    exec (huffDec t) { s with secBuf := m } = .next { u with secBuf := m }

/-- R231, R232 (success): DVBTEXT of a text with the encoding and characters of R231's table gives, in order, the units its characters map to (R233 for a single-byte table, R234 for UCS-2), their number, and the encoding; the empty span is the default table with no characters. -/
def Obligations.DvbTextResult : Prop :=
  (∀ s : State, s.arg1.toNat = 0 → s.arg0.toNat ≤ s.bufLen.toNat →
    exec .dvbText s = .next { s with
      outBuf := [], outLen := 0, res0 := 0
      res1 := BitVec.ofNat 32 (isoNumber s.build.dvbDefault), status := doneStatus s.status }) ∧
  (∀ (s : State) (span chars : List Byte) (p : IsoPart) (us : List (Option Half)),
    s.bufLen.toNat ≤ 4096 → s.arg0.toNat + s.arg1.toNat ≤ s.bufLen.toNat → span.length = s.arg1.toNat →
    s.holds s.arg0.toNat span → Selects s.build span (.iso p) chars →
    chars.map (mapByte s.build.iso8859 p) = us.map .ok →
    exec .dvbText s = .next { s with
      outBuf := us.reduceOption, outLen := BitVec.ofNat 13 us.reduceOption.length
      res0 := BitVec.ofNat 32 us.reduceOption.length
      res1 := BitVec.ofNat 32 (isoNumber p), status := doneStatus s.status }) ∧
  (∀ (s : State) (span : List Byte) (units : List Half),
    s.bufLen.toNat ≤ 4096 → s.arg0.toNat + s.arg1.toNat ≤ s.bufLen.toNat → span.length = s.arg1.toNat →
    s.holds s.arg0.toNat span →
    Selects s.build span .ucs2 (units.flatMap fun u => [u.extractLsb' 8 8, u.extractLsb' 0 8]) →
    exec .dvbText s = .next { s with
      outBuf := units.filterMap mapUnit, outLen := BitVec.ofNat 13 (units.filterMap mapUnit).length
      res0 := BitVec.ofNat 32 (units.filterMap mapUnit).length
      res1 := 0x100, status := doneStatus s.status })

/-- R231, R232, R303 (errors): the span out of bounds; selectors without a table; a cut three-byte form; an odd number of UCS-2 bytes. Each needs the selector's own bytes only: b0, and b1 and b2 for a three-byte form that is not cut; whatever lies behind them, written or not, the error is the same. -/
def Obligations.DvbTextErrors : Prop :=
  (∀ s : State, s.bufLen.toNat < s.arg0.toNat + s.arg1.toNat → StringFailsWith .dvbText s .outOfBounds s.arg0) ∧
  (∀ (s : State) (b0 : Byte), s.arg0.toNat + s.arg1.toNat ≤ s.bufLen.toNat → 1 ≤ s.arg1.toNat →
    s.holds s.arg0.toNat [b0] →
    (b0.toNat = 0 ∨ b0.toNat = 8 ∨ (0x0C ≤ b0.toNat ∧ b0.toNat ≤ 0x0F) ∨ (0x12 ≤ b0.toNat ∧ b0.toNat ≤ 0x1F) →
      StringFailsWith .dvbText s .unsupportedCharset (b0.setWidth 32)) ∧
    (b0 = 0x10 → s.arg1.toNat < 3 → StringFailsWith .dvbText s .textTruncated s.arg1) ∧
    (∀ b1 b2 : Byte, b0 = 0x10 → 3 ≤ s.arg1.toNat → s.holds s.arg0.toNat [b0, b1, b2] →
      b1 ≠ 0 ∨ b2.toNat = 0 ∨ b2.toNat = 12 ∨ 15 < b2.toNat →
      StringFailsWith .dvbText s .unsupportedCharset
        (BitVec.ofNat 32 (0x100000 + b1.toNat * 256 + b2.toNat))) ∧
    (b0 = 0x11 → (s.arg1.toNat - 1) % 2 = 1 → StringFailsWith .dvbText s .textTruncated s.arg1))

/-- R233, R234: the two mappings of text, case by case. -/
def Obligations.TextMappings : Prop :=
  (∀ (tb : IsoTables) (p : IsoPart) (c : Byte),
    (c.toNat ≤ 0x7F → mapByte tb p c = .ok (some (c.setWidth 16))) ∧
    (c = 0x8A → mapByte tb p c = .ok (some 0x000A)) ∧
    (0x80 ≤ c.toNat → c.toNat ≤ 0x9F → c ≠ 0x8A → mapByte tb p c = .ok none) ∧
    (∀ tab, isoTable tb p = some tab → ∀ k : Fin 96, c.toNat = 0xA0 + k.val → mapByte tb p c = .ok (some tab[k]))) ∧
  (∀ u : Half,
    (u = 0xE08A → mapUnit u = some 0x000A) ∧
    (0xE080 ≤ u.toNat → u.toNat ≤ 0xE09F → u ≠ 0xE08A → mapUnit u = none) ∧
    (u.toNat < 0xE080 ∨ 0xE09F < u.toNat → mapUnit u = some u))

/-! ### The whole machine -/

/-- Every register, buffer and mark the spec lets no command touch is unchanged by every command that completes: CTRL, BUFLEN, CMD, ARG0, ARG1, OVR, the parameters, the turns to come, and the marks (R35, R122, R123, R345, R47). -/
def Obligations.CommandFrame : Prop :=
  ∀ (i : Instr) (s t : State), exec i s = .next t →
    t.ctrl = s.ctrl ∧ t.bufLen = s.bufLen ∧ t.cmd = s.cmd ∧ t.arg0 = s.arg0 ∧ t.arg1 = s.arg1 ∧
    t.status.ovr = s.status.ovr ∧ t.status.busy = false ∧ (t.status.done = true ∨ t.status.err = true) ∧
    t.build = s.build ∧ t.schedule = s.schedule ∧ t.hostData = s.hostData ∧
    t.faultMark = s.faultMark ∧ t.refusalMark = s.refusalMark

/-- R36 to R38, R150, R183, R207, R236: the result registers change only in the commands that name them. -/
def Obligations.ResultRegisterFrame : Prop :=
  ∀ (i : Instr) (s t : State), exec i s = .next t →
    (i ∈ [.nop, .seekBit, .setCrc] → t.res0 = s.res0) ∧
    (i ∉ [.sliceAt, .secHdr, .verifyCrc, .huffDecC5, .huffDecC7, .dvbText] → t.res1 = s.res1) ∧
    (i ≠ .seekBit → (∀ w, i ≠ .readBits w) → t.curPos = s.curPos) ∧
    (i ∉ [.huffDecC5, .huffDecC7, .dvbText] → t.outLen = s.outLen ∧ t.outBuf = s.outBuf)

/-- R40, R150, R180, R183: the frame of SECBUF. Every command but SETCRC leaves every byte and mark as it was; SETCRC, where its trailer offset is found, writes ARG0 to the four bytes there and leaves every other byte, and where it is not, leaves all. -/
def Obligations.SecBufFrame : Prop :=
  ∀ (i : Instr) (s t : State), exec i s = .next t →
    (i ≠ .setCrc → ∀ a, t.secBuf.get a = s.secBuf.get a) ∧
    (i = .setCrc →
      (∀ off, s.trailerOffset = .ok off →
        (∀ a, a < off ∨ off + 4 ≤ a → t.secBuf.get a = s.secBuf.get a) ∧ t.holds off (wordBytes s.arg0)) ∧
      ((∀ off, s.trailerOffset ≠ .ok off) → ∀ a, t.secBuf.get a = s.secBuf.get a))

/-- R123, R124, R300: a failed command has no partial effect: only STATUS and ERRINFO change, and for a string command OUTLEN becomes 0 and every written mark of OUTBUF is cleared, so that a host read of any entry is UNDEF_READ. -/
def Obligations.FailedCommandsArePrecise : Prop :=
  ∀ (i : Instr) (s t : State), s.status.err = false → exec i s = .next t → t.status.err = true →
    t.status = errStatus s.status t.status.errCode ∧
    (i ∉ [.huffDecC5, .huffDecC7, .dvbText] → t = { s with status := t.status, errInfo := t.errInfo }) ∧
    (i ∈ [.huffDecC5, .huffDecC7, .dvbText] →
      t = { s with status := t.status, errInfo := t.errInfo, outLen := 0, outBuf := t.outBuf } ∧
      ∀ k, t.outByte k = .error (.undefReadOutBuf (k / 2)))

/-- R41, R65, R302, R303: where a command stops, exactly. It stops with a fault if and only if it reads in bounds a byte that was never written before any other cause ends it (`State.readsUnwritten` says for each command which bytes it reads, and when), and the fault names an unwritten byte below BUFLEN (log entry 14). It is refused if and only if it is a HUFFDEC of a machine whose Huffman parameters have no meaning (R201, and the readings of it of log entry 12), or a DVBTEXT that needs the absent table of part 12 (log entry 13). -/
def Obligations.CommandStopsExactly : Prop :=
  (∀ (i : Instr) (s : State) (f : Fault), exec i s = .fault f →
    ∃ off, off < s.bufLen.toNat ∧ s.secBuf.get off = none ∧ f = .undefReadSecBuf off) ∧
  (∀ (i : Instr) (s : State) (r : Refusal), exec i s = .refused r →
    (i ∈ [.huffDecC5, .huffDecC7] ∧ r = .huffCodeIllFormed ∧ huffOk s.build = false) ∨
    (i = .dvbText ∧ r = .isoTableAbsent .p12 ∧ s.build.dvbDefault = .p12)) ∧
  (∀ (i : Instr) (s : State), s.bufLen.toNat ≤ 4096 →
    ((∃ f, exec i s = .fault f) ↔ s.readsUnwritten i)) ∧
  (∀ (i : Instr) (s : State) (r : Refusal), s.bufLen.toNat ≤ 4096 →
    (exec i s = .refused r ↔
      (i ∈ [.huffDecC5, .huffDecC7] ∧ r = .huffCodeIllFormed ∧ huffOk s.build = false) ∨
      (i = .dvbText ∧ r = .isoTableAbsent .p12 ∧ s.textWithoutTable)))

/-- R151: the byte and bit views agree: BYTEAT, WORD16AT and WORD32AT at off answer RES0 as BITFIELD.8, .16 and .32 at bit address 8 * off, and each side fails exactly when the other does. -/
def Obligations.ByteAndBitViewsAgree : Prop :=
  ∀ (s : State) (p : Word), p.toNat = 8 * s.arg0.toNat →
    ∀ (i : Instr) (w : Byte), (i, w) ∈ [(Instr.byteAt, (8 : Byte)), (.word16At, 16), (.word32At, 32)] →
      (∀ t, exec i s = .next t → t.status.err = false →
        exec (.bitField w) { s with arg0 := p } = .next { t with arg0 := p }) ∧
      (s.bufLen.toNat < s.arg0.toNat + w.toNat / 8 →
        FailsWith i s .outOfBounds s.arg0 ∧ FailsWith (.bitField w) { s with arg0 := p } .outOfBounds p) ∧
      (∀ f, exec i s = .fault f ↔ exec (.bitField w) { s with arg0 := p } = .fault f)

/-- R148 (corner case): READBITS.w and then READBITS.v read the same bits as one BITFIELD.(w+v) at the same place. -/
def Obligations.ReadBitsSplit : Prop :=
  ∀ (s t u : State) (w v x : Byte) (p : Word), 1 ≤ w.toNat → 1 ≤ v.toNat → x.toNat = w.toNat + v.toNat →
    x.toNat ≤ 32 → p.toNat = s.curPos.toNat →
    exec (.readBits w) s = .next t → t.status.err = false →
    exec (.readBits v) t = .next u → u.status.err = false →
    exec (.bitField x) { s with arg0 := p } = .next { s with
      arg0 := p, res0 := BitVec.ofNat 32 (t.res0.toNat * 2 ^ v.toNat + u.res0.toNat)
      status := doneStatus s.status }

/-- R149 (corner cases): PEEKBITS.w then READBITS.w gives the same RES0 twice, and PEEKBITS.w at CURPOS = p equals BITFIELD.w at p. -/
def Obligations.PeekAgreesWithReadAndField : Prop :=
  ∀ (s t : State) (w : Byte), exec (.peekBits w) s = .next t → t.status.err = false →
    (∃ u, exec (.readBits w) t = .next u ∧ u.res0 = t.res0 ∧ u.curPos.toNat = t.curPos.toNat + w.toNat) ∧
    (∀ p : Word, p.toNat = s.curPos.toNat →
      exec (.bitField w) { s with arg0 := p } = .next { t with arg0 := p })

/-- R181: the round trip: where SECCRC of an owned section with L >= 7 gives c, SETCRC c succeeds, and a following VERIFYCRC gives RES0 = 1. -/
def Obligations.SealThenVerify : Prop :=
  ∀ (s t : State) (b0 b1 b2 : Byte), s.ctrl.clone = true → s.holds 0 [b0, b1, b2] →
    7 ≤ sectionLength s.build b0 b1 b2 → exec .secCrc s = .next t → t.status.err = false →
    Completes (exec .setCrc { t with arg0 := t.res0 }) fun u =>
      u.status.err = false ∧ Completes (exec .verifyCrc u) fun v => v.status.err = false ∧ v.res0 = 1

/-- R182: for a section with a trailer and 4 <= L <= BUFLEN, VERIFYCRC gives RES0 = 1 if and only if CALCCRC(0, L) gives 0. -/
def Obligations.ResidueCheck : Prop :=
  ∀ (s : State) (b0 b1 b2 : Byte) (n : Word), 3 ≤ s.bufLen.toNat → s.holds 0 [b0, b1, b2] →
    sectionHasCrc s.build b0 b1 → 4 ≤ sectionLength s.build b0 b1 b2 →
    sectionLength s.build b0 b1 b2 ≤ s.bufLen.toNat → n.toNat = sectionLength s.build b0 b1 b2 →
    (∀ a, a < sectionLength s.build b0 b1 b2 → (s.secBuf.get a).isSome = true) →
    ∃ t u, exec .verifyCrc s = .next t ∧ exec .calcCrc { s with arg0 := 0, arg1 := n } = .next u ∧
      (t.res0 = 1 ↔ u.res0 = 0)

/-- R121, R71, R40, R207, R236: what a command does is a function of CMD, ARG0, ARG1, CLONE, BUFLEN, CURPOS, SECBUF below BUFLEN and the parameters. From two states that agree on these, whatever else they hold (STATUS, IE, RES0, RES1, OUTLEN, OUTBUF, ERRINFO, the bytes at and above BUFLEN, the model's own fields), it stops alike, succeeds with the same writes, or fails with the same code and information. The same writes: each register or buffer is given the same value in both or left in both, SECBUF below BUFLEN ends the same, and above it is left. -/
def Obligations.ExecReadsOnlyItsInputs : Prop :=
  ∀ (i : Instr) (s s' : State),
    s'.cmd = s.cmd → s'.arg0 = s.arg0 → s'.arg1 = s.arg1 → s'.ctrl.clone = s.ctrl.clone →
    s'.bufLen = s.bufLen → s'.curPos = s.curPos → s'.build = s.build →
    (∀ a, a < s.bufLen.toNat → s'.secBuf.get a = s.secBuf.get a) →
    (∀ f, exec i s = .fault f ↔ exec i s' = .fault f) ∧
    (∀ r, exec i s = .refused r ↔ exec i s' = .refused r) ∧
    (∀ t, exec i s = .next t →
      (∃ (w : Writes) (m m' : Memory),
        t = { s with
          res0 := w.res0.getD s.res0, res1 := w.res1.getD s.res1, curPos := w.curPos.getD s.curPos
          outBuf := w.out.getD s.outBuf, outLen := (w.out.map fun u => BitVec.ofNat 13 u.length).getD s.outLen
          secBuf := m, status := doneStatus s.status } ∧
        exec i s' = .next { s' with
          res0 := w.res0.getD s'.res0, res1 := w.res1.getD s'.res1, curPos := w.curPos.getD s'.curPos
          outBuf := w.out.getD s'.outBuf, outLen := (w.out.map fun u => BitVec.ofNat 13 u.length).getD s'.outLen
          secBuf := m', status := doneStatus s'.status } ∧
        (∀ a, a < s.bufLen.toNat → m'.get a = m.get a) ∧
        (∀ a, s.bufLen.toNat ≤ a → m.get a = s.secBuf.get a ∧ m'.get a = s'.secBuf.get a)) ∨
      (i ∉ [.huffDecC5, .huffDecC7, .dvbText] ∧ ∃ c info, FailsWith i s c info ∧ FailsWith i s' c info) ∨
      (i ∈ [.huffDecC5, .huffDecC7, .dvbText] ∧ ∃ c info, StringFailsWith i s c info ∧ StringFailsWith i s' c info))

/-- R44, R67, R71: while a command is pending, any number of host accesses, none of them a soft reset, leave every input and every result register of it unchanged. -/
def Obligations.PendingInputsAreLatched : Prop :=
  ∀ (l : List HostAccess) (s u : State), s.unmarked → s.status.busy = true →
    (∀ v, HostAccess.write .b32 (s.build.pseBase + 4) v ∈ l → v.getLsbD 31 = false) →
    runTurns l.length { s with schedule := l.map Turn.host } = .next u →
    u = { s with schedule := [], hostData := u.hostData, status :=
      { s.status with done := u.status.done, err := u.status.err, ovr := u.status.ovr } }

/-- R8, R47: no step changes a parameter. -/
def Obligations.ParametersNeverChange : Prop :=
  ∀ s t : State, step s = .next t → t.build = s.build

/-- The invariant holds after power-on reset, whatever the parameters and the turns to come. -/
def Obligations.PowerOnIsLawful : Prop :=
  ∀ (b : Build) (l : List Turn), Inv { State.powerOn b with schedule := l }

/-- Every step keeps the invariant: the canonical form of SECBUF, the ranges of BUFLEN, CURPOS, OUTLEN and OUTBUF, DONE and ERR never both 1 (R304), and the error record (R32, R301). -/
def Obligations.StepKeepsInv : Prop :=
  ∀ s t : State, Inv s → step s = .next t → Inv t
end

