-- ==== Sys2Proof/Laws/PerInstr.lean ====
section
/-! SUPPORT. One lemma for each command as syntax: where the encoder puts its opcode and modifier (R90, R93). -/

namespace Sys2Proof

/-- OP of a word of format CW (R90). -/
theorem opField_commandWord (op m : Byte) : opField (commandWord op m) = op := by
  apply BitVec.eq_of_getLsbD_eq
  intro i hi
  simp only [opField, commandWord, BitVec.getLsbD_extractLsb', BitVec.getLsbD_append]
  simp [hi]

/-- M of a word of format CW (R90). -/
theorem mField_commandWord (op m : Byte) : mField (commandWord op m) = m := by
  apply BitVec.eq_of_getLsbD_eq
  intro i hi
  simp only [mField, commandWord, BitVec.getLsbD_extractLsb', BitVec.getLsbD_append]
  simp [hi]

/-- Z of a word of format CW (R90, R92). -/
theorem zField_commandWord (op m : Byte) : zField (commandWord op m) = 0 := by
  apply BitVec.eq_of_getLsbD_eq
  intro i hi
  simp only [zField, commandWord, BitVec.getLsbD_extractLsb', BitVec.getLsbD_append]
  simp [show ¬16 + i < 8 by omega, show ¬16 + i - 8 < 8 by omega]

/-- A word is its three fields (R90). -/
theorem eq_fields (w : Word) : w = zField w ++ mField w ++ opField w := by
  apply BitVec.eq_of_getLsbD_eq
  intro i hi
  simp only [BitVec.getLsbD_append, zField, mField, opField, BitVec.getLsbD_extractLsb']
  by_cases h1 : i < 8
  · simp [h1]
  · by_cases h2 : i < 16
    · simp [h1, show i - 8 < 8 by omega, show 8 + (i - 8) = i by omega]
    · simp [h1, show ¬i - 8 < 8 by omega, show 16 + (i - 8 - 8) = i by omega, show i - 8 - 8 < 16 by omega]

namespace Laws.WordShape

/-- The word of the command has its OP in bits 7:0, its M in bits 15:8 and zeros in bits 31:16 (R90, R93). -/
def Statement (i : Instr) : Prop :=
  opField (encode i) = i.opcode ∧ mField (encode i) = i.modifier ∧ zField (encode i) = 0

theorem of_command (i : Instr) : Statement i :=
  ⟨opField_commandWord _ _, mField_commandWord _ _, zField_commandWord _ _⟩

theorem nop : Statement .nop := of_command _
theorem byteAt : Statement .byteAt := of_command _
theorem word16At : Statement .word16At := of_command _
theorem word32At : Statement .word32At := of_command _
theorem sliceAt : Statement .sliceAt := of_command _
theorem isClone : Statement .isClone := of_command _
theorem bitField (w : Byte) : Statement (.bitField w) := of_command _
theorem seekBit : Statement .seekBit := of_command _
theorem readBits (w : Byte) : Statement (.readBits w) := of_command _
theorem peekBits (w : Byte) : Statement (.peekBits w) := of_command _
theorem secHdr : Statement .secHdr := of_command _
theorem hasCrc : Statement .hasCrc := of_command _
theorem calcCrc : Statement .calcCrc := of_command _
theorem verifyCrc : Statement .verifyCrc := of_command _
theorem secCrc : Statement .secCrc := of_command _
theorem setCrc : Statement .setCrc := of_command _
theorem huffDecC5 : Statement .huffDecC5 := of_command _
theorem huffDecC7 : Statement .huffDecC7 := of_command _
theorem dvbText : Statement .dvbText := of_command _

end Laws.WordShape

end Sys2Proof
end

