-- ==== Sys2Proof/Laws/Memory.lean ====
section
/-! SUPPORT. SECBUF: reads after writes, and the canonical form that every operation keeps. -/

namespace Sys2Proof.Machine

/-- A read at the place written gives the byte written. -/
@[simp] theorem Memory.get_set_same (m : Memory) (a : Nat) (v : Byte) : (m.set a v).get a = some v := by
  induction m with
  | nil => simp [Memory.set, Memory.get]
  | cons c rest ih =>
    obtain ⟨k, u⟩ := c
    unfold Memory.set
    split
    · simp [Memory.get]
    · split
      · simp [Memory.get]
      · rename_i h1 h2
        simp [Memory.get, h2, ih]

/-- A write leaves every other place alone. -/
theorem Memory.get_set_other (m : Memory) (a b : Nat) (v : Byte) (h : b ≠ a) :
    (m.set a v).get b = m.get b := by
  induction m with
  | nil => simp [Memory.set, Memory.get, h]
  | cons c rest ih =>
    obtain ⟨k, u⟩ := c
    unfold Memory.set
    split
    · simp [Memory.get, h]
    · split
      · rename_i h2
        subst h2
        simp [Memory.get, h]
      · simp only [Memory.get, ih]

/-- A write of n bytes leaves every place outside its n bytes alone. -/
theorem Memory.get_writeBE_outside (n : Nat) : ∀ (m : Memory) (off v a : Nat),
    a < off ∨ off + n ≤ a → (m.writeBE n off v).get a = m.get a := by
  induction n with
  | zero => intros; rfl
  | succ n ih =>
    intro m off v a h
    rw [Memory.writeBE, ih _ _ _ _ (by omega), Memory.get_set_other _ _ _ _ (by omega)]

/-- Byte j of a write of n bytes is byte n - 1 - j of the value, counted from the least significant (R12). -/
theorem Memory.get_writeBE_inside (n : Nat) : ∀ (m : Memory) (off v j : Nat), j < n →
    (m.writeBE n off v).get (off + j) = some (BitVec.ofNat 8 (v / 256 ^ (n - 1 - j))) := by
  induction n with
  | zero => intro _ _ _ j h; omega
  | succ n ih =>
    intro m off v j h
    rw [Memory.writeBE]
    cases j with
    | zero => rw [Memory.get_writeBE_outside _ _ _ _ _ (by omega)]; simp
    | succ j =>
      have e : off + (j + 1) = off + 1 + j := by omega
      rw [e, ih _ _ _ _ (by omega)]
      have e2 : n - 1 - j = n + 1 - 1 - (j + 1) := by omega
      rw [e2]

/-- The canonical form, said with membership. -/
theorem Memory.wf_iff (m : Memory) :
    m.wf = true ↔ m.Pairwise (fun a b => a.1 < b.1) ∧ ∀ c ∈ m, c.1 < 4096 := by
  simp only [Memory.wf, Bool.and_eq_true, decide_eq_true_eq, List.all_eq_true]

/-- What a write can leave in the list: the new byte, or a byte that was there. -/
theorem Memory.mem_set (m : Memory) (a : Nat) (v : Byte) (c : Host.Cell) (h : c ∈ m.set a v) :
    c = (a, v) ∨ c ∈ m := by
  induction m with
  | nil => simpa [Memory.set] using h
  | cons d rest ih =>
    obtain ⟨k, u⟩ := d
    unfold Memory.set at h
    split at h
    · simpa using h
    · split at h
      · rcases List.mem_cons.1 h with h | h
        · exact .inl h
        · exact .inr (List.mem_cons_of_mem _ h)
      · rcases List.mem_cons.1 h with h | h
        · exact .inr (by simp [h])
        · rcases ih h with h | h
          · exact .inl h
          · exact .inr (List.mem_cons_of_mem _ h)

/-- A write within SECBUF keeps the canonical form. -/
theorem Memory.wf_set (m : Memory) (a : Nat) (v : Byte) (hm : m.wf = true) (ha : a < 4096) :
    (m.set a v).wf = true := by
  rw [Memory.wf_iff] at hm ⊢
  refine ⟨?_, ?_⟩
  · obtain ⟨hp, -⟩ := hm
    induction m with
    | nil => simp [Memory.set]
    | cons d rest ih =>
      obtain ⟨k, u⟩ := d
      rw [List.pairwise_cons] at hp
      unfold Memory.set
      split
      · rename_i hlt
        refine List.pairwise_cons.2 ⟨?_, List.pairwise_cons.2 hp⟩
        intro c hc
        rcases List.mem_cons.1 hc with hc | hc
        · subst hc; exact hlt
        · exact Nat.lt_trans hlt (hp.1 c hc)
      · split
        · rename_i heq
          subst heq
          exact List.pairwise_cons.2 hp
        · refine List.pairwise_cons.2 ⟨?_, ih hp.2⟩
          intro c hc
          rcases Memory.mem_set _ _ _ _ hc with hc | hc
          · subst hc; simp only; omega
          · exact hp.1 c hc
  · intro c hc
    rcases Memory.mem_set _ _ _ _ hc with hc | hc
    · subst hc; exact ha
    · exact hm.2 c hc

/-- A write of n bytes within SECBUF keeps the canonical form. -/
theorem Memory.wf_writeBE (n : Nat) : ∀ (m : Memory) (off v : Nat), m.wf = true → off + n ≤ 4096 →
    (m.writeBE n off v).wf = true := by
  induction n with
  | zero => intro m _ _ hm _; exact hm
  | succ n ih =>
    intro m off v hm h
    exact ih _ _ _ (Memory.wf_set _ _ _ hm (by omega)) (by omega)

/-- The empty SECBUF of power-on reset has the canonical form. -/
theorem Memory.wf_nil : Memory.wf [] = true := rfl

end Sys2Proof.Machine
end

