-- ==== Sys2Proof/Laws/State.lean ====
section
/-! SUPPORT. One lemma for each field and each update of State, so that no proof unfolds a record update. -/

namespace Sys2Proof.Machine

/-! ### startCommand -/

@[simp] theorem State.startCommand_ctrl (s : State) (v : Word) : (s.startCommand v).ctrl = s.ctrl := rfl
@[simp] theorem State.startCommand_status (s : State) (v : Word) : (s.startCommand v).status = s.status.started := rfl
@[simp] theorem State.startCommand_bufLen (s : State) (v : Word) : (s.startCommand v).bufLen = s.bufLen := rfl
@[simp] theorem State.startCommand_cmd (s : State) (v : Word) : (s.startCommand v).cmd = v := rfl
@[simp] theorem State.startCommand_arg0 (s : State) (v : Word) : (s.startCommand v).arg0 = s.arg0 := rfl
@[simp] theorem State.startCommand_arg1 (s : State) (v : Word) : (s.startCommand v).arg1 = s.arg1 := rfl
@[simp] theorem State.startCommand_res0 (s : State) (v : Word) : (s.startCommand v).res0 = s.res0 := rfl
@[simp] theorem State.startCommand_res1 (s : State) (v : Word) : (s.startCommand v).res1 = s.res1 := rfl
@[simp] theorem State.startCommand_curPos (s : State) (v : Word) : (s.startCommand v).curPos = s.curPos := rfl
@[simp] theorem State.startCommand_outLen (s : State) (v : Word) : (s.startCommand v).outLen = s.outLen := rfl
@[simp] theorem State.startCommand_errInfo (s : State) (v : Word) : (s.startCommand v).errInfo = 0 := rfl
@[simp] theorem State.startCommand_secBuf (s : State) (v : Word) : (s.startCommand v).secBuf = s.secBuf := rfl
@[simp] theorem State.startCommand_outBuf (s : State) (v : Word) : (s.startCommand v).outBuf = s.outBuf := rfl
@[simp] theorem State.startCommand_build (s : State) (v : Word) : (s.startCommand v).build = s.build := rfl
@[simp] theorem State.startCommand_schedule (s : State) (v : Word) : (s.startCommand v).schedule = s.schedule := rfl
@[simp] theorem State.startCommand_hostData (s : State) (v : Word) : (s.startCommand v).hostData = s.hostData := rfl
@[simp] theorem State.startCommand_faultMark (s : State) (v : Word) : (s.startCommand v).faultMark = s.faultMark := rfl
@[simp] theorem State.startCommand_refusalMark (s : State) (v : Word) : (s.startCommand v).refusalMark = s.refusalMark := rfl

/-! ### write -/

@[simp] theorem State.write_ctrl (s : State) (w : Writes) : (s.write w).ctrl = s.ctrl := rfl
@[simp] theorem State.write_status (s : State) (w : Writes) : (s.write w).status = s.status := rfl
@[simp] theorem State.write_bufLen (s : State) (w : Writes) : (s.write w).bufLen = s.bufLen := rfl
@[simp] theorem State.write_cmd (s : State) (w : Writes) : (s.write w).cmd = s.cmd := rfl
@[simp] theorem State.write_arg0 (s : State) (w : Writes) : (s.write w).arg0 = s.arg0 := rfl
@[simp] theorem State.write_arg1 (s : State) (w : Writes) : (s.write w).arg1 = s.arg1 := rfl
@[simp] theorem State.write_res0 (s : State) (w : Writes) : (s.write w).res0 = w.res0.getD s.res0 := rfl
@[simp] theorem State.write_res1 (s : State) (w : Writes) : (s.write w).res1 = w.res1.getD s.res1 := rfl
@[simp] theorem State.write_curPos (s : State) (w : Writes) : (s.write w).curPos = w.curPos.getD s.curPos := rfl
@[simp] theorem State.write_errInfo (s : State) (w : Writes) : (s.write w).errInfo = s.errInfo := rfl
@[simp] theorem State.write_outBuf (s : State) (w : Writes) : (s.write w).outBuf = w.out.getD s.outBuf := rfl
@[simp] theorem State.write_build (s : State) (w : Writes) : (s.write w).build = s.build := rfl
@[simp] theorem State.write_schedule (s : State) (w : Writes) : (s.write w).schedule = s.schedule := rfl
@[simp] theorem State.write_hostData (s : State) (w : Writes) : (s.write w).hostData = s.hostData := rfl
@[simp] theorem State.write_faultMark (s : State) (w : Writes) : (s.write w).faultMark = s.faultMark := rfl
@[simp] theorem State.write_refusalMark (s : State) (w : Writes) : (s.write w).refusalMark = s.refusalMark := rfl

/-! ### markDone -/

@[simp] theorem State.markDone_ctrl (s : State) : (s.markDone).ctrl = s.ctrl := rfl
@[simp] theorem State.markDone_status (s : State) : (s.markDone).status = s.status.completed := rfl
@[simp] theorem State.markDone_bufLen (s : State) : (s.markDone).bufLen = s.bufLen := rfl
@[simp] theorem State.markDone_cmd (s : State) : (s.markDone).cmd = s.cmd := rfl
@[simp] theorem State.markDone_arg0 (s : State) : (s.markDone).arg0 = s.arg0 := rfl
@[simp] theorem State.markDone_arg1 (s : State) : (s.markDone).arg1 = s.arg1 := rfl
@[simp] theorem State.markDone_res0 (s : State) : (s.markDone).res0 = s.res0 := rfl
@[simp] theorem State.markDone_res1 (s : State) : (s.markDone).res1 = s.res1 := rfl
@[simp] theorem State.markDone_curPos (s : State) : (s.markDone).curPos = s.curPos := rfl
@[simp] theorem State.markDone_outLen (s : State) : (s.markDone).outLen = s.outLen := rfl
@[simp] theorem State.markDone_errInfo (s : State) : (s.markDone).errInfo = s.errInfo := rfl
@[simp] theorem State.markDone_secBuf (s : State) : (s.markDone).secBuf = s.secBuf := rfl
@[simp] theorem State.markDone_outBuf (s : State) : (s.markDone).outBuf = s.outBuf := rfl
@[simp] theorem State.markDone_build (s : State) : (s.markDone).build = s.build := rfl
@[simp] theorem State.markDone_schedule (s : State) : (s.markDone).schedule = s.schedule := rfl
@[simp] theorem State.markDone_hostData (s : State) : (s.markDone).hostData = s.hostData := rfl
@[simp] theorem State.markDone_faultMark (s : State) : (s.markDone).faultMark = s.faultMark := rfl
@[simp] theorem State.markDone_refusalMark (s : State) : (s.markDone).refusalMark = s.refusalMark := rfl

/-! ### takeError -/

@[simp] theorem State.takeError_ctrl (s : State) (c : ErrCode) (info : Word) : (s.takeError c info).ctrl = s.ctrl := rfl
@[simp] theorem State.takeError_status (s : State) (c : ErrCode) (info : Word) : (s.takeError c info).status = s.status.failed c := rfl
@[simp] theorem State.takeError_bufLen (s : State) (c : ErrCode) (info : Word) : (s.takeError c info).bufLen = s.bufLen := rfl
@[simp] theorem State.takeError_cmd (s : State) (c : ErrCode) (info : Word) : (s.takeError c info).cmd = s.cmd := rfl
@[simp] theorem State.takeError_arg0 (s : State) (c : ErrCode) (info : Word) : (s.takeError c info).arg0 = s.arg0 := rfl
@[simp] theorem State.takeError_arg1 (s : State) (c : ErrCode) (info : Word) : (s.takeError c info).arg1 = s.arg1 := rfl
@[simp] theorem State.takeError_res0 (s : State) (c : ErrCode) (info : Word) : (s.takeError c info).res0 = s.res0 := rfl
@[simp] theorem State.takeError_res1 (s : State) (c : ErrCode) (info : Word) : (s.takeError c info).res1 = s.res1 := rfl
@[simp] theorem State.takeError_curPos (s : State) (c : ErrCode) (info : Word) : (s.takeError c info).curPos = s.curPos := rfl
@[simp] theorem State.takeError_outLen (s : State) (c : ErrCode) (info : Word) : (s.takeError c info).outLen = s.outLen := rfl
@[simp] theorem State.takeError_errInfo (s : State) (c : ErrCode) (info : Word) : (s.takeError c info).errInfo = info := rfl
@[simp] theorem State.takeError_secBuf (s : State) (c : ErrCode) (info : Word) : (s.takeError c info).secBuf = s.secBuf := rfl
@[simp] theorem State.takeError_outBuf (s : State) (c : ErrCode) (info : Word) : (s.takeError c info).outBuf = s.outBuf := rfl
@[simp] theorem State.takeError_build (s : State) (c : ErrCode) (info : Word) : (s.takeError c info).build = s.build := rfl
@[simp] theorem State.takeError_schedule (s : State) (c : ErrCode) (info : Word) : (s.takeError c info).schedule = s.schedule := rfl
@[simp] theorem State.takeError_hostData (s : State) (c : ErrCode) (info : Word) : (s.takeError c info).hostData = s.hostData := rfl
@[simp] theorem State.takeError_faultMark (s : State) (c : ErrCode) (info : Word) : (s.takeError c info).faultMark = s.faultMark := rfl
@[simp] theorem State.takeError_refusalMark (s : State) (c : ErrCode) (info : Word) : (s.takeError c info).refusalMark = s.refusalMark := rfl

/-! ### acknowledge -/

@[simp] theorem State.acknowledge_ctrl (s : State) (v : Word) : (s.acknowledge v).ctrl = s.ctrl := rfl
@[simp] theorem State.acknowledge_status (s : State) (v : Word) : (s.acknowledge v).status = s.status.acknowledged v := rfl
@[simp] theorem State.acknowledge_bufLen (s : State) (v : Word) : (s.acknowledge v).bufLen = s.bufLen := rfl
@[simp] theorem State.acknowledge_cmd (s : State) (v : Word) : (s.acknowledge v).cmd = s.cmd := rfl
@[simp] theorem State.acknowledge_arg0 (s : State) (v : Word) : (s.acknowledge v).arg0 = s.arg0 := rfl
@[simp] theorem State.acknowledge_arg1 (s : State) (v : Word) : (s.acknowledge v).arg1 = s.arg1 := rfl
@[simp] theorem State.acknowledge_res0 (s : State) (v : Word) : (s.acknowledge v).res0 = s.res0 := rfl
@[simp] theorem State.acknowledge_res1 (s : State) (v : Word) : (s.acknowledge v).res1 = s.res1 := rfl
@[simp] theorem State.acknowledge_curPos (s : State) (v : Word) : (s.acknowledge v).curPos = s.curPos := rfl
@[simp] theorem State.acknowledge_outLen (s : State) (v : Word) : (s.acknowledge v).outLen = s.outLen := rfl
@[simp] theorem State.acknowledge_errInfo (s : State) (v : Word) : (s.acknowledge v).errInfo = s.errInfo := rfl
@[simp] theorem State.acknowledge_secBuf (s : State) (v : Word) : (s.acknowledge v).secBuf = s.secBuf := rfl
@[simp] theorem State.acknowledge_outBuf (s : State) (v : Word) : (s.acknowledge v).outBuf = s.outBuf := rfl
@[simp] theorem State.acknowledge_build (s : State) (v : Word) : (s.acknowledge v).build = s.build := rfl
@[simp] theorem State.acknowledge_schedule (s : State) (v : Word) : (s.acknowledge v).schedule = s.schedule := rfl
@[simp] theorem State.acknowledge_hostData (s : State) (v : Word) : (s.acknowledge v).hostData = s.hostData := rfl
@[simp] theorem State.acknowledge_faultMark (s : State) (v : Word) : (s.acknowledge v).faultMark = s.faultMark := rfl
@[simp] theorem State.acknowledge_refusalMark (s : State) (v : Word) : (s.acknowledge v).refusalMark = s.refusalMark := rfl

/-! ### clearOutput -/

@[simp] theorem State.clearOutput_ctrl (s : State) : (s.clearOutput).ctrl = s.ctrl := rfl
@[simp] theorem State.clearOutput_status (s : State) : (s.clearOutput).status = s.status := rfl
@[simp] theorem State.clearOutput_bufLen (s : State) : (s.clearOutput).bufLen = s.bufLen := rfl
@[simp] theorem State.clearOutput_cmd (s : State) : (s.clearOutput).cmd = s.cmd := rfl
@[simp] theorem State.clearOutput_arg0 (s : State) : (s.clearOutput).arg0 = s.arg0 := rfl
@[simp] theorem State.clearOutput_arg1 (s : State) : (s.clearOutput).arg1 = s.arg1 := rfl
@[simp] theorem State.clearOutput_res0 (s : State) : (s.clearOutput).res0 = s.res0 := rfl
@[simp] theorem State.clearOutput_res1 (s : State) : (s.clearOutput).res1 = s.res1 := rfl
@[simp] theorem State.clearOutput_curPos (s : State) : (s.clearOutput).curPos = s.curPos := rfl
@[simp] theorem State.clearOutput_outLen (s : State) : (s.clearOutput).outLen = 0 := rfl
@[simp] theorem State.clearOutput_errInfo (s : State) : (s.clearOutput).errInfo = s.errInfo := rfl
@[simp] theorem State.clearOutput_secBuf (s : State) : (s.clearOutput).secBuf = s.secBuf := rfl
@[simp] theorem State.clearOutput_outBuf (s : State) : (s.clearOutput).outBuf = [] := rfl
@[simp] theorem State.clearOutput_build (s : State) : (s.clearOutput).build = s.build := rfl
@[simp] theorem State.clearOutput_schedule (s : State) : (s.clearOutput).schedule = s.schedule := rfl
@[simp] theorem State.clearOutput_hostData (s : State) : (s.clearOutput).hostData = s.hostData := rfl
@[simp] theorem State.clearOutput_faultMark (s : State) : (s.clearOutput).faultMark = s.faultMark := rfl
@[simp] theorem State.clearOutput_refusalMark (s : State) : (s.clearOutput).refusalMark = s.refusalMark := rfl

/-! ### softReset -/

@[simp] theorem State.softReset_ctrl (s : State) : (s.softReset).ctrl = ⟨false, false⟩ := rfl
@[simp] theorem State.softReset_status (s : State) : (s.softReset).status = ⟨false, false, false, false, .none⟩ := rfl
@[simp] theorem State.softReset_bufLen (s : State) : (s.softReset).bufLen = 0 := rfl
@[simp] theorem State.softReset_cmd (s : State) : (s.softReset).cmd = 0 := rfl
@[simp] theorem State.softReset_arg0 (s : State) : (s.softReset).arg0 = 0 := rfl
@[simp] theorem State.softReset_arg1 (s : State) : (s.softReset).arg1 = 0 := rfl
@[simp] theorem State.softReset_res0 (s : State) : (s.softReset).res0 = 0 := rfl
@[simp] theorem State.softReset_res1 (s : State) : (s.softReset).res1 = 0 := rfl
@[simp] theorem State.softReset_curPos (s : State) : (s.softReset).curPos = 0 := rfl
@[simp] theorem State.softReset_outLen (s : State) : (s.softReset).outLen = 0 := rfl
@[simp] theorem State.softReset_errInfo (s : State) : (s.softReset).errInfo = 0 := rfl
@[simp] theorem State.softReset_secBuf (s : State) : (s.softReset).secBuf = s.secBuf := rfl
@[simp] theorem State.softReset_outBuf (s : State) : (s.softReset).outBuf = s.outBuf := rfl
@[simp] theorem State.softReset_build (s : State) : (s.softReset).build = s.build := rfl
@[simp] theorem State.softReset_schedule (s : State) : (s.softReset).schedule = s.schedule := rfl
@[simp] theorem State.softReset_hostData (s : State) : (s.softReset).hostData = s.hostData := rfl
@[simp] theorem State.softReset_faultMark (s : State) : (s.softReset).faultMark = s.faultMark := rfl
@[simp] theorem State.softReset_refusalMark (s : State) : (s.softReset).refusalMark = s.refusalMark := rfl

/-! ### powerOnReset -/

@[simp] theorem State.powerOnReset_ctrl (s : State) : (s.powerOnReset).ctrl = ⟨false, false⟩ := rfl
@[simp] theorem State.powerOnReset_status (s : State) : (s.powerOnReset).status = ⟨false, false, false, false, .none⟩ := rfl
@[simp] theorem State.powerOnReset_bufLen (s : State) : (s.powerOnReset).bufLen = 0 := rfl
@[simp] theorem State.powerOnReset_cmd (s : State) : (s.powerOnReset).cmd = 0 := rfl
@[simp] theorem State.powerOnReset_arg0 (s : State) : (s.powerOnReset).arg0 = 0 := rfl
@[simp] theorem State.powerOnReset_arg1 (s : State) : (s.powerOnReset).arg1 = 0 := rfl
@[simp] theorem State.powerOnReset_res0 (s : State) : (s.powerOnReset).res0 = 0 := rfl
@[simp] theorem State.powerOnReset_res1 (s : State) : (s.powerOnReset).res1 = 0 := rfl
@[simp] theorem State.powerOnReset_curPos (s : State) : (s.powerOnReset).curPos = 0 := rfl
@[simp] theorem State.powerOnReset_outLen (s : State) : (s.powerOnReset).outLen = 0 := rfl
@[simp] theorem State.powerOnReset_errInfo (s : State) : (s.powerOnReset).errInfo = 0 := rfl
@[simp] theorem State.powerOnReset_secBuf (s : State) : (s.powerOnReset).secBuf = [] := rfl
@[simp] theorem State.powerOnReset_outBuf (s : State) : (s.powerOnReset).outBuf = [] := rfl
@[simp] theorem State.powerOnReset_build (s : State) : (s.powerOnReset).build = s.build := rfl
@[simp] theorem State.powerOnReset_schedule (s : State) : (s.powerOnReset).schedule = s.schedule := rfl
@[simp] theorem State.powerOnReset_hostData (s : State) : (s.powerOnReset).hostData = none := rfl
@[simp] theorem State.powerOnReset_faultMark (s : State) : (s.powerOnReset).faultMark = none := rfl
@[simp] theorem State.powerOnReset_refusalMark (s : State) : (s.powerOnReset).refusalMark = none := rfl

/-! ### The two fields a write may replace by a computed value -/

@[simp] theorem State.write_outLen_some (s : State) (w : Writes) (u : List Half) (h : w.out = some u) :
    (s.write w).outLen = BitVec.ofNat 13 u.length := by simp [State.write, h]

@[simp] theorem State.write_outLen_none (s : State) (w : Writes) (h : w.out = none) :
    (s.write w).outLen = s.outLen := by simp [State.write, h]

@[simp] theorem State.write_secBuf_some (s : State) (w : Writes) (off : Nat) (v : Word)
    (h : w.trailer = some (off, v)) : (s.write w).secBuf = s.secBuf.writeBE 4 off v.toNat := by
  simp [State.write, h]

@[simp] theorem State.write_secBuf_none (s : State) (w : Writes) (h : w.trailer = none) :
    (s.write w).secBuf = s.secBuf := by simp [State.write, h]

/-! ### STATUS -/

@[simp] theorem Status.completed_busy (st : Status) : st.completed.busy = false := rfl
@[simp] theorem Status.completed_done (st : Status) : st.completed.done = true := rfl
@[simp] theorem Status.completed_err (st : Status) : st.completed.err = st.err := rfl
@[simp] theorem Status.completed_ovr (st : Status) : st.completed.ovr = st.ovr := rfl
@[simp] theorem Status.completed_errCode (st : Status) : st.completed.errCode = st.errCode := rfl
@[simp] theorem Status.failed_busy (st : Status) (c : ErrCode) : (st.failed c).busy = false := rfl
@[simp] theorem Status.failed_done (st : Status) (c : ErrCode) : (st.failed c).done = st.done := rfl
@[simp] theorem Status.failed_err (st : Status) (c : ErrCode) : (st.failed c).err = true := rfl
@[simp] theorem Status.failed_ovr (st : Status) (c : ErrCode) : (st.failed c).ovr = st.ovr := rfl
@[simp] theorem Status.failed_errCode (st : Status) (c : ErrCode) : (st.failed c).errCode = c := rfl
@[simp] theorem Status.started_busy (st : Status) : st.started.busy = true := rfl
@[simp] theorem Status.started_done (st : Status) : st.started.done = false := rfl
@[simp] theorem Status.started_err (st : Status) : st.started.err = false := rfl
@[simp] theorem Status.started_ovr (st : Status) : st.started.ovr = st.ovr := rfl
@[simp] theorem Status.started_errCode (st : Status) : st.started.errCode = .none := rfl

end Sys2Proof.Machine
end

