-- ==== Sys2Proof/Laws/Reads.lean ====
section
/-! SUPPORT. What the reads of the section can do: MemRead and Bits answer the value of the bytes or bits that are there, OUT_OF_BOUNDS past BUFLEN, and UNDEF_READ at the first byte that was never written. -/

namespace Sys2Proof.Machine

/-! ### Exec -/

@[simp] theorem Exec.ok_bind {α β : Type} (a : α) (f : α → Exec β) : ((.ok a : Exec α) >>= f) = f a := rfl
@[simp] theorem Exec.error_bind {α β : Type} (e : Stop) (f : α → Exec β) :
    ((.error e : Exec α) >>= f) = .error e := rfl
@[simp] theorem Exec.raise_bind {α β : Type} (c : ErrCode) (i : Word) (f : α → Exec β) :
    ((raise c i : Exec α) >>= f) = raise c i := rfl

/-- A sequence answers a value iff each part does. -/
theorem Exec.bind_eq_ok {α β : Type} {x : Exec α} {f : α → Exec β} {b : β} :
    (x >>= f) = .ok b ↔ ∃ a, x = .ok a ∧ f a = .ok b := by
  cases x with
  | ok a => simp
  | error e => simp

/-- A sequence stops iff its first part stops, or its rest does. -/
theorem Exec.bind_eq_error {α β : Type} {x : Exec α} {f : α → Exec β} {e : Stop} :
    (x >>= f) = .error e ↔ x = .error e ∨ ∃ a, x = .ok a ∧ f a = .error e := by
  cases x with
  | ok a => simp
  | error e => simp

/-! ### Bytes -/

theorem State.secByte_some {s : State} {a : Nat} {b : Byte} (h : s.secBuf.get a = some b) :
    s.secByte a = .ok b := by simp [State.secByte, h]

theorem State.secByte_none {s : State} {a : Nat} (h : s.secBuf.get a = none) :
    s.secByte a = .error (.fault (.undefReadSecBuf a)) := by simp [State.secByte, h]

@[simp] theorem State.holds_nil (s : State) (off : Nat) : s.holds off [] := by
  intro k b h; simp at h

theorem State.holds_cons (s : State) (off : Nat) (b : Byte) (bs : List Byte) :
    s.holds off (b :: bs) ↔ s.secBuf.get off = some b ∧ s.holds (off + 1) bs := by
  constructor
  · intro h
    refine ⟨h 0 b rfl, fun k c hc => ?_⟩
    have := h (k + 1) c (by simpa using hc)
    rwa [show off + 1 + k = off + (k + 1) by omega]
  · rintro ⟨h0, h⟩ k c hc
    cases k with
    | zero => simp at hc; subst hc; exact h0
    | succ k =>
      have := h k c (by simpa using hc)
      rwa [show off + 1 + k = off + (k + 1) by omega] at this

theorem State.holds_append (s : State) (off : Nat) (as bs : List Byte) :
    s.holds off (as ++ bs) ↔ s.holds off as ∧ s.holds (off + as.length) bs := by
  induction as generalizing off with
  | nil => simp
  | cons a as ih =>
    simp only [List.cons_append, State.holds_cons, ih, List.length_cons, and_assoc]
    rw [show off + 1 + as.length = off + (as.length + 1) by omega]

/-- Where every byte of a span is written, the span holds some string. -/
theorem State.holds_of_written (s : State) (n : Nat) : ∀ off,
    (∀ k, k < n → (s.secBuf.get (off + k)).isSome = true) → ∃ bs, bs.length = n ∧ s.holds off bs := by
  induction n with
  | zero => intro off _; exact ⟨[], rfl, by simp⟩
  | succ n ih =>
    intro off h
    obtain ⟨b, hb⟩ := Option.isSome_iff_exists.1 (h 0 (by omega))
    obtain ⟨bs, hl, hh⟩ := ih (off + 1) (fun k hk => by
      rw [show off + 1 + k = off + (k + 1) by omega]; exact h (k + 1) (by omega))
    exact ⟨b :: bs, by simp [hl], (s.holds_cons _ _ _).2 ⟨hb, hh⟩⟩

/-- A read of written bytes answers their big-endian value. -/
theorem State.readBytes_holds (s : State) : ∀ (bs : List Byte) (off acc : Nat), s.holds off bs →
    s.readBytes bs.length off acc = .ok (bs.foldl (fun a b => a * 256 + b.toNat) acc) := by
  intro bs
  induction bs with
  | nil => intro off acc _; rfl
  | cons b bs ih =>
    intro off acc h
    rw [State.holds_cons] at h
    simp only [List.length_cons, State.readBytes, State.secByte_some h.1, Exec.ok_bind, ih _ _ h.2,
      List.foldl_cons]

/-- All a read of `n` bytes can do. -/
theorem State.readBytes_cases (s : State) (n : Nat) : ∀ off acc,
    (∃ bs, bs.length = n ∧ s.holds off bs ∧
      s.readBytes n off acc = .ok (bs.foldl (fun a b => a * 256 + b.toNat) acc)) ∨
    (∃ k, k < n ∧ s.secBuf.get (off + k) = none ∧
      (∀ j, j < k → (s.secBuf.get (off + j)).isSome = true) ∧
      s.readBytes n off acc = .error (.fault (.undefReadSecBuf (off + k)))) := by
  induction n with
  | zero => intro off acc; exact .inl ⟨[], rfl, by simp, rfl⟩
  | succ n ih =>
    intro off acc
    cases hb : s.secBuf.get off with
    | none =>
      refine .inr ⟨0, by omega, by simpa using hb, fun j hj => by omega, ?_⟩
      simp [State.readBytes, State.secByte_none hb]
    | some b =>
      rcases ih (off + 1) (acc * 256 + b.toNat) with ⟨bs, hl, hh, hr⟩ | ⟨k, hk, hn, hp, hr⟩
      · refine .inl ⟨b :: bs, by simp [hl], (s.holds_cons _ _ _).2 ⟨hb, hh⟩, ?_⟩
        simp [State.readBytes, State.secByte_some hb, hr]
      · refine .inr ⟨k + 1, by omega, ?_, ?_, ?_⟩
        · rwa [show off + (k + 1) = off + 1 + k by omega]
        · intro j hj
          cases j with
          | zero => simp [hb]
          | succ j => rw [show off + (j + 1) = off + 1 + j by omega]; exact hp j (by omega)
        · simp [State.readBytes, State.secByte_some hb, hr, show off + (k + 1) = off + 1 + k by omega]

/-- MemRead in bounds of written bytes (R12). -/
theorem State.memRead_holds {s : State} {off : Nat} {bs : List Byte} (h : s.holds off bs)
    (hb : off + bs.length ≤ s.bufLen.toNat) : s.memRead off bs.length = .ok (bigEndian bs) := by
  have e : s.bytesInBounds off bs.length = true := by simpa [State.bytesInBounds, State.extent] using hb
  simp [State.memRead, e, State.readBytes_holds _ _ _ _ h, bigEndian]

/-- MemRead out of bounds (R12). -/
theorem State.memRead_outOfBounds {s : State} {off n : Nat} (hb : s.bufLen.toNat < off + n) :
    s.memRead off n = raise .outOfBounds (BitVec.ofNat 32 off) := by
  have e : s.bytesInBounds off n = false := by simpa [State.bytesInBounds, State.extent] using hb
  simp [State.memRead, e]

/-- One byte in bounds. -/
theorem State.memRead_one {s : State} {off : Nat} {b : Byte} (h : s.secBuf.get off = some b)
    (hb : off + 1 ≤ s.bufLen.toNat) : s.memRead off 1 = .ok b.toNat := by
  have := State.memRead_holds (s := s) (off := off) (bs := [b]) ((s.holds_cons _ _ _).2 ⟨h, by simp⟩) (by simpa using hb)
  simpa [bigEndian] using this

/-- One byte in bounds that was never written. -/
theorem State.memRead_one_unwritten {s : State} {off : Nat} (h : s.secBuf.get off = none)
    (hb : off + 1 ≤ s.bufLen.toNat) : s.memRead off 1 = .error (.fault (.undefReadSecBuf off)) := by
  have e : s.bytesInBounds off 1 = true := by simpa [State.bytesInBounds, State.extent] using hb
  simp [State.memRead, e, State.readBytes, State.secByte_none h]

/-- All MemRead can do (R12): the value of the bytes, OUT_OF_BOUNDS, or UNDEF_READ at the first unwritten byte. -/
theorem State.memRead_cases (s : State) (off n : Nat) :
    (off + n ≤ s.bufLen.toNat ∧ ∃ bs, bs.length = n ∧ s.holds off bs ∧ s.memRead off n = .ok (bigEndian bs)) ∨
    (s.bufLen.toNat < off + n ∧ s.memRead off n = raise .outOfBounds (BitVec.ofNat 32 off)) ∨
    (off + n ≤ s.bufLen.toNat ∧ ∃ k, k < n ∧ s.secBuf.get (off + k) = none ∧
      (∀ j, j < k → (s.secBuf.get (off + j)).isSome = true) ∧
      s.memRead off n = .error (.fault (.undefReadSecBuf (off + k)))) := by
  by_cases hb : off + n ≤ s.bufLen.toNat
  · have e : s.bytesInBounds off n = true := by simpa [State.bytesInBounds, State.extent] using hb
    rcases s.readBytes_cases n off 0 with ⟨bs, hl, hh, hr⟩ | ⟨k, hk, hn, hp, hr⟩
    · exact .inl ⟨hb, bs, hl, hh, by simp [State.memRead, e, hr, bigEndian]⟩
    · exact .inr (.inr ⟨hb, k, hk, hn, hp, by simp [State.memRead, e, hr]⟩)
  · exact .inr (.inl ⟨by omega, State.memRead_outOfBounds (by omega)⟩)

/-! ### Bits -/

theorem State.bitAt_some {s : State} {p : Nat} {b : Bool} (h : s.secBuf.bit p = some b) :
    s.bitAt p = .ok b := by
  simp only [Memory.bit, Option.map_eq_some_iff] at h
  obtain ⟨c, hc, rfl⟩ := h
  simp [State.bitAt, State.secByte_some hc]

theorem State.bitAt_none {s : State} {p : Nat} (h : s.secBuf.bit p = none) :
    s.bitAt p = .error (.fault (.undefReadSecBuf (p / 8))) := by
  simp only [Memory.bit, Option.map_eq_none_iff] at h
  simp [State.bitAt, State.secByte_none h]

@[simp] theorem State.holdsBits_nil (s : State) (p : Nat) : s.holdsBits p [] := by
  intro k b h; simp at h

theorem State.holdsBits_cons (s : State) (p : Nat) (b : Bool) (bs : List Bool) :
    s.holdsBits p (b :: bs) ↔ s.secBuf.bit p = some b ∧ s.holdsBits (p + 1) bs := by
  constructor
  · intro h
    refine ⟨h 0 b rfl, fun k c hc => ?_⟩
    have := h (k + 1) c (by simpa using hc)
    rwa [show p + 1 + k = p + (k + 1) by omega]
  · rintro ⟨h0, h⟩ k c hc
    cases k with
    | zero => simp at hc; subst hc; exact h0
    | succ k =>
      have := h k c (by simpa using hc)
      rwa [show p + 1 + k = p + (k + 1) by omega] at this

theorem State.holdsBits_append (s : State) (p : Nat) (as bs : List Bool) :
    s.holdsBits p (as ++ bs) ↔ s.holdsBits p as ∧ s.holdsBits (p + as.length) bs := by
  induction as generalizing p with
  | nil => simp
  | cons a as ih =>
    simp only [List.cons_append, State.holdsBits_cons, ih, List.length_cons, and_assoc]
    rw [show p + 1 + as.length = p + (as.length + 1) by omega]

/-- Where every bit of a field is written, the field holds some string. -/
theorem State.holdsBits_of_written (s : State) (n : Nat) : ∀ p, s.fieldWritten p n →
    ∃ bs, bs.length = n ∧ s.holdsBits p bs := by
  induction n with
  | zero => intro p _; exact ⟨[], rfl, by simp⟩
  | succ n ih =>
    intro p h
    obtain ⟨b, hb⟩ := Option.isSome_iff_exists.1 (h 0 (by omega))
    obtain ⟨bs, hl, hh⟩ := ih (p + 1) (fun k hk => by
      rw [show p + 1 + k = p + (k + 1) by omega]; exact h (k + 1) (by omega))
    exact ⟨b :: bs, by simp [hl], (s.holdsBits_cons _ _ _).2 ⟨hb, hh⟩⟩

/-- A read of bits that are there answers their value, first bit most significant. -/
theorem State.takeBits_holds (s : State) : ∀ (bs : List Bool) (p acc : Nat), s.holdsBits p bs →
    s.takeBits bs.length p acc = .ok (bs.foldl (fun a b => a * 2 + b.toNat) acc) := by
  intro bs
  induction bs with
  | nil => intro p acc _; rfl
  | cons b bs ih =>
    intro p acc h
    rw [State.holdsBits_cons] at h
    simp only [List.length_cons, State.takeBits, State.bitAt_some h.1, Exec.ok_bind, ih _ _ h.2,
      List.foldl_cons]

/-- All a read of `n` bits can do. -/
theorem State.takeBits_cases (s : State) (n : Nat) : ∀ p acc,
    (∃ bs, bs.length = n ∧ s.holdsBits p bs ∧
      s.takeBits n p acc = .ok (bs.foldl (fun a b => a * 2 + b.toNat) acc)) ∨
    (∃ k, k < n ∧ s.secBuf.bit (p + k) = none ∧
      (∀ j, j < k → (s.secBuf.bit (p + j)).isSome = true) ∧
      s.takeBits n p acc = .error (.fault (.undefReadSecBuf ((p + k) / 8)))) := by
  induction n with
  | zero => intro p acc; exact .inl ⟨[], rfl, by simp, rfl⟩
  | succ n ih =>
    intro p acc
    cases hb : s.secBuf.bit p with
    | none =>
      refine .inr ⟨0, by omega, by simpa using hb, fun j hj => by omega, ?_⟩
      simp [State.takeBits, State.bitAt_none hb]
    | some b =>
      rcases ih (p + 1) (acc * 2 + b.toNat) with ⟨bs, hl, hh, hr⟩ | ⟨k, hk, hn, hp, hr⟩
      · refine .inl ⟨b :: bs, by simp [hl], (s.holdsBits_cons _ _ _).2 ⟨hb, hh⟩, ?_⟩
        simp [State.takeBits, State.bitAt_some hb, hr]
      · refine .inr ⟨k + 1, by omega, ?_, ?_, ?_⟩
        · rwa [show p + (k + 1) = p + 1 + k by omega]
        · intro j hj
          cases j with
          | zero => simp [hb]
          | succ j => rw [show p + (j + 1) = p + 1 + j by omega]; exact hp j (by omega)
        · simp [State.takeBits, State.bitAt_some hb, hr, show p + (k + 1) = p + 1 + k by omega]

/-- Bits in bounds of written bytes (R12). -/
theorem State.bits_holds {s : State} {p : Nat} {bs : List Bool} (h : s.holdsBits p bs)
    (hb : p + bs.length ≤ 8 * s.bufLen.toNat) : s.bits p bs.length = .ok (bitsValue bs) := by
  have e : s.bitsInBounds p bs.length = true := by simpa [State.bitsInBounds, State.extent] using hb
  simp [State.bits, e, State.takeBits_holds _ _ _ _ h, bitsValue]

/-- Bits out of bounds (R12). -/
theorem State.bits_outOfBounds {s : State} {p w : Nat} (hb : 8 * s.bufLen.toNat < p + w) :
    s.bits p w = raise .outOfBounds (BitVec.ofNat 32 p) := by
  have e : s.bitsInBounds p w = false := by simpa [State.bitsInBounds, State.extent] using hb
  simp [State.bits, e]

/-- All Bits can do (R12). -/
theorem State.bits_cases (s : State) (p w : Nat) :
    (p + w ≤ 8 * s.bufLen.toNat ∧ ∃ bs, bs.length = w ∧ s.holdsBits p bs ∧ s.bits p w = .ok (bitsValue bs)) ∨
    (8 * s.bufLen.toNat < p + w ∧ s.bits p w = raise .outOfBounds (BitVec.ofNat 32 p)) ∨
    (p + w ≤ 8 * s.bufLen.toNat ∧ ∃ k, k < w ∧ s.secBuf.bit (p + k) = none ∧
      (∀ j, j < k → (s.secBuf.bit (p + j)).isSome = true) ∧
      s.bits p w = .error (.fault (.undefReadSecBuf ((p + k) / 8)))) := by
  by_cases hb : p + w ≤ 8 * s.bufLen.toNat
  · have e : s.bitsInBounds p w = true := by simpa [State.bitsInBounds, State.extent] using hb
    rcases s.takeBits_cases w p 0 with ⟨bs, hl, hh, hr⟩ | ⟨k, hk, hn, hp, hr⟩
    · exact .inl ⟨hb, bs, hl, hh, by simp [State.bits, e, hr, bitsValue]⟩
    · exact .inr (.inr ⟨hb, k, hk, hn, hp, by simp [State.bits, e, hr]⟩)
  · exact .inr (.inl ⟨by omega, State.bits_outOfBounds (by omega)⟩)

/-- A bit is what SECBUF says of its address. -/
theorem State.bitAt_congr {s s' : State} {p : Nat} (h : s'.secBuf.bit p = s.secBuf.bit p) :
    s'.bitAt p = s.bitAt p := by
  cases hb : s.secBuf.bit p with
  | none => rw [State.bitAt_none hb, State.bitAt_none (h.trans hb)]
  | some b => rw [State.bitAt_some hb, State.bitAt_some (h.trans hb)]

theorem State.takeBits_congr {s s' : State} : ∀ (w p acc : Nat),
    (∀ k, k < w → s'.secBuf.bit (p + k) = s.secBuf.bit (p + k)) → s'.takeBits w p acc = s.takeBits w p acc := by
  intro w
  induction w with
  | zero => intros; rfl
  | succ w ih =>
    intro p acc h
    have h0 : s'.bitAt p = s.bitAt p := State.bitAt_congr (h 0 (by omega))
    simp only [State.takeBits, h0]
    congr 1
    funext b
    exact ih _ _ (fun k hk => by rw [show p + 1 + k = p + (k + 1) by omega]; exact h (k + 1) (by omega))

/-- A bit field depends on BUFLEN and its own bits only. -/
theorem State.bits_congr {s s' : State} (hl : s'.bufLen = s.bufLen) {p w : Nat}
    (h : p + w ≤ 8 * s.bufLen.toNat → ∀ k, k < w → s'.secBuf.bit (p + k) = s.secBuf.bit (p + k)) :
    s'.bits p w = s.bits p w := by
  unfold State.bits State.bitsInBounds State.extent
  rw [hl]
  by_cases hb : p + w ≤ 8 * s.bufLen.toNat
  · rw [if_pos (by simpa using hb), if_pos (by simpa using hb), State.takeBits_congr _ _ _ (h hb)]
  · rw [if_neg (by simpa using hb), if_neg (by simpa using hb)]

/-- A bit field depends on BUFLEN and SECBUF only. -/
theorem State.bits_of_eq {s s' : State} (hb : s'.secBuf = s.secBuf) (hl : s'.bufLen = s.bufLen) :
    s'.bits = s.bits := by
  funext p w
  exact State.bits_congr hl (fun _ _ _ => by rw [hb])

/-- A read depends on its own bytes only. -/
theorem State.readBytes_congr {s s' : State} : ∀ (n off acc : Nat),
    (∀ k, k < n → s'.secBuf.get (off + k) = s.secBuf.get (off + k)) →
    s'.readBytes n off acc = s.readBytes n off acc := by
  intro n
  induction n with
  | zero => intros; rfl
  | succ n ih =>
    intro off acc h
    have h0 : s'.secByte off = s.secByte off := by
      simp only [State.secByte, show s'.secBuf.get off = s.secBuf.get off from h 0 (by omega)]
    simp only [State.readBytes, h0]
    congr 1
    funext b
    exact ih _ _ (fun k hk => by rw [show off + 1 + k = off + (k + 1) by omega]; exact h (k + 1) (by omega))

/-! ### The value of a bit string -/

theorem bitsValue_append_one (bs : List Bool) (b : Bool) :
    bitsValue (bs ++ [b]) = bitsValue bs * 2 + b.toNat := by simp [bitsValue]

theorem bitsValue_lt (bs : List Bool) : bitsValue bs < 2 ^ bs.length := by
  induction bs using List.reverseRecOn with
  | nil => simp [bitsValue]
  | append_singleton bs b ih =>
    rw [bitsValue_append_one, List.length_append, List.length_singleton, pow_succ]
    have := b.toNat_lt
    omega

/-- Bit n - 1 - k of the value of n bits is the k-th bit (R11). -/
theorem bitsValue_testBit (bs : List Bool) (k : Nat) (h : k < bs.length) :
    (bitsValue bs).testBit (bs.length - 1 - k) = bs[k] := by
  induction bs using List.reverseRecOn with
  | nil => simp at h
  | append_singleton bs b ih =>
    rw [bitsValue_append_one]
    simp only [List.length_append, List.length_singleton] at h ⊢
    by_cases hk : k = bs.length
    · subst hk
      simp only [Nat.add_sub_cancel, Nat.sub_self, List.getElem_concat_length]
      rw [Nat.testBit_zero]
      cases b <;> simp
    · have hk' : k < bs.length := by omega
      rw [show bs.length + 1 - 1 - k = (bs.length - 1 - k) + 1 by omega, Nat.testBit_succ,
        List.getElem_append_left hk', ← ih hk']
      congr 1
      have := b.toNat_lt
      omega

/-- The value of a bit string in two parts. -/
theorem bitsValue_append (as bs : List Bool) : bitsValue (as ++ bs) = bitsValue as * 2 ^ bs.length + bitsValue bs := by
  induction bs using List.reverseRecOn with
  | nil => simp [bitsValue]
  | append_singleton bs b ih =>
    rw [← List.append_assoc, bitsValue_append_one, ih, bitsValue_append_one, List.length_append, List.length_singleton,
      pow_succ]
    ring

/-- The bits of a byte, the first the most significant (R11). -/
def byteBits (b : Byte) : List Bool :=
  [b.getLsbD 7, b.getLsbD 6, b.getLsbD 5, b.getLsbD 4, b.getLsbD 3, b.getLsbD 2, b.getLsbD 1, b.getLsbD 0]

theorem bitsValue_byteBits : ∀ b : Byte, bitsValue (byteBits b) = b.toNat := by decide

/-- Byte order and bit order agree (R11). -/
theorem bitsValue_flatMap (bs : List Byte) :
    bitsValue (bs.flatMap byteBits) = bigEndian bs ∧ (bs.flatMap byteBits).length = 8 * bs.length := by
  induction bs using List.reverseRecOn with
  | nil => simp [bitsValue, bigEndian]
  | append_singleton bs b ih =>
    refine ⟨?_, by simp [ih.2, byteBits]; omega⟩
    simp only [List.flatMap_append, bitsValue_append, ih.1, List.flatMap_cons, List.flatMap_nil, List.append_nil,
      bitsValue_byteBits]
    simp [bigEndian, byteBits]

/-- Written bytes are written bits (R11). -/
theorem State.holdsBits_of_holds (s : State) : ∀ (bs : List Byte) (off : Nat), s.holds off bs →
    s.holdsBits (8 * off) (bs.flatMap byteBits) := by
  intro bs
  induction bs with
  | nil => intro off _; simp
  | cons b bs ih =>
    intro off h
    rw [State.holds_cons] at h
    rw [List.flatMap_cons, State.holdsBits_append]
    refine ⟨?_, ?_⟩
    · intro k c hc
      have hk : k < 8 := by
        have := (List.getElem?_eq_some_iff.1 hc).1; simpa [byteBits] using this
      simp only [Memory.bit, show (8 * off + k) / 8 = off by omega, h.1, Option.map_some]
      rw [← hc, show (8 * off + k) % 8 = k by omega]
      have : k = 0 ∨ k = 1 ∨ k = 2 ∨ k = 3 ∨ k = 4 ∨ k = 5 ∨ k = 6 ∨ k = 7 := by omega
      rcases this with rfl | rfl | rfl | rfl | rfl | rfl | rfl | rfl <;> rfl
    · have := ih (off + 1) h.2
      rwa [show 8 * (off + 1) = 8 * off + (byteBits b).length by simp [byteBits]; omega] at this

/-- The field of width 8k at bit address 8j is the big-endian k-byte value at j (R11). -/
theorem State.bits_of_bytes {s : State} {off : Nat} {bs : List Byte} (h : s.holds off bs)
    (hb : off + bs.length ≤ s.bufLen.toNat) : s.bits (8 * off) (8 * bs.length) = .ok (bigEndian bs) := by
  have := State.bits_holds (s.holdsBits_of_holds bs off h) (by rw [(bitsValue_flatMap bs).2]; omega)
  rwa [(bitsValue_flatMap bs).1, (bitsValue_flatMap bs).2] at this

/-- The value of a field's bits is the field (R11). -/
theorem State.isField_of_holdsBits {s : State} {p : Nat} {bs : List Bool} (h : s.holdsBits p bs)
    (hl : bs.length ≤ 32) : s.isField p bs.length (BitVec.ofNat 32 (bitsValue bs)) := by
  have hlt := bitsValue_lt bs
  have hpow : 2 ^ bs.length ≤ 2 ^ 32 := Nat.pow_le_pow_right (by decide) hl
  refine ⟨?_, fun k hk => ?_⟩
  · rw [BitVec.toNat_ofNat, Nat.mod_eq_of_lt (by omega)]
    exact hlt
  · rw [h k bs[k] (List.getElem?_eq_getElem hk), BitVec.getLsbD_ofNat, bitsValue_testBit bs k hk]
    simp
    omega

end Sys2Proof.Machine
end

