-- ==== Sys2Proof/Laws/Commands.lean ====
section
/-! SUPPORT. What completion can do (R122 to R124), which words are illegal (R95), and what the CRC and the header reads answer (R170, R172). -/

namespace Sys2Proof.Machine

/-! ### Completion -/

@[simp] theorem State.complete_ok (s : State) (w : Writes) : s.complete (.ok w) = .next (s.write w).markDone := rfl
@[simp] theorem State.complete_raise (s : State) (c : ErrCode) (i : Word) :
    s.complete (raise c i) = .next (s.takeError c i) := rfl
@[simp] theorem State.complete_fault (s : State) (f : Fault) : s.complete (.error (.fault f)) = .fault f := rfl
@[simp] theorem State.completeString_ok (s : State) (w : Writes) :
    s.completeString (.ok w) = .next (s.write w).markDone := rfl
@[simp] theorem State.completeString_raise (s : State) (c : ErrCode) (i : Word) :
    s.completeString (raise c i) = .next (s.takeError c i).clearOutput := rfl
@[simp] theorem State.completeString_fault (s : State) (f : Fault) :
    s.completeString (.error (.fault f)) = .fault f := rfl
@[simp] theorem State.completeString_refusal (s : State) (r : Refusal) :
    s.completeString (.error (.refusal r)) = .refused r := rfl

/-- A command completes with what its Exec names, or with its error. -/
theorem State.complete_eq_next {s t : State} {r : Exec Writes} : s.complete r = .next t ↔
    (∃ w, r = .ok w ∧ t = (s.write w).markDone) ∨ (∃ c i, r = raise c i ∧ t = s.takeError c i) := by
  match r with
  | .ok w => simp [raise, eq_comm]
  | .error (.error c i) => simp [State.complete, raise, eq_comm]
  | .error (.fault f) => simp [State.complete, raise]
  | .error (.refusal r) => simp [State.complete, raise]

theorem State.complete_eq_fault {s : State} {r : Exec Writes} {f : Fault} :
    s.complete r = .fault f ↔ r = .error (.fault f) := by
  match r with
  | .ok w => simp
  | .error (.error c i) => simp [State.complete]
  | .error (.fault f) => simp [State.complete]
  | .error (.refusal r) => simp [State.complete]

theorem State.complete_eq_refused {s : State} {r : Exec Writes} {x : Refusal} :
    s.complete r = .refused x ↔ r = .error (.refusal x) := by
  match r with
  | .ok w => simp
  | .error (.error c i) => simp [State.complete]
  | .error (.fault f) => simp [State.complete]
  | .error (.refusal r) => simp [State.complete]

/-- A string command completes with what its Exec names, or with its error and an empty OUTBUF. -/
theorem State.completeString_eq_next {s t : State} {r : Exec Writes} : s.completeString r = .next t ↔
    (∃ w, r = .ok w ∧ t = (s.write w).markDone) ∨
    (∃ c i, r = raise c i ∧ t = (s.takeError c i).clearOutput) := by
  match r with
  | .ok w => simp [raise, eq_comm]
  | .error (.error c i) => simp [State.completeString, raise, eq_comm]
  | .error (.fault f) => simp [State.completeString, raise]
  | .error (.refusal r) => simp [State.completeString, raise]

theorem State.completeString_eq_fault {s : State} {r : Exec Writes} {f : Fault} :
    s.completeString r = .fault f ↔ r = .error (.fault f) := by
  match r with
  | .ok w => simp
  | .error (.error c i) => simp [State.completeString]
  | .error (.fault f) => simp [State.completeString]
  | .error (.refusal r) => simp [State.completeString]

theorem State.completeString_eq_refused {s : State} {r : Exec Writes} {x : Refusal} :
    s.completeString r = .refused x ↔ r = .error (.refusal x) := by
  match r with
  | .ok w => simp
  | .error (.error c i) => simp [State.completeString]
  | .error (.fault f) => simp [State.completeString]
  | .error (.refusal r) => simp [State.completeString]

/-! ### Words -/

/-- A word the decoder rejects fails with ILLEGAL_CMD (R125). -/
theorem wordIllegal_of_decode {w : Word} {e : DecodeError} (h : decode w = .error e) : WordIllegal w := by
  intro s hs
  subst hs
  simp only [State.engineStep, State.pending, h]
  rfl

/-- The words of an opcode whose rows take no modifier. -/
theorem illegalUnlessPlain_of (op : Byte) (h : ∀ m, m ≠ 0 → ∃ e, decodeOp op m = .error e) :
    IllegalUnlessPlain op := by
  intro w hop hne
  by_cases hz : zField w = 0
  · obtain ⟨e, he⟩ := h (mField w) (hne.resolve_right (fun hn => hn hz))
    exact wordIllegal_of_decode (e := e) (by simp [decode, hz, hop, he])
  · exact wordIllegal_of_decode (e := .reservedZ (zField w)) (by rw [decode, if_neg hz])

/-- The words of an opcode whose M is a width. -/
theorem illegalUnlessWidth_of (op : Byte) (mk : Byte → Instr) (h : ∀ m, decodeOp op m = decodeWidth op m mk) :
    IllegalUnlessWidth op := by
  intro w hop hne
  by_cases hz : zField w = 0
  · have hw : widthLegal (mField w) = false := by
      rcases hne with h0 | h32 | hn
      · rw [h0]; rfl
      · simp [widthLegal]; omega
      · exact absurd hz hn
    exact wordIllegal_of_decode (e := .widthOutOfRange op (mField w)) (by simp [decode, hz, hop, h, decodeWidth, hw])
  · exact wordIllegal_of_decode (e := .reservedZ (zField w)) (by rw [decode, if_neg hz])

/-- The encoding of a command whose row has no modifier. -/
theorem plainCommand_of (op : Byte) (i : Instr) (hd : decode (op.setWidth 32) = .ok i)
    (h : ∀ m, decodeOp op m = decodePlain op m i) : PlainCommand op i :=
  ⟨hd, illegalUnlessPlain_of op fun m hm => ⟨.modifierNotZero op m, by rw [h, decodePlain, if_neg hm]⟩⟩

/-- The word of a width command, as its fields. -/
theorem widthWord_eq (w op : Byte) : BitVec.ofNat 32 (w.toNat * 256 + op.toNat) = (0 : Half) ++ w ++ op := by
  have hw := w.isLt
  have ho := op.isLt
  apply BitVec.eq_of_toNat_eq
  simp only [BitVec.toNat_ofNat, BitVec.toNat_append, Nat.shiftLeft_eq]
  have h := Nat.two_pow_add_eq_or_of_lt (i := 8) ho w.toNat
  have h0 : ((0 : Half).toNat * 2 ^ 8 ||| w.toNat) * 2 ^ 8 = 2 ^ 8 * w.toNat := by simp [Nat.mul_comm]
  rw [h0, ← h, Nat.mod_eq_of_lt (by omega), Nat.mul_comm]

/-- The encoding of a command whose row has a width. -/
theorem widthCommand_of (op : Byte) (mk : Byte → Instr) (h : ∀ m, decodeOp op m = decodeWidth op m mk) :
    WidthCommand op mk := by
  refine ⟨fun w h1 h2 => ?_, illegalUnlessWidth_of op mk h⟩
  have hl : widthLegal w = true := by simp [widthLegal, h1, h2]
  have e := widthWord_eq w op
  have f1 := opField_commandWord op w
  have f2 := mField_commandWord op w
  have f3 := zField_commandWord op w
  simp only [commandWord] at f1 f2 f3
  rw [e, decode, f1, f2, f3, if_pos rfl, h, decodeWidth, if_pos hl]

theorem widthLegal_of {w : Byte} (h1 : 1 ≤ w.toNat) (h2 : w.toNat ≤ 32) : widthLegal w = true := by
  simp [widthLegal, h1, h2]

/-! ### The CRC over SECBUF and the header -/

/-- The loop of R170 over written bytes. -/
theorem State.crcLoop_holds (s : State) : ∀ (bs : List Byte) (off : Nat) (c : Word), s.holds off bs →
    off + bs.length ≤ s.bufLen.toNat → s.crcLoop bs.length off c = .ok (bs.foldl crcByte c) := by
  intro bs
  induction bs with
  | nil => intros; rfl
  | cons b bs ih =>
    intro off c h hb
    rw [State.holds_cons] at h
    simp only [List.length_cons] at hb ⊢
    simp only [State.crcLoop, State.memRead_one h.1 (by omega), Exec.ok_bind, BitVec.ofNat_toNat,
      BitVec.setWidth_eq, ih _ _ h.2 (by omega), List.foldl_cons]

/-- CRC(off, n) over written bytes in bounds (R170). -/
theorem State.crc_holds {s : State} {off : Nat} {bs : List Byte} (h : s.holds off bs)
    (hb : off + bs.length ≤ s.bufLen.toNat) : s.crc off bs.length = .ok (crcOf bs) := by
  have e : s.bytesInBounds off bs.length = true := by simpa [State.bytesInBounds] using hb
  simp [State.crc, e, s.crcLoop_holds bs off _ h hb, crcOf]

/-- CRC(off, n) out of bounds (R170). -/
theorem State.crc_outOfBounds {s : State} {off n : Nat} (hb : s.bufLen.toNat < off + n) :
    s.crc off n = raise .outOfBounds (BitVec.ofNat 32 off) := by
  have e : s.bytesInBounds off n = false := by simpa [State.bytesInBounds] using hb
  simp [State.crc, e]

/-- All the CRC loop can do in bounds. -/
theorem State.crcLoop_cases (s : State) (n : Nat) : ∀ off c, off + n ≤ s.bufLen.toNat →
    (∃ bs, bs.length = n ∧ s.holds off bs ∧ s.crcLoop n off c = .ok (bs.foldl crcByte c)) ∨
    (∃ k, k < n ∧ s.secBuf.get (off + k) = none ∧
      s.crcLoop n off c = .error (.fault (.undefReadSecBuf (off + k)))) := by
  induction n with
  | zero => intro off c _; exact .inl ⟨[], rfl, by simp, rfl⟩
  | succ n ih =>
    intro off c hb
    cases hg : s.secBuf.get off with
    | none =>
      exact .inr ⟨0, by omega, by simpa using hg,
        by simp [State.crcLoop, State.memRead_one_unwritten hg (by omega)]⟩
    | some b =>
      rcases ih (off + 1) (crcByte c b) (by omega) with ⟨bs, hl, hh, hr⟩ | ⟨k, hk, hn, hr⟩
      · exact .inl ⟨b :: bs, by simp [hl], (s.holds_cons _ _ _).2 ⟨hg, hh⟩,
          by simp [State.crcLoop, State.memRead_one hg (by omega), hr]⟩
      · refine .inr ⟨k + 1, by omega, by rwa [show off + (k + 1) = off + 1 + k by omega], ?_⟩
        simp [State.crcLoop, State.memRead_one hg (by omega), hr, show off + (k + 1) = off + 1 + k by omega]

/-- All CRC(off, n) can do (R170). -/
theorem State.crc_cases (s : State) (off n : Nat) :
    (off + n ≤ s.bufLen.toNat ∧ ∃ bs, bs.length = n ∧ s.holds off bs ∧ s.crc off n = .ok (crcOf bs)) ∨
    (s.bufLen.toNat < off + n ∧ s.crc off n = raise .outOfBounds (BitVec.ofNat 32 off)) ∨
    (off + n ≤ s.bufLen.toNat ∧ ∃ k, k < n ∧ s.secBuf.get (off + k) = none ∧
      s.crc off n = .error (.fault (.undefReadSecBuf (off + k)))) := by
  by_cases hb : off + n ≤ s.bufLen.toNat
  · have e : s.bytesInBounds off n = true := by simpa [State.bytesInBounds] using hb
    rcases s.crcLoop_cases n off Config.crcSeed hb with ⟨bs, hl, hh, hr⟩ | ⟨k, hk, hn, hr⟩
    · exact .inl ⟨hb, bs, hl, hh, by simp [State.crc, e, hr, crcOf]⟩
    · exact .inr (.inr ⟨hb, k, hk, hn, by simp [State.crc, e, hr]⟩)
  · exact .inr (.inl ⟨by omega, State.crc_outOfBounds (by omega)⟩)

/-- ReadHdr over a written header (R172). -/
theorem State.readHdr_holds {s : State} {b0 b1 b2 : Byte} (h : s.holds 0 [b0, b1, b2])
    (hb : 3 ≤ s.bufLen.toNat) : s.readHdr = .ok (Header.ofBytes b0 b1 b2) := by
  simp only [State.holds_cons] at h
  obtain ⟨h0, h1, h2, -⟩ := h
  have e : s.bytesInBounds 0 3 = true := by simpa [State.bytesInBounds] using hb
  simp [State.readHdr, e, State.memRead_one h0 (by omega), State.memRead_one h1 (by omega),
    State.memRead_one h2 (by omega)]

/-- ReadHdr of a buffer too short for a header (R172). -/
theorem State.readHdr_short {s : State} (hb : s.bufLen.toNat < 3) : s.readHdr = raise .outOfBounds 0 := by
  have e : s.bytesInBounds 0 3 = false := by simpa [State.bytesInBounds] using hb
  simp [State.readHdr, e]

/-- All ReadHdr can do (R172). -/
theorem State.readHdr_cases (s : State) :
    (3 ≤ s.bufLen.toNat ∧ ∃ b0 b1 b2, s.holds 0 [b0, b1, b2] ∧ s.readHdr = .ok (Header.ofBytes b0 b1 b2)) ∨
    (s.bufLen.toNat < 3 ∧ s.readHdr = raise .outOfBounds 0) ∨
    (3 ≤ s.bufLen.toNat ∧ ∃ k, k < 3 ∧ s.secBuf.get k = none ∧
      s.readHdr = .error (.fault (.undefReadSecBuf k))) := by
  by_cases hb : 3 ≤ s.bufLen.toNat
  · have e : s.bytesInBounds 0 3 = true := by simpa [State.bytesInBounds] using hb
    cases h0 : s.secBuf.get 0 with
    | none => exact .inr (.inr ⟨hb, 0, by omega, h0, by
        simp [State.readHdr, e, State.memRead_one_unwritten h0 (by omega)]⟩)
    | some b0 =>
      cases h1 : s.secBuf.get 1 with
      | none => exact .inr (.inr ⟨hb, 1, by omega, h1, by
          simp [State.readHdr, e, State.memRead_one h0 (by omega), State.memRead_one_unwritten h1 (by omega)]⟩)
      | some b1 =>
        cases h2 : s.secBuf.get 2 with
        | none => exact .inr (.inr ⟨hb, 2, by omega, h2, by
            simp [State.readHdr, e, State.memRead_one h0 (by omega), State.memRead_one h1 (by omega),
              State.memRead_one_unwritten h2 (by omega)]⟩)
        | some b2 =>
          have hh : s.holds 0 [b0, b1, b2] := by simp [State.holds_cons, h0, h1, h2]
          exact .inl ⟨hb, b0, b1, b2, hh, State.readHdr_holds hh hb⟩
  · exact .inr (.inl ⟨by omega, State.readHdr_short (by omega)⟩)

/-- HasCRC by the bytes of the header (R173). -/
theorem hasTrailer_iff (b : Build) (b0 b1 b2 : Byte) :
    hasTrailer b (Header.ofBytes b0 b1 b2) = true ↔ sectionHasCrc b b0 b1 := by
  simp [hasTrailer, Header.ofBytes, sectionHasCrc]

/-- The raw length by the bytes of the header (R172). -/
theorem raw_toNat (b0 b1 b2 : Byte) : (Header.ofBytes b0 b1 b2).raw.toNat = rawLength b1 b2 := by
  simp only [Header.ofBytes, rawLength, BitVec.toNat_append, BitVec.extractLsb'_toNat, Nat.shiftRight_zero]
  rw [← Nat.shiftLeft_add_eq_or_of_lt b2.isLt, Nat.shiftLeft_eq]

/-- PhysLen by the bytes of the header (R174). -/
theorem physLen_eq (b : Build) (b0 b1 b2 : Byte) :
    physLen b (Header.ofBytes b0 b1 b2) = sectionLength b b0 b1 b2 := by
  have h := raw_toNat b0 b1 b2
  have e : BitVec.ofNat 12 (rawLength b1 b2) = (Header.ofBytes b0 b1 b2).raw := by
    rw [← h, BitVec.ofNat_toNat, BitVec.setWidth_eq]
  simp only [physLen, sectionLength, h, e]
  rfl

/-- Bit 6 of a byte as a number. -/
theorem ofBit_six : ∀ b : Byte, (Word.ofBit (b.getLsbD 6)).toNat = b.toNat / 64 % 2 := by decide

/-- Bit 7 of a byte as a number. -/
theorem ofBit_seven : ∀ b : Byte, (Word.ofBit (b.getLsbD 7)).toNat = b.toNat / 128 := by decide

/-- SECHDR's RES1 as a sum of its fields (R175). -/
theorem headerWord_eq (b : Build) (b0 b1 b2 : Byte) {h : Nat}
    (hh : (sectionHasCrc b b0 b1 ∧ h = 1) ∨ (¬sectionHasCrc b b0 b1 ∧ h = 0)) :
    headerWord b (Header.ofBytes b0 b1 b2) = 
      BitVec.ofNat 32 (rawLength b1 b2 * 2 ^ 16 + h * 2 ^ 10 + b1.toNat / 64 % 2 * 2 ^ 9 + b1.toNat / 128 * 2 ^ 8 + b0.toNat) := by
  have hh' : Word.ofBit (hasTrailer b (Header.ofBytes b0 b1 b2)) = BitVec.ofNat 32 h := by
    rw [← hasTrailer_iff b b0 b1 b2] at hh
    rcases hh with ⟨h1, rfl⟩ | ⟨h1, rfl⟩
    · rw [h1]; rfl
    · simp at h1; rw [h1]; rfl
  have hr := raw_toNat b0 b1 b2
  have hb1 := b1.isLt
  have hb0 := b0.isLt
  have hh2 : h < 2 := by omega
  have hp := ofBit_six b1
  have hs := ofBit_seven b1
  have hraw : (Header.ofBytes b0 b1 b2).raw.toNat < 4096 := (Header.ofBytes b0 b1 b2).raw.isLt
  apply BitVec.eq_of_toNat_eq
  simp only [headerWord, hh', BitVec.toNat_or, BitVec.toNat_shiftLeft, BitVec.toNat_setWidth, BitVec.toNat_ofNat, hr]
  simp only [Header.ofBytes, hp, hs] at *
  rw [hr] at hraw
  simp only [Nat.shiftLeft_eq]
  rw [Nat.mod_eq_of_lt (by omega : rawLength b1 b2 < 2^32), Nat.mod_eq_of_lt (by omega : rawLength b1 b2 * 2^16 < 2^32)]
  rw [Nat.mod_eq_of_lt (by omega : h < 2^32), Nat.mod_eq_of_lt (by omega : h *2^10 < 2^32)]
  rw [Nat.mod_eq_of_lt (by omega : b1.toNat / 64 % 2 * 2^9 < 2^32), Nat.mod_eq_of_lt (by omega : b1.toNat / 128 * 2^8 < 2^32), Nat.mod_eq_of_lt (by omega : b0.toNat < 2^32)]
  have e1 : rawLength b1 b2 * 2 ^ 16 ||| h * 2^10 = rawLength b1 b2 * 2 ^ 16 + h * 2^10 := by
    rw [← Nat.shiftLeft_eq, ← Nat.shiftLeft_add_eq_or_of_lt (by omega)]
  have e2 : rawLength b1 b2 * 2 ^ 16 + h * 2^10 ||| b1.toNat / 64 % 2 * 2^9 = rawLength b1 b2 * 2 ^ 16 + h * 2^10 + b1.toNat / 64 % 2 * 2^9 := by
    rw [show rawLength b1 b2 * 2 ^ 16 + h * 2^10 = (rawLength b1 b2 * 2 ^ 6 + h) <<< 10 by rw [Nat.shiftLeft_eq]; omega, ← Nat.shiftLeft_add_eq_or_of_lt (by omega)]
  have e3 : rawLength b1 b2 * 2 ^ 16 + h * 2^10 + b1.toNat / 64 % 2 * 2^9 ||| b1.toNat / 128 * 2^8 = rawLength b1 b2 * 2 ^ 16 + h * 2^10 + b1.toNat / 64 % 2 * 2^9 + b1.toNat / 128 * 2^8 := by
    rw [show rawLength b1 b2 * 2 ^ 16 + h * 2^10 + b1.toNat / 64 % 2 * 2^9 = (rawLength b1 b2 * 2 ^ 7 + h * 2 + b1.toNat / 64 % 2) <<< 9 by rw [Nat.shiftLeft_eq]; omega, ← Nat.shiftLeft_add_eq_or_of_lt (by omega)]
  have e4 : rawLength b1 b2 * 2 ^ 16 + h * 2^10 + b1.toNat / 64 % 2 * 2^9 + b1.toNat / 128 * 2^8 ||| b0.toNat = rawLength b1 b2 * 2 ^ 16 + h * 2^10 + b1.toNat / 64 % 2 * 2^9 + b1.toNat / 128 * 2^8 + b0.toNat := by
    rw [show rawLength b1 b2 * 2 ^ 16 + h * 2^10 + b1.toNat / 64 % 2 * 2^9 + b1.toNat / 128 * 2^8 = (rawLength b1 b2 * 2 ^ 8 + h * 4 + b1.toNat / 64 % 2 * 2 + b1.toNat / 128) <<< 8 by rw [Nat.shiftLeft_eq]; omega, ← Nat.shiftLeft_add_eq_or_of_lt (by omega)]
  rw [e1, e2, e3, e4]
  symm
  apply Nat.mod_eq_of_lt
  omega

/-- A word written big-endian is held as its four bytes (R12, R180). -/
theorem State.holds_writeBE_word (s : State) (m : Memory) (off : Nat) (v : Word) :
    State.holds { s with secBuf := m.writeBE 4 off v.toNat } off (wordBytes v) := by
  intro k b hb
  have hk : k < 4 := by
    have := List.getElem?_eq_some_iff.1 hb
    obtain ⟨h, -⟩ := this; simpa [wordBytes] using h
  simp only [Memory.get_writeBE_inside _ _ _ _ _ hk]
  congr 1
  rw [← Option.some_inj, ← hb]
  have hv := v.isLt
  rcases k with _ | _ | _ | _ | k
  all_goals first | omega | simp only [wordBytes, List.getElem?_cons_zero, List.getElem?_cons_succ, Option.some_inj]
  all_goals apply BitVec.eq_of_toNat_eq; simp [BitVec.extractLsb'_toNat, Nat.shiftRight_eq_div_pow]

/-- An error's information where 32 bits hold it. -/
theorem infoWord_of_lt {n : Nat} (h : n < 2 ^ 32) : infoWord n = BitVec.ofNat 32 n := by
  simp only [infoWord, h, if_true]

/-- The big-endian value of a word's four bytes is the word (R60). -/
theorem bigEndian_wordBytes (v : Word) : BitVec.ofNat 32 (bigEndian (wordBytes v)) = v := by
  apply BitVec.eq_of_toNat_eq
  simp only [bigEndian, wordBytes, List.foldl, BitVec.extractLsb'_toNat, BitVec.toNat_ofNat,
    Nat.shiftRight_eq_div_pow]
  have := v.isLt
  omega

/-- The big-endian value of a word's four bytes, as a number. -/
theorem bigEndian_wordBytes_toNat (v : Word) : bigEndian (wordBytes v) = v.toNat := by
  simp only [bigEndian, wordBytes, List.foldl, BitVec.extractLsb'_toNat, Nat.shiftRight_eq_div_pow]
  have := v.isLt
  omega

/-- Any four bytes are the bytes of a word. -/
theorem eq_wordBytes {bs : List Byte} (h : bs.length = 4) : ∃ v : Word, bs = wordBytes v := by
  match bs, h with
  | [a, b, c, d], _ =>
    refine ⟨BitVec.ofNat 32 (((a.toNat * 256 + b.toNat) * 256 + c.toNat) * 256 + d.toNat), ?_⟩
    have := a.isLt
    have := b.isLt
    have := c.isLt
    have := d.isLt
    simp only [wordBytes, List.cons.injEq, and_true]
    refine ⟨?_, ?_, ?_, ?_⟩ <;> apply BitVec.eq_of_toNat_eq <;>
      simp only [BitVec.extractLsb'_toNat, BitVec.toNat_ofNat, Nat.shiftRight_eq_div_pow] <;> omega

end Sys2Proof.Machine
end

