-- ==== Sys2Proof/Laws/Crc.lean ====
section
/-! SUPPORT. The algebra of the CRC (R171): a message bit acts on the top bit of the register, a step with no message bit is injective because P has a non-zero constant term, and the four bytes of a word act on the register as the word itself. -/

namespace Sys2Proof.Machine

/-- One step with a message bit, plus the rest of the word shifted, is one step of the sum with no message bit. -/
theorem crcBit_xor (c u : Word) : crcBit c (u.getLsbD 31) ^^^ (u <<< 1) = crcBit (c ^^^ u) false := by
  unfold crcBit
  rw [BitVec.getLsbD_xor, BitVec.shiftLeft_xor_distrib, Bool.xor_false]
  split <;> simp only [BitVec.xor_assoc, BitVec.xor_comm Config.crcPoly]

/-- A step with no message bit is injective: bit 0 of its result tells whether CRC_POLY was added. -/
theorem crcBit_false_injective {x y : Word} (h : crcBit x false = crcBit y false) : x = y := by
  have b0 : ∀ z : Word, (crcBit z false).getLsbD 0 = z.getLsbD 31 := by
    intro z
    unfold crcBit
    rw [Bool.xor_false]
    split
    · rename_i hz; rw [hz]; simp [Config.crcPoly]
    · rename_i hz; simp at hz; simp [hz]
  have top : x.getLsbD 31 = y.getLsbD 31 := by rw [← b0 x, ← b0 y, h]
  have hs : x <<< 1 = y <<< 1 := by
    unfold crcBit at h
    rw [Bool.xor_false, Bool.xor_false, top] at h
    split at h
    · exact (BitVec.xor_left_inj _).1 h
    · exact h
  apply BitVec.eq_of_getLsbD_eq
  intro i hi
  by_cases hi31 : i = 31
  · rw [hi31, top]
  · have := congrArg (fun z : Word => z.getLsbD (i + 1)) hs
    simpa only [BitVec.getLsbD_shiftLeft, show i + 1 < 32 by omega, show ¬(i + 1 < 1) by omega, decide_true,
      decide_false, Bool.not_false, Bool.true_and, Nat.add_sub_cancel] using this

/-- n steps with no message bit. -/
def crcIdle : Nat → Word → Word
  | 0, c => c
  | n + 1, c => crcIdle n (crcBit c false)

theorem crcIdle_injective : ∀ (n : Nat) {x y : Word}, crcIdle n x = crcIdle n y → x = y
  | 0, _, _, h => h
  | n + 1, _, _, h => crcBit_false_injective (crcIdle_injective n h)

theorem crcIdle_zero : ∀ n, crcIdle n 0 = 0
  | 0 => rfl
  | n + 1 => by
    have : crcBit 0 false = 0 := rfl
    rw [crcIdle, this, crcIdle_zero n]

/-- The first n bits of a word, most significant first, as message bits. -/
theorem crcBits_word (n : Nat) : ∀ (c u : Word),
    ((List.range n).foldl (fun c k => crcBit c (u.getLsbD (31 - k))) c) ^^^ (u <<< n) = crcIdle n (c ^^^ u) ∨ 32 < n := by
  induction n with
  | zero => intro c u; left; simp [crcIdle]
  | succ n ih =>
    intro c u
    by_cases hn : 32 < n + 1
    · exact .inr hn
    · left
      have h := (ih (crcBit c (u.getLsbD 31)) (u <<< 1)).resolve_right (by omega)
      rw [crcBit_xor] at h
      rw [crcIdle, ← h, List.range_succ_eq_map, List.foldl_cons, List.foldl_map]
      congr 1
      · apply List.foldl_ext
        intro a k hk
        rw [List.mem_range] at hk
        rw [BitVec.getLsbD_shiftLeft]
        simp [show 31 - k < 32 by omega, show ¬(31 - k < 1) by omega, show 31 - (k + 1) = 31 - k - 1 by omega]
      · rw [← BitVec.shiftLeft_add, Nat.add_comm]

/-- The four bytes of a word as a message: 32 steps of the sum. -/
theorem crcBytes_word (c t : Word) : (wordBytes t).foldl crcByte c = crcIdle 32 (c ^^^ t) := by
  have h := (crcBits_word 32 c t).resolve_right (by omega)
  rw [← h, show t <<< 32 = 0#32 by simp, BitVec.xor_zero]
  simp [wordBytes, crcByte, List.range, List.range.loop, BitVec.getLsbD_extractLsb']

/-- The CRC of a message and a word after it. -/
theorem crcOf_append_word (m : List Byte) (t : Word) : crcOf (m ++ wordBytes t) = crcIdle 32 (crcOf m ^^^ t) := by
  rw [crcOf, List.foldl_append, crcBytes_word, crcOf]

end Sys2Proof.Machine
end

