-- ==== Sys2Proof/Laws/CrcPoly.lean ====
section
/-! SUPPORT. The CRC as a polynomial over GF(2) (R171): what one message bit, and a whole message, does to the sum, up to a multiple of P. -/

namespace Sys2Proof.Machine

open Polynomial

/-- The polynomial over GF(2) of a bit string, first bit the highest coefficient. -/
noncomputable def bitPoly (bs : List Bool) : (ZMod 2)[X] := bs.foldl (fun p b => p * X + if b then 1 else 0) 0

theorem bitPoly_append_one (bs : List Bool) (b : Bool) :
    bitPoly (bs ++ [b]) = bitPoly bs * X + if b then 1 else 0 := by simp [bitPoly]

/-- The same by the coefficients: bit i at x^i. -/
noncomputable def wordPoly (n : Nat) (v : Nat → Bool) : (ZMod 2)[X] := ∑ i ∈ Finset.range n, if v i then X ^ i else 0

/-- The bits of a value, first bit at the highest power. -/
theorem bitPoly_range (n : Nat) (v : Nat → Bool) :
    bitPoly ((List.range n).map fun i => v (n - 1 - i)) = wordPoly n v := by
  have h : ∀ (n : Nat) (v : Nat → Bool),
      bitPoly ((List.range n).map fun i => v i) = wordPoly n fun i => v (n - 1 - i) := by
    intro n
    induction n with
    | zero => intro v; rfl
    | succ n ih =>
      intro v
      rw [List.range_succ, List.map_append, List.map_singleton, bitPoly_append_one, ih, wordPoly, wordPoly,
        Finset.sum_range_succ', Finset.sum_mul]
      congr 1
      apply Finset.sum_congr rfl
      intro i hi
      rw [show n + 1 - 1 - (i + 1) = n - 1 - i by omega, ite_mul, zero_mul, pow_succ]
  rw [h]
  apply Finset.sum_congr rfl
  intro i hi
  rw [Finset.mem_range] at hi
  simp only [show n - 1 - (n - 1 - i) = i by omega]

/-- The bits of a value are its coefficients. -/
theorem bitPoly_msbFirst {n : Nat} (v : BitVec n) : bitPoly (msbFirst v) = wordPoly n v.getLsbD :=
  bitPoly_range n v.getLsbD

/-- Over GF(2) an exclusive or is a sum. -/
theorem wordPoly_xor (n : Nat) (a b : Nat → Bool) : wordPoly n (fun i => a i ^^ b i) = wordPoly n a + wordPoly n b := by
  rw [wordPoly, wordPoly, wordPoly, ← Finset.sum_add_distrib]
  apply Finset.sum_congr rfl
  intro i _
  cases a i <;> cases b i <;> simp [CharTwo.add_self_eq_zero]

theorem wordPoly_degree (n : Nat) (v : Nat → Bool) : (wordPoly n v).degree < n := by
  rw [← Polynomial.mem_degreeLT]
  refine Submodule.sum_mem _ fun i hi => ?_
  rw [Finset.mem_range] at hi
  split
  · rw [Polynomial.mem_degreeLT, degree_X_pow]; exact_mod_cast hi
  · exact Submodule.zero_mem _

/-- P(x) = x^32 + 0x04C11DB7 (R6, R171). -/
noncomputable def crcPolynomial : (ZMod 2)[X] := X ^ 32 + bitPoly (msbFirst (0x04C11DB7 : Word))

/-- A shift by one multiplies by x and drops x^32. -/
theorem bitPoly_shiftLeft (c : Word) :
    bitPoly (msbFirst (c <<< 1)) = bitPoly (msbFirst c) * X + if c.getLsbD 31 then X ^ 32 else 0 := by
  rw [bitPoly_msbFirst, bitPoly_msbFirst]
  have e1 : wordPoly 32 (c <<< 1).getLsbD =
      (∑ i ∈ Finset.range 31, if c.getLsbD i then X ^ (i + 1) else 0) := by
    rw [wordPoly, Finset.sum_range_succ']
    simp only [BitVec.getLsbD_shiftLeft]
    simp
    apply Finset.sum_congr rfl
    intro i hi
    rw [Finset.mem_range] at hi
    simp only [show i + 1 < 32 by omega, true_and]
  have e2 : wordPoly 32 c.getLsbD * X =
      (∑ i ∈ Finset.range 31, if c.getLsbD i then X ^ (i + 1) else 0) + if c.getLsbD 31 then X ^ 32 else 0 := by
    rw [wordPoly, Finset.sum_range_succ, add_mul, Finset.sum_mul]
    simp only [ite_mul, zero_mul, pow_succ]
  rw [e1, e2, add_assoc, CharTwo.add_self_eq_zero, add_zero]

/-- One message bit: the sum is multiplied by x, the bit is added at x^32, and a multiple of P is taken away (R170, R171). -/
theorem bitPoly_crcBit (c : Word) (b : Bool) : ∃ k,
    bitPoly (msbFirst (crcBit c b)) = bitPoly (msbFirst c) * X + (if b then 1 else 0) * X ^ 32 + crcPolynomial * k := by
  have hx : ∀ a b : Word, bitPoly (msbFirst (a ^^^ b)) = bitPoly (msbFirst a) + bitPoly (msbFirst b) := by
    intro a b
    rw [bitPoly_msbFirst, bitPoly_msbFirst, bitPoly_msbFirst, ← wordPoly_xor]
    congr 1; funext i; exact BitVec.getLsbD_xor
  have h2 : ∀ x : (ZMod 2)[X], x + x = 0 := CharTwo.add_self_eq_zero
  unfold crcBit
  generalize hq : bitPoly (msbFirst (0x04C11DB7 : Word)) = Q
  have hx' : bitPoly (msbFirst ((c <<< 1) ^^^ Config.crcPoly)) = bitPoly (msbFirst (c <<< 1)) + Q := by
    rw [hx, Config.crcPoly, hq]
  have hs := bitPoly_shiftLeft c
  rw [crcPolynomial, hq]
  generalize c.getLsbD 31 = h31 at *
  cases h31 <;> cases b
  · exact ⟨0, by simpa using hs⟩
  · refine ⟨1, ?_⟩
    rw [if_pos (by rfl), hx', hs]
    simp only [Bool.false_eq_true, if_false, if_true]
    linear_combination -h2 (X ^ 32)
  · refine ⟨1, ?_⟩
    rw [if_pos (by rfl), hx', hs]
    simp only [Bool.false_eq_true, if_false, if_true]
    ring
  · refine ⟨0, ?_⟩
    rw [if_neg (by simp), hs]
    simp only [if_true]
    ring

/-- The sum after a message and the seed before it, up to a multiple of P (R171). -/
theorem bitPoly_crcBits (bs : List Bool) : ∀ c : Word, ∃ k,
    bitPoly (msbFirst (bs.foldl crcBit c)) =
      X ^ 32 * bitPoly bs + X ^ bs.length * bitPoly (msbFirst c) + crcPolynomial * k := by
  induction bs using List.reverseRecOn with
  | nil => intro c; exact ⟨0, by simp [bitPoly]⟩
  | append_singleton bs b ih =>
    intro c
    obtain ⟨k, hk⟩ := ih c
    obtain ⟨j, hj⟩ := bitPoly_crcBit (bs.foldl crcBit c) b
    refine ⟨k * X + j, ?_⟩
    rw [List.foldl_append, List.foldl_cons, List.foldl_nil, hj, hk, bitPoly_append_one,
      List.length_append, List.length_singleton]
    ring

/-- The CRC of bytes is the CRC of their bits, the most significant first (R170). -/
theorem crcByte_bits (m : List Byte) : ∀ c,
    m.foldl crcByte c = (m.flatMap msbFirst).foldl crcBit c ∧ (m.flatMap msbFirst).length = 8 * m.length := by
  induction m with
  | nil => intro c; exact ⟨rfl, rfl⟩
  | cons b m ih =>
    intro c
    refine ⟨?_, ?_⟩
    · rw [List.foldl_cons, List.flatMap_cons, List.foldl_append, (ih _).1]
      rfl
    · simp [(ih c).2, msbFirst]; omega

theorem crcPolynomial_low : (bitPoly (msbFirst (0x04C11DB7 : Word))).degree < ((32 : Nat) : WithBot Nat) := by
  rw [bitPoly_msbFirst]
  exact wordPoly_degree 32 _

/-- P is monic, of degree 32 (R171). -/
theorem crcPolynomial_monic : crcPolynomial.Monic := monic_X_pow_add crcPolynomial_low

theorem crcPolynomial_degree : crcPolynomial.degree = ((32 : Nat) : WithBot Nat) := by
  rw [crcPolynomial, degree_add_eq_left_of_degree_lt] <;> rw [degree_X_pow]
  exact crcPolynomial_low

end Sys2Proof.Machine
end

