-- ==== Sys2Proof/Laws/Exec.lean ====
section
/-! SUPPORT. The nineteen meanings as one: the Exec of each command (R121), what it may name (R122), how it may stop (R301, R302, R303), and what it depends on (R121). The proofs about every command go through these lemmas and unfold no meaning. -/

namespace Sys2Proof.Machine

/-! ### One Exec for each command -/

/-- The Exec of the command CMD selects (R121). -/
def State.commandExec (s : State) : Instr → Exec Writes
  | .nop => nopExec
  | .byteAt => s.byteAtExec
  | .word16At => s.word16AtExec
  | .word32At => s.word32AtExec
  | .sliceAt => s.sliceAtExec
  | .isClone => s.isCloneExec
  | .bitField w => s.bitFieldExec w
  | .seekBit => s.seekBitExec
  | .readBits w => s.readBitsExec w
  | .peekBits w => s.peekBitsExec w
  | .secHdr => s.secHdrExec
  | .hasCrc => s.hasCrcExec
  | .calcCrc => s.calcCrcExec
  | .verifyCrc => s.verifyCrcExec
  | .secCrc => s.secCrcExec
  | .setCrc => s.setCrcExec
  | .huffDecC5 => s.huffDecode .c5
  | .huffDecC7 => s.huffDecode .c7
  | .dvbText => s.textDecode

/-- HUFFDEC and DVBTEXT (R124). -/
def isStringCommand : Instr → Bool
  | .huffDecC5 => true
  | .huffDecC7 => true
  | .dvbText => true
  | _ => false

theorem isStringCommand_iff (i : Instr) :
    isStringCommand i = true ↔ i ∈ [.huffDecC5, .huffDecC7, .dvbText] := by
  cases i <;> simp [isStringCommand]

/-- A command is its Exec and its completion (R121 to R124). -/
theorem exec_eq (i : Instr) (s : State) : exec i s =
    if isStringCommand i then s.completeString (s.commandExec i) else s.complete (s.commandExec i) := by
  cases i <;> rfl

/-- What a command that completes leaves. -/
inductive Completed (i : Instr) (s : State) : State → Prop where
  | success (w : Writes) : s.commandExec i = .ok w → Completed i s (s.write w).markDone
  | failure (c : ErrCode) (info : Word) : isStringCommand i = false → s.commandExec i = raise c info →
      Completed i s (s.takeError c info)
  | stringFailure (c : ErrCode) (info : Word) : isStringCommand i = true → s.commandExec i = raise c info →
      Completed i s (s.takeError c info).clearOutput

theorem exec_eq_next {i : Instr} {s t : State} : exec i s = .next t ↔ Completed i s t := by
  rw [exec_eq]
  cases hs : isStringCommand i with
  | true =>
    rw [if_pos rfl, State.completeString_eq_next]
    constructor
    · rintro (⟨w, hw, rfl⟩ | ⟨c, info, hw, rfl⟩)
      · exact .success w hw
      · exact .stringFailure c info hs hw
    · intro h
      cases h with
      | success w hw => exact .inl ⟨w, hw, rfl⟩
      | failure c info h1 _ => rw [hs] at h1; cases h1
      | stringFailure c info _ hw => exact .inr ⟨c, info, hw, rfl⟩
  | false =>
    rw [if_neg (by simp), State.complete_eq_next]
    constructor
    · rintro (⟨w, hw, rfl⟩ | ⟨c, info, hw, rfl⟩)
      · exact .success w hw
      · exact .failure c info hs hw
    · intro h
      cases h with
      | success w hw => exact .inl ⟨w, hw, rfl⟩
      | failure c info _ hw => exact .inr ⟨c, info, hw, rfl⟩
      | stringFailure c info h1 _ => rw [hs] at h1; cases h1

/-- A command that completes without ERR has succeeded. -/
theorem exec_success {i : Instr} {s t : State} (h : exec i s = .next t) (ht : t.status.err = false) :
    ∃ w, s.commandExec i = .ok w ∧ t = (s.write w).markDone := by
  cases exec_eq_next.1 h with
  | success w hw => exact ⟨w, hw, rfl⟩
  | failure c info _ _ => cases ht
  | stringFailure c info _ _ => cases ht

theorem exec_eq_fault {i : Instr} {s : State} {f : Fault} :
    exec i s = .fault f ↔ s.commandExec i = .error (.fault f) := by
  rw [exec_eq]
  split
  · exact State.completeString_eq_fault
  · exact State.complete_eq_fault

theorem exec_eq_refused {i : Instr} {s : State} {r : Refusal} :
    exec i s = .refused r ↔ s.commandExec i = .error (.refusal r) := by
  rw [exec_eq]
  split
  · exact State.completeString_eq_refused
  · exact State.complete_eq_refused

/-! ### How an Exec may stop -/

/-- The ways to stop that are allowed: an error with one of the codes, UNDEF_READ of a byte below BUFLEN that was never written, or one of the refusals. -/
def StopsBy (s : State) (codes : List ErrCode) (refusals : List Refusal) : Stop → Prop
  | .error c _ => c ∈ codes
  | .fault f => ∃ off, off < s.bufLen.toNat ∧ s.secBuf.get off = none ∧ f = .undefReadSecBuf off
  | .refusal r => r ∈ refusals

/-- An Exec stops in the allowed ways only. -/
def Exec.StopsWithin {α : Type} (s : State) (codes : List ErrCode) (refusals : List Refusal) (x : Exec α) : Prop :=
  ∀ e, x = .error e → StopsBy s codes refusals e

section
variable {α β : Type} {s : State} {codes : List ErrCode} {refusals : List Refusal}

theorem Exec.StopsWithin.ok (a : α) : Exec.StopsWithin s codes refusals (.ok a) := by
  intro e h; cases h

theorem Exec.StopsWithin.raise {c : ErrCode} {info : Word} (h : c ∈ codes) :
    Exec.StopsWithin s codes refusals (Machine.raise c info : Exec α) := by
  intro e he; cases he; exact h

theorem Exec.StopsWithin.bind {x : Exec α} {f : α → Exec β} (hx : Exec.StopsWithin s codes refusals x)
    (hf : ∀ a, x = .ok a → Exec.StopsWithin s codes refusals (f a)) :
    Exec.StopsWithin s codes refusals (x >>= f) := by
  intro e he
  rcases Exec.bind_eq_error.1 he with h | ⟨a, ha, h⟩
  · exact hx e h
  · exact hf a ha e h

theorem Exec.StopsWithin.mono {codes' : List ErrCode} {refusals' : List Refusal} {x : Exec α}
    (h : Exec.StopsWithin s codes refusals x) (hc : codes ⊆ codes') (hr : refusals ⊆ refusals') :
    Exec.StopsWithin s codes' refusals' x := by
  intro e he
  have := h e he
  cases e with
  | error c i => exact hc this
  | fault f => exact this
  | refusal r => exact hr this

theorem State.memRead_stops (off n : Nat) (h : .outOfBounds ∈ codes) :
    Exec.StopsWithin s codes refusals (s.memRead off n) := by
  rcases s.memRead_cases off n with ⟨-, bs, -, -, hr⟩ | ⟨-, hr⟩ | ⟨hb, k, hk, hn, -, hr⟩ <;> rw [hr]
  · exact .ok _
  · exact .raise h
  · intro e he; cases he; exact ⟨_, by omega, hn, rfl⟩

/-- A read in bounds stops at an unwritten byte only. -/
theorem State.memRead_stops_inBounds {off n : Nat} (h : off + n ≤ s.bufLen.toNat) :
    Exec.StopsWithin s codes refusals (s.memRead off n) := by
  rcases s.memRead_cases off n with ⟨-, bs, -, -, hr⟩ | ⟨hb, -⟩ | ⟨hb, k, hk, hn, -, hr⟩
  · rw [hr]; exact .ok _
  · omega
  · rw [hr]; intro e he; cases he; exact ⟨_, by omega, hn, rfl⟩

theorem Memory.bit_eq_none {m : Memory} {p : Nat} : m.bit p = none ↔ m.get (p / 8) = none := by
  simp [Memory.bit]

theorem State.bits_stops_inBounds {p w : Nat} (h : p + w ≤ 8 * s.bufLen.toNat) :
    Exec.StopsWithin s codes refusals (s.bits p w) := by
  rcases s.bits_cases p w with ⟨-, bs, -, -, hr⟩ | ⟨hb, -⟩ | ⟨hb, k, hk, hn, -, hr⟩
  · rw [hr]; exact .ok _
  · omega
  · rw [hr]; intro e he; cases he; exact ⟨_, by omega, Memory.bit_eq_none.1 hn, rfl⟩

theorem State.bits_stops (p w : Nat) (h : .outOfBounds ∈ codes) :
    Exec.StopsWithin s codes refusals (s.bits p w) := by
  by_cases hb : p + w ≤ 8 * s.bufLen.toNat
  · exact State.bits_stops_inBounds hb
  · rw [State.bits_outOfBounds (by omega)]; exact .raise h

theorem State.crc_stops (off n : Nat) (h : .outOfBounds ∈ codes) :
    Exec.StopsWithin s codes refusals (s.crc off n) := by
  rcases s.crc_cases off n with ⟨-, bs, -, -, hr⟩ | ⟨-, hr⟩ | ⟨hb, k, hk, hn, hr⟩ <;> rw [hr]
  · exact .ok _
  · exact .raise h
  · intro e he; cases he; exact ⟨_, by omega, hn, rfl⟩

theorem State.readHdr_stops (h : .outOfBounds ∈ codes) : Exec.StopsWithin s codes refusals s.readHdr := by
  rcases s.readHdr_cases with ⟨-, b0, b1, b2, -, hr⟩ | ⟨-, hr⟩ | ⟨hb, k, hk, hn, hr⟩ <;> rw [hr]
  · exact .ok _
  · exact .raise h
  · intro e he; cases he; exact ⟨_, by omega, hn, rfl⟩

theorem State.checkWidth_stops (w : Byte) (h : .illegalCmd ∈ codes) :
    Exec.StopsWithin s codes refusals (s.checkWidth w) := by
  unfold State.checkWidth
  split
  · exact .ok _
  · exact .raise h

/-- All Out(u) can do (R12). -/
theorem emit_cases (out : List Half) (u : Half) :
    (out.length = 4096 ∧ emit out u = raise .outOverflow 4096) ∨
    (out.length ≠ 4096 ∧ emit out u = .ok (out ++ [u])) := by
  unfold emit
  by_cases h : out.length = 4096
  · exact .inl ⟨h, by rw [if_pos h]; rfl⟩
  · exact .inr ⟨h, by rw [if_neg h]⟩

theorem emit_stops (out : List Half) (u : Half) (h : .outOverflow ∈ codes) :
    Exec.StopsWithin s codes refusals (emit out u) := by
  rcases emit_cases out u with ⟨-, hr⟩ | ⟨-, hr⟩ <;> rw [hr]
  · exact .raise h
  · exact .ok _

/-- A bit read in bounds is a bit (R204). -/
theorem State.spanBit_stops_inBounds {base q : Nat} (h : base + q + 1 ≤ 8 * s.bufLen.toNat) :
    Exec.StopsWithin s codes refusals (s.spanBit base q) :=
  .bind (State.bits_stops_inBounds h) fun _ _ => .ok _

end

end Sys2Proof.Machine
end

