-- ==== Sys2Proof/Laws/DvbText.lean ====
section
/-! SUPPORT. The DVB text decoder: the selector against the table of R231, and what the two loops of R232 make of the bytes of a span. -/

namespace Sys2Proof.Machine

/-! ### The selector (R231) -/

theorem shortSelector_of {p : IsoPart} {k : Nat} (h1 : 1 ≤ k) (h2 : k ≤ 0x0B) (h8 : k ≠ 8)
    (hp : isoNumber p = k + 4) : shortSelector k = some p := by
  have : k = 1 ∨ k = 2 ∨ k = 3 ∨ k = 4 ∨ k = 5 ∨ k = 6 ∨ k = 7 ∨ k = 9 ∨ k = 10 ∨ k = 11 := by omega
  rcases this with rfl | rfl | rfl | rfl | rfl | rfl | rfl | rfl | rfl | rfl <;>
    cases p <;> simp [isoNumber] at hp <;> rfl

theorem shortSelector_none {k : Nat} (h : k = 0 ∨ k = 8 ∨ 0x0C ≤ k) : shortSelector k = none := by
  unfold shortSelector
  split <;> first | omega | rfl

theorem isoSelectable_of {p : IsoPart} (h : p ≠ .p12) : isoSelectable (isoNumber p) = some p := by
  cases p <;> first | rfl | exact absurd rfl h

theorem isoSelectable_none {k : Nat} (h : k = 0 ∨ k = 12 ∨ 15 < k) : isoSelectable k = none := by
  unfold isoSelectable
  split <;> first | omega | rfl

section
variable {s : State}

/-- The first byte of a written span. -/
theorem State.memRead_span {off k : Nat} {span : List Byte} {b : Byte} (h : s.holds off span)
    (hk : span[k]? = some b) (hb : off + span.length ≤ s.bufLen.toNat) : s.memRead (off + k) 1 = .ok b.toNat :=
  State.memRead_one (h k b hk) (by have := (List.getElem?_eq_some_iff.1 hk).1; omega)

/-- The selector of a text that R231's table has a row for. -/
theorem State.selector_of {off : Nat} {span chars : List Byte} {enc : TextEnc} (hs : Selects s.build span enc chars)
    (h : s.holds off span) (hb : off + span.length ≤ s.bufLen.toNat) {n : Nat} (hn : span.length ≤ n) :
    s.selector off n = .ok (enc, off + (span.length - chars.length)) ∧
      s.holds (off + (span.length - chars.length)) chars ∧ chars.length ≤ span.length := by
  cases hs with
  | noSelector c rest h20 =>
    have h0 := State.memRead_span h (k := 0) (b := c) rfl hb
    refine ⟨?_, by simpa using h, Nat.le_refl _⟩
    simp only [Nat.add_zero] at h0
    rw [State.selector, h0, Exec.ok_bind, if_pos h20, Nat.sub_self, Nat.add_zero]
  | short c _ p h1 h2 h8 hp =>
    have h0 := State.memRead_span h (k := 0) (b := c) rfl hb
    have e : (c :: chars).length - chars.length = 1 := by simp
    rw [e]
    refine ⟨?_, ((s.holds_cons _ _ _).1 h).2, by simp⟩
    simp only [Nat.add_zero] at h0
    rw [State.selector, h0, Exec.ok_bind, if_neg (by omega), if_neg (by omega), if_neg (by omega),
      shortSelector_of h1 h2 h8 hp]
  | long m _ p hp h12 =>
    have h0 := State.memRead_span h (k := 0) (b := 0x10) rfl hb
    have h1 := State.memRead_span h (k := 1) (b := 0x00) rfl hb
    have h2 := State.memRead_span h (k := 2) (b := m) rfl hb
    have e : ((0x10 : Byte) :: (0x00 : Byte) :: m :: chars).length - chars.length = 3 := by
      simp only [List.length_cons]; omega
    rw [e]
    refine ⟨?_, ?_, by simp; omega⟩
    · simp only [Nat.add_zero] at h0
      rw [State.selector, h0, Exec.ok_bind, if_neg (by decide), if_neg (by decide), if_pos (by decide),
        if_neg (by simp at hn; omega), h1, Exec.ok_bind, h2, Exec.ok_bind, longSelector, if_pos (by decide), ← hp,
        isoSelectable_of h12]
    · have := ((s.holds_cons _ _ _).1 ((s.holds_cons _ _ _).1 ((s.holds_cons _ _ _).1 h).2).2).2
      rwa [show off + 3 = off + 1 + 1 + 1 by omega]
  | ucs2 _ =>
    have h0 := State.memRead_span h (k := 0) (b := 0x11) rfl hb
    have e : ((0x11 : Byte) :: chars).length - chars.length = 1 := by simp
    rw [e]
    refine ⟨?_, ((s.holds_cons _ _ _).1 h).2, by simp⟩
    simp only [Nat.add_zero] at h0
    rw [State.selector, h0, Exec.ok_bind, if_neg (by decide), if_pos (by decide)]

/-- A selector without a table (R231). -/
theorem State.selector_unsupported {off n : Nat} {b : Byte} (h : s.secBuf.get off = some b)
    (hb : off + 1 ≤ s.bufLen.toNat)
    (hk : b.toNat = 0 ∨ b.toNat = 8 ∨ (0x0C ≤ b.toNat ∧ b.toNat ≤ 0x0F) ∨ (0x12 ≤ b.toNat ∧ b.toNat ≤ 0x1F)) :
    s.selector off n = raise .unsupportedCharset (BitVec.ofNat 32 b.toNat) := by
  rw [State.selector, State.memRead_one h hb, Exec.ok_bind, if_neg (by omega), if_neg (by omega), if_neg (by omega),
    shortSelector_none (by omega)]

/-- A three-byte form cut short (R231). -/
theorem State.selector_truncated {off n : Nat} (h : s.secBuf.get off = some 0x10)
    (hb : off + 1 ≤ s.bufLen.toNat) (hn : n < 3) :
    s.selector off n = raise .textTruncated (BitVec.ofNat 32 n) := by
  rw [State.selector, State.memRead_one h hb, Exec.ok_bind, if_neg (by decide), if_neg (by decide),
    if_pos (by decide), if_pos hn]

/-- A three-byte form that names no table (R231). -/
theorem State.selector_unsupported_long {off n : Nat} {b1 b2 : Byte} (h : s.holds off [0x10, b1, b2])
    (hb : off + 3 ≤ s.bufLen.toNat) (hn : 3 ≤ n)
    (hk : b1 ≠ 0 ∨ b2.toNat = 0 ∨ b2.toNat = 12 ∨ 15 < b2.toNat) :
    s.selector off n = raise .unsupportedCharset (BitVec.ofNat 32 (0x100000 + b1.toNat * 256 + b2.toNat)) := by
  simp only [State.holds_cons] at h
  obtain ⟨h0, h1, h2, -⟩ := h
  have hl : longSelector b1.toNat b2.toNat = none := by
    unfold longSelector
    split
    · rename_i hz
      have : b1 = 0 := BitVec.eq_of_toNat_eq hz
      exact isoSelectable_none (hk.resolve_left (fun hne => hne this))
    · rfl
  rw [State.selector, State.memRead_one h0 (by omega), Exec.ok_bind, if_neg (by decide), if_neg (by decide),
    if_pos (by decide), if_neg (by omega), State.memRead_one h1 (by omega), Exec.ok_bind,
    State.memRead_one (show s.secBuf.get (off + 2) = some b2 by rw [← h2]) (by omega), Exec.ok_bind, hl]

/-- Where the selector answers, the characters begin within the span. -/
theorem State.selector_ok {off n : Nat} {r : TextEnc × Nat} (hn : 1 ≤ n) (h : s.selector off n = .ok r) :
    off ≤ r.2 ∧ r.2 ≤ off + n ∧ (r.1 = .iso .p12 → s.build.dvbDefault = .p12) := by
  have h12 : ∀ {k p}, shortSelector k = some p → p ≠ .p12 := by
    intro k p hp; unfold shortSelector at hp; split at hp <;> cases hp <;> simp
  have h12' : ∀ {k p}, isoSelectable k = some p → p ≠ .p12 := by
    intro k p hp; unfold isoSelectable at hp; split at hp <;> cases hp <;> simp
  rw [State.selector] at h
  obtain ⟨b0, -, h⟩ := Exec.bind_eq_ok.1 h
  split at h
  · cases h; exact ⟨Nat.le_refl _, by simp, fun he => by simpa using he⟩
  · split at h
    · cases h; exact ⟨by simp, by simpa using hn, by simp⟩
    · split at h
      · split at h
        · cases h
        · obtain ⟨b1, -, h⟩ := Exec.bind_eq_ok.1 h
          obtain ⟨b2, -, h⟩ := Exec.bind_eq_ok.1 h
          split at h
          · rename_i p hp
            cases h
            refine ⟨by simp, by simp only; omega, fun he => ?_⟩
            unfold longSelector at hp
            split at hp
            · exact absurd (by simpa using he) (h12' hp)
            · cases hp
          · cases h
      · split at h
        · rename_i p hp
          cases h
          exact ⟨by simp, by simpa using hn, fun he => absurd (by simpa using he) (h12 hp)⟩
        · cases h

/-! ### The loops (R232) -/

theorem emitOption_some (out : List Half) (u : Half) (h : out.length < 4096) :
    emitOption out (some u) = .ok (out ++ [u]) := by
  rcases emit_cases out u with ⟨he, -⟩ | ⟨-, he⟩
  · omega
  · exact he

/-- Appending a unit that may have been dropped, with room for it. -/
theorem emitOption_ok (out : List Half) (u : Option Half) (h : out.length < 4096) :
    emitOption out u = .ok (out ++ u.toList) := by
  cases u with
  | none => simp [emitOption]
  | some u => rw [emitOption_some out u h]; rfl

/-- The single-byte loop over written bytes whose mapping is `us` (R232, R233). -/
theorem State.decodeBytes_holds {p : IsoPart} : ∀ (cs : List Byte) (us : List (Option Half)) (j : Nat) (out : List Half),
    s.holds j cs → j + cs.length ≤ s.bufLen.toNat → cs.map (mapByte s.build.iso8859 p) = us.map .ok →
    out.length + cs.length ≤ 4096 →
    s.decodeBytes p cs.length j out = .ok (out ++ us.reduceOption) := by
  intro cs
  induction cs with
  | nil =>
    intro us j out _ _ hu _
    have : us = [] := by simpa using hu.symm
    subst this
    simp [State.decodeBytes, List.reduceOption]
  | cons c cs ih =>
    intro us j out h hb hu hl
    cases us with
    | nil => simp at hu
    | cons u us =>
      simp only [List.map_cons, List.cons.injEq] at hu
      simp only [List.length_cons] at hb hl ⊢
      rw [State.holds_cons] at h
      rw [State.decodeBytes, State.memRead_one h.1 (by omega), Exec.ok_bind, BitVec.ofNat_toNat, BitVec.setWidth_eq,
        hu.1, Exec.ok_bind, emitOption_ok _ _ (by omega), Exec.ok_bind]
      cases u with
      | none =>
        rw [ih us (j + 1) _ h.2 (by omega) hu.2 (by simp only [Option.toList, List.append_nil]; omega)]
        simp [List.reduceOption]
      | some u =>
        rw [ih us (j + 1) _ h.2 (by omega) hu.2 (by simp only [Option.toList, List.length_append, List.length_singleton]; omega)]
        simp [List.reduceOption]

/-- The two bytes of a UCS-2 code unit (R234). -/
theorem bigEndian_unit (u : Half) : bigEndian [u.extractLsb' 8 8, u.extractLsb' 0 8] = u.toNat := by
  simp only [bigEndian, List.foldl, BitVec.extractLsb'_toNat, Nat.shiftRight_eq_div_pow]
  have := u.isLt
  omega

/-- The UCS-2 loop over written code units (R232, R234). -/
theorem State.decodeUnits_holds : ∀ (us : List Half) (j : Nat) (out : List Half),
    s.holds j (us.flatMap fun u => [u.extractLsb' 8 8, u.extractLsb' 0 8]) → j + 2 * us.length ≤ s.bufLen.toNat →
    out.length + us.length ≤ 4096 →
    s.decodeUnits us.length j out = .ok (out ++ us.filterMap mapUnit) := by
  intro us
  induction us with
  | nil => intro j out _ _ _; simp [State.decodeUnits]
  | cons u us ih =>
    intro j out h hb hl
    simp only [List.flatMap_cons, State.holds_append, List.length_cons, List.length_nil] at h hb hl ⊢
    have hr := State.memRead_holds h.1 (by simp only [List.length_cons, List.length_nil]; omega)
    simp only [List.length_cons, List.length_nil, Nat.zero_add, Nat.reduceAdd, bigEndian_unit] at hr
    rw [State.decodeUnits, hr, Exec.ok_bind, BitVec.ofNat_toNat, BitVec.setWidth_eq, emitOption_ok _ _ (by omega),
      Exec.ok_bind]
    cases hm : mapUnit u with
    | none =>
      rw [ih (j + 2) _ h.2 (by omega) (by simp only [Option.toList, List.append_nil]; omega)]
      simp [hm]
    | some v =>
      rw [ih (j + 2) _ h.2 (by omega) (by simp only [Option.toList, List.length_append, List.length_singleton]; omega)]
      simp [hm]

/-- How mapping a byte may stop: only at a table that is absent (R233, R235). -/
theorem mapByte_stops {codes : List ErrCode} {refusals : List Refusal} (t : IsoTables) (p : IsoPart) (c : Byte)
    (h : p = .p12 → .isoTableAbsent .p12 ∈ refusals) :
    Exec.StopsWithin s codes refusals (mapByte t p c) := by
  unfold mapByte
  repeat' split
  · exact .ok _
  · exact .ok _
  · exact .ok _
  · exact .ok _
  · rename_i hn
    have : p = .p12 := by cases p <;> first | rfl | simp [isoTable] at hn
    subst this
    intro e he
    cases he
    exact h rfl

theorem emitOption_stops {codes : List ErrCode} {refusals : List Refusal} (out : List Half) (u : Option Half)
    (h : .outOverflow ∈ codes) : Exec.StopsWithin s codes refusals (emitOption out u) := by
  cases u with
  | none => exact .ok _
  | some u => exact emit_stops out u h

theorem State.decodeBytes_stops {codes : List ErrCode} {refusals : List Refusal} {p : IsoPart}
    (h3 : .outOverflow ∈ codes) (h : p = .p12 → .isoTableAbsent .p12 ∈ refusals) :
    ∀ (n j : Nat) (out : List Half), j + n ≤ s.bufLen.toNat →
    Exec.StopsWithin s codes refusals (s.decodeBytes p n j out) := by
  intro n
  induction n with
  | zero => intro j out _; exact .ok _
  | succ n ih =>
    intro j out hb
    rw [State.decodeBytes]
    exact .bind (State.memRead_stops_inBounds (by omega)) fun _ _ => .bind (mapByte_stops _ _ _ h) fun _ _ =>
      .bind (emitOption_stops _ _ h3) fun _ _ => ih _ _ (by omega)

theorem State.decodeUnits_stops {codes : List ErrCode} {refusals : List Refusal} (h3 : .outOverflow ∈ codes) :
    ∀ (n j : Nat) (out : List Half), j + 2 * n ≤ s.bufLen.toNat →
    Exec.StopsWithin s codes refusals (s.decodeUnits n j out) := by
  intro n
  induction n with
  | zero => intro j out _; exact .ok _
  | succ n ih =>
    intro j out hb
    rw [State.decodeUnits]
    exact .bind (State.memRead_stops_inBounds (by omega)) fun _ _ =>
      .bind (emitOption_stops _ _ h3) fun _ _ => ih _ _ (by omega)

theorem emitOption_length {out out' : List Half} {u : Option Half} (hl : out.length ≤ 4096)
    (h : emitOption out u = .ok out') : out'.length ≤ 4096 := by
  cases u with
  | none => cases h; exact hl
  | some u =>
    rcases emit_cases out u with ⟨-, he⟩ | ⟨hne, he⟩ <;> rw [emitOption, he] at h <;> cases h
    simp; omega

theorem State.decodeBytes_length {p : IsoPart} : ∀ (n j : Nat) (out : List Half) {r : List Half},
    out.length ≤ 4096 → s.decodeBytes p n j out = .ok r → r.length ≤ 4096 := by
  intro n
  induction n with
  | zero => intro j out r hl h; cases h; exact hl
  | succ n ih =>
    intro j out r hl h
    rw [State.decodeBytes] at h
    obtain ⟨c, -, h⟩ := Exec.bind_eq_ok.1 h
    obtain ⟨u, -, h⟩ := Exec.bind_eq_ok.1 h
    obtain ⟨o, ho, h⟩ := Exec.bind_eq_ok.1 h
    exact ih _ _ (emitOption_length hl ho) h

theorem State.decodeUnits_length : ∀ (n j : Nat) (out : List Half) {r : List Half},
    out.length ≤ 4096 → s.decodeUnits n j out = .ok r → r.length ≤ 4096 := by
  intro n
  induction n with
  | zero => intro j out r hl h; cases h; exact hl
  | succ n ih =>
    intro j out r hl h
    rw [State.decodeUnits] at h
    obtain ⟨c, -, h⟩ := Exec.bind_eq_ok.1 h
    obtain ⟨o, ho, h⟩ := Exec.bind_eq_ok.1 h
    exact ih _ _ (emitOption_length hl ho) h

theorem State.decodeChars_length {enc : TextEnc} {i e n : Nat} {r : List Half}
    (h : s.decodeChars enc i e n = .ok r) : r.length ≤ 4096 := by
  unfold State.decodeChars at h
  split at h
  · split at h
    · cases h
    · exact State.decodeUnits_length _ _ _ (by simp) h
  · exact State.decodeBytes_length _ _ _ (by simp) h

theorem State.selector_stops {codes : List ErrCode} {refusals : List Refusal} {off n : Nat}
    (h1 : .unsupportedCharset ∈ codes) (h2 : .textTruncated ∈ codes) (hn : 1 ≤ n)
    (hb : off + n ≤ s.bufLen.toNat) : Exec.StopsWithin s codes refusals (s.selector off n) := by
  rw [State.selector]
  refine .bind (State.memRead_stops_inBounds (by omega)) fun b0 _ => ?_
  split
  · exact .ok _
  · split
    · exact .ok _
    · split
      · split
        · exact .raise h2
        · refine .bind (State.memRead_stops_inBounds (by omega)) fun b1 _ =>
            .bind (State.memRead_stops_inBounds (by omega)) fun b2 _ => ?_
          split
          · exact .ok _
          · exact .raise h1
      · split
        · exact .ok _
        · exact .raise h1

/-- How DVBTEXT may stop (R303). -/
theorem State.textDecode_stops {codes : List ErrCode} {refusals : List Refusal} (h0 : .outOfBounds ∈ codes)
    (h1 : .unsupportedCharset ∈ codes) (h2 : .textTruncated ∈ codes) (h3 : .outOverflow ∈ codes)
    (hr : s.build.dvbDefault = .p12 → .isoTableAbsent .p12 ∈ refusals) :
    Exec.StopsWithin s codes refusals s.textDecode := by
  unfold State.textDecode
  split
  · rename_i hb
    simp only [State.bytesInBounds, decide_eq_true_eq, State.byteOffset, State.byteLength, State.extent] at hb
    split
    · exact .ok _
    · rename_i hn
      simp only [State.byteLength] at hn
      have hn : 1 ≤ s.arg1.toNat := by omega
      refine .bind (State.selector_stops h1 h2 hn hb) fun r hrk => ?_
      obtain ⟨hi1, hi2, h12⟩ := State.selector_ok hn hrk
      simp only [State.byteOffset] at hi1 hi2
      refine .bind ?_ fun _ _ => .ok _
      unfold State.decodeChars
      split
      · split
        · exact .raise h2
        · exact State.decodeUnits_stops h3 _ _ _ (by simp only [State.byteOffset, State.byteLength]; omega)
      · rename_i p hp
        exact State.decodeBytes_stops h3 (fun he => hr (h12 (by rw [hp, he]))) _ _ _
          (by simp only [State.byteOffset, State.byteLength]; omega)
  · exact .raise h0

end

end Sys2Proof.Machine
end

