-- ==== Sys2Proof/Laws/Huffman.lean ====
section
/-! SUPPORT. The Huffman decoder (R203): what a well-formed code (R201) makes of the bits of a code word, of a proper prefix of one, and of a string that is neither; what the outer loop makes of a string of characters; that its fuel is never used up (R208); and that it reads no bit past what it consumes (R205). -/

namespace Sys2Proof.Machine

/-! ### Well-formed codes (R200, R201) -/

theorem codeOk_iff (code : HuffCode) : codeOk code = true ↔
    (∀ c ∈ code, c.bits ≠ []) ∧
    code.Pairwise fun a b => a.bits.isPrefixOf b.bits = false ∧ b.bits.isPrefixOf a.bits = false := by
  simp [codeOk]

/-- In a well-formed code only a code word is a prefix of itself (R201). -/
theorem codeOk_prefix {code : HuffCode} (h : codeOk code = true) {a b : CodeWord} (ha : a ∈ code) (hb : b ∈ code)
    (hp : a.bits <+: b.bits) : a = b := by
  by_contra hne
  have : Std.Symm fun a b : CodeWord => a.bits.isPrefixOf b.bits = false ∧ b.bits.isPrefixOf a.bits = false :=
    ⟨fun _ _ hxy => ⟨hxy.2, hxy.1⟩⟩
  have := ((codeOk_iff code).1 h).2.forall ha hb hne
  rw [← List.isPrefixOf_iff_prefix] at hp
  rw [hp] at this
  exact absurd this.1 (by simp)

/-- HUFF_CODE(t, ctx)(s) for a code word s (R200). -/
theorem lookupWord_of_mem {code : HuffCode} (h : codeOk code = true) {w : List Bool} {sym : Symbol}
    (hm : ⟨w, sym⟩ ∈ code) : lookupWord code w = some sym := by
  unfold lookupWord
  cases hf : code.find? fun c => c.bits == w with
  | none => exact absurd (List.find?_eq_none.1 hf _ hm) (by simp)
  | some c =>
    have hc : c.bits = w := by simpa using List.find?_some hf
    have := codeOk_prefix h (List.mem_of_find?_eq_some hf) hm (by rw [hc])
    rw [this]; rfl

theorem mem_of_lookupWord {code : HuffCode} {w : List Bool} {sym : Symbol} (h : lookupWord code w = some sym) :
    ⟨w, sym⟩ ∈ code := by
  unfold lookupWord at h
  obtain ⟨c, hc, rfl⟩ := Option.map_eq_some_iff.1 h
  have hw : c.bits = w := by simpa using List.find?_some hc
  rw [← hw]
  exact List.mem_of_find?_eq_some hc

theorem extendsToWord_iff (code : HuffCode) (w : List Bool) :
    extendsToWord code w = true ↔ ∃ c ∈ code, w <+: c.bits ∧ c.bits ≠ w := by
  simp [extendsToWord]

/-- A prefix of a proper prefix of a code word is one. -/
theorem extendsToWord_append {code : HuffCode} {a b : List Bool} (h : extendsToWord code (a ++ b) = true) :
    extendsToWord code a = true := by
  rw [extendsToWord_iff] at h ⊢
  obtain ⟨c, hc, hp, hne⟩ := h
  refine ⟨c, hc, (List.prefix_append a b).trans hp, fun he => hne ?_⟩
  have h1 := hp.length_le
  rw [he, List.length_append] at h1
  have : b = [] := List.eq_nil_of_length_eq_zero (by omega)
  rw [this, List.append_nil, he]

/-- What comes before the last bit of a code word is empty or a proper prefix of it. -/
theorem extendsToWord_of_mem {code : HuffCode} {a : List Bool} {b : Bool} {sym : Symbol}
    (hm : ⟨a ++ [b], sym⟩ ∈ code) : extendsToWord code a = true :=
  (extendsToWord_iff code a).2 ⟨_, hm, List.prefix_append _ _, by simp⟩

/-- In a well-formed code a proper prefix of a code word is no code word. -/
theorem lookupWord_of_extends {code : HuffCode} (h : codeOk code = true) {w : List Bool}
    (he : extendsToWord code w = true) : lookupWord code w = none := by
  cases hl : lookupWord code w with
  | none => rfl
  | some sym =>
    obtain ⟨c, hc, hp, hne⟩ := (extendsToWord_iff code w).1 he
    have := codeOk_prefix h (mem_of_lookupWord hl) hc hp
    exact absurd (by rw [← this]) hne

theorem codesOk_code {b : Build} {t : CodeTable} (h : codesOk b t = true) (ctx : Symbol) :
    codeOk (huffCode b t ctx) = true := by
  simp only [codesOk, List.all_eq_true, List.mem_range] at h
  have := h ctx.toNat ctx.isLt
  rwa [BitVec.ofNat_toNat, BitVec.setWidth_eq] at this

theorem huffOk_iff (b : Build) : huffOk b = true ↔ codesOk b .c5 = true ∧ codesOk b .c7 = true ∧
    b.huffEnd ≠ b.huffEsc ∧ 1 ≤ b.huffLitBits ∧ b.huffLitBits ≤ 8 := by
  simp [huffOk, and_assoc]

theorem huffOk_code {b : Build} (h : huffOk b = true) (t : CodeTable) (ctx : Symbol) :
    codeOk (huffCode b t ctx) = true := by
  obtain ⟨h5, h7, -⟩ := (huffOk_iff b).1 h
  cases t
  · exact codesOk_code h5 ctx
  · exact codesOk_code h7 ctx

/-! ### One code word -/

section
variable {code : HuffCode} {bit bit' : Nat → Exec Bool} {start : Nat}

/-- The bits of a proper prefix of a code word are read past. -/
theorem readCodeWord_skip (h : codeOk code = true) : ∀ (p : List Bool) (left q : Nat) (word : List Bool),
    p = [] ∨ extendsToWord code (word ++ p) = true → p.length ≤ left →
    (∀ k b, p[k]? = some b → bit (q + k) = .ok b) →
    readCodeWord code bit start left q word =
      readCodeWord code bit start (left - p.length) (q + p.length) (word ++ p) := by
  intro p
  induction p with
  | nil => intro left q word _ _ _; simp
  | cons b p ih =>
    intro left q word he hl hb
    have he := he.resolve_left (by simp)
    obtain ⟨left, rfl⟩ : ∃ l, left = l + 1 := ⟨left - 1, by simp at hl; omega⟩
    have e : word ++ b :: p = (word ++ [b]) ++ p := by simp
    rw [e] at he
    have he1 := extendsToWord_append he
    rw [readCodeWord, show bit q = .ok b from hb 0 b rfl, Exec.ok_bind, lookupWord_of_extends h he1]
    simp only [he1, if_true]
    rw [ih left (q + 1) (word ++ [b]) (.inr he) (by simpa using hl) (fun k c hc => by
      rw [show q + 1 + k = q + (k + 1) by omega]; exact hb (k + 1) c (by simpa using hc))]
    rw [e, List.length_cons, Nat.add_sub_add_right, show q + (p.length + 1) = q + 1 + p.length by omega]

/-- The bits of a code word give its symbol. -/
theorem readCodeWord_word (h : codeOk code = true) {w : List Bool} {sym : Symbol} (hm : ⟨w, sym⟩ ∈ code)
    {left q : Nat} (hl : w.length ≤ left) (hb : ∀ k b, w[k]? = some b → bit (q + k) = .ok b) :
    readCodeWord code bit start left q [] = .ok (sym, q + w.length) := by
  rcases List.eq_nil_or_concat w with rfl | ⟨a, b, rfl⟩
  · exact absurd rfl (((codeOk_iff code).1 h).1 _ hm)
  · rw [List.concat_eq_append] at hm hl hb ⊢
    simp only [List.length_append, List.length_singleton] at hl
    rw [readCodeWord_skip h a left q [] (.inr (by simpa using extendsToWord_of_mem hm)) (by omega)
      (fun k c hc => hb k c (by rw [List.getElem?_append_left (List.getElem?_eq_some_iff.1 hc).1]; exact hc))]
    obtain ⟨l, hl'⟩ : ∃ l, left - a.length = l + 1 := ⟨left - a.length - 1, by omega⟩
    rw [hl', readCodeWord, hb a.length b (by simp), Exec.ok_bind, List.nil_append, lookupWord_of_mem h hm]
    simp only [List.length_append, List.length_singleton, Nat.add_assoc]

/-- The span ends between code words or inside one: HUFF_TRUNCATED (R203). -/
theorem readCodeWord_truncated (h : codeOk code = true) {p : List Bool}
    (hp : p = [] ∨ extendsToWord code p = true) {q : Nat}
    (hb : ∀ k b, p[k]? = some b → bit (q + k) = .ok b) :
    readCodeWord code bit start p.length q [] = raise .huffTruncated (BitVec.ofNat 32 (q + p.length)) := by
  rw [readCodeWord_skip h p p.length q [] (by simpa using hp) (Nat.le_refl _) hb, Nat.sub_self, readCodeWord]

/-- A bit after which the string is no code word and no proper prefix of one: HUFF_BAD_CODE (R203). -/
theorem readCodeWord_bad (h : codeOk code = true) {p : List Bool} {b : Bool}
    (hp : p = [] ∨ extendsToWord code p = true) (hn : lookupWord code (p ++ [b]) = none)
    (he : extendsToWord code (p ++ [b]) = false) {left q : Nat} (hl : p.length + 1 ≤ left)
    (hb : ∀ k c, (p ++ [b])[k]? = some c → bit (q + k) = .ok c) :
    readCodeWord code bit start left q [] = raise .huffBadCode (BitVec.ofNat 32 start) := by
  rw [readCodeWord_skip h p left q [] (by simpa using hp) (by omega)
    (fun k c hc => hb k c (by rw [List.getElem?_append_left (List.getElem?_eq_some_iff.1 hc).1]; exact hc))]
  obtain ⟨l, hl'⟩ : ∃ l, left - p.length = l + 1 := ⟨left - p.length - 1, by omega⟩
  rw [hl', readCodeWord, hb p.length b (by simp), Exec.ok_bind, List.nil_append, hn]
  simp [he]

/-- A code word read has at least one bit and lies within the span. -/
theorem readCodeWord_ok : ∀ (left q : Nat) (word : List Bool) {r : Symbol × Nat},
    readCodeWord code bit start left q word = .ok r → q < r.2 ∧ r.2 ≤ q + left := by
  intro left
  induction left with
  | zero => intro q word r h; cases h
  | succ left ih =>
    intro q word r h
    rw [readCodeWord] at h
    obtain ⟨b, hb, h⟩ := Exec.bind_eq_ok.1 h
    split at h
    · cases h; simp only; omega
    · split at h
      · have := ih _ _ h; omega
      · cases h

/-- Reading a code word depends on its own bits only. -/
theorem readCodeWord_congr : ∀ (left q : Nat) (word : List Bool) {r : Symbol × Nat},
    readCodeWord code bit start left q word = .ok r → (∀ k, q ≤ k → k < r.2 → bit' k = bit k) →
    readCodeWord code bit' start left q word = .ok r := by
  intro left
  induction left with
  | zero => intro q word r h; cases h
  | succ left ih =>
    intro q word r h hk
    have hr := readCodeWord_ok _ _ _ h
    rw [readCodeWord] at h ⊢
    rw [hk q (by omega) hr.1]
    obtain ⟨b, hb, h⟩ := Exec.bind_eq_ok.1 h
    rw [hb, Exec.ok_bind]
    split at h
    · exact h
    · split at h
      · rename_i he
        rw [if_pos he]
        exact ih _ _ h (fun k h1 h2 => hk k (by omega) h2)
      · cases h

/-- How reading a code word may stop. -/
theorem readCodeWord_stops {s : State} {codes : List ErrCode} {refusals : List Refusal}
    (h1 : .huffTruncated ∈ codes) (h2 : .huffBadCode ∈ codes) : ∀ (left q : Nat) (word : List Bool),
    (∀ k, q ≤ k → k < q + left → Exec.StopsWithin s codes refusals (bit k)) →
    Exec.StopsWithin s codes refusals (readCodeWord code bit start left q word) := by
  intro left
  induction left with
  | zero => intro q word _; exact .raise h1
  | succ left ih =>
    intro q word h
    rw [readCodeWord]
    refine .bind (h q (by omega) (by omega)) fun b _ => ?_
    split
    · exact .ok _
    · split
      · exact ih _ _ (fun k hk hl => h k (by omega) (by omega))
      · exact .raise h2

end

/-! ### The bits of the span (R204) -/

/-- Span bit q, where it is there. -/
theorem State.spanBit_some {s : State} {base q : Nat} {b : Bool} (h : s.secBuf.bit (base + q) = some b)
    (hb : base + q + 1 ≤ 8 * s.bufLen.toNat) : s.spanBit base q = .ok b := by
  have := State.bits_holds (s := s) (p := base + q) (bs := [b]) ((s.holdsBits_cons _ _ _).2 ⟨h, by simp⟩) hb
  rw [List.length_singleton] at this
  rw [State.spanBit, this, Exec.ok_bind]
  cases b <;> rfl

/-! ### The outer loop -/

/-- All reading a character can do (R203). -/
theorem State.readChar_ok {s : State} {base total : Nat} {sym : Symbol} {q : Nat} {r : Byte × Nat}
    (hq : q ≤ total) (h : s.readChar base total sym q = .ok r) : q ≤ r.2 ∧ r.2 ≤ total := by
  unfold State.readChar at h
  split at h
  · split at h
    · cases h
    · obtain ⟨v, -, h⟩ := Exec.bind_eq_ok.1 h
      cases h; simp only; omega
  · cases h; simp only; omega

theorem State.readChar_stops {s : State} {codes : List ErrCode} {refusals : List Refusal} {base total : Nat}
    {sym : Symbol} {q : Nat} (h1 : .huffTruncated ∈ codes) (hb : base + total ≤ 8 * s.bufLen.toNat) :
    Exec.StopsWithin s codes refusals (s.readChar base total sym q) := by
  unfold State.readChar
  split
  · split
    · exact .raise h1
    · exact .bind (State.bits_stops_inBounds (by omega)) fun _ _ => .ok _
  · exact .ok _

/-- How the outer loop may stop (R208). -/
theorem State.huffLoop_stops {s : State} {codes : List ErrCode} {refusals : List Refusal} {t : CodeTable}
    {base total : Nat} (h1 : .huffTruncated ∈ codes) (h2 : .huffBadCode ∈ codes) (h3 : .outOverflow ∈ codes)
    (hb : base + total ≤ 8 * s.bufLen.toNat) : ∀ (fuel q : Nat) (ctx : Symbol) (out : List Half), q ≤ total →
    Exec.StopsWithin s codes refusals (s.huffLoop t base total fuel q ctx out) := by
  intro fuel
  induction fuel with
  | zero => intro q ctx out _; exact .raise h1
  | succ fuel ih =>
    intro q ctx out hq
    rw [State.huffLoop]
    refine .bind (readCodeWord_stops h1 h2 _ _ _ (fun k _ _ => State.spanBit_stops_inBounds (by omega))) fun r hr => ?_
    have := readCodeWord_ok _ _ _ hr
    split
    · exact .ok _
    · refine .bind (State.readChar_stops h1 hb) fun c hc => ?_
      have := State.readChar_ok (by omega) hc
      exact .bind (emit_stops _ _ h3) fun _ _ => ih _ _ _ this.2

/-- Over bits that are all there, reading a code word meets no fault. -/
theorem readCodeWord_noFault {code : HuffCode} {bit : Nat → Exec Bool} {start : Nat} (f : Fault) :
    ∀ (left q : Nat) (word : List Bool), (∀ k, q ≤ k → k < q + left → ∃ b, bit k = .ok b) →
    readCodeWord code bit start left q word ≠ .error (.fault f) := by
  intro left
  induction left with
  | zero => intro q word _ h; cases h
  | succ left ih =>
    intro q word hb h
    obtain ⟨b, hq⟩ := hb q (by omega) (by omega)
    rw [readCodeWord, hq, Exec.ok_bind] at h
    split at h
    · cases h
    · split at h
      · exact ih _ _ (fun k h1 h2 => hb k (by omega) (by omega)) h
      · cases h

/-- Over a span that is all written, the loop meets no fault. -/
theorem State.huffLoop_noFault {s : State} {t : CodeTable} {base total : Nat} (f : Fault)
    (hb : base + total ≤ 8 * s.bufLen.toNat) (hw : s.fieldWritten base total) :
    ∀ (fuel q : Nat) (ctx : Symbol) (out : List Half), q ≤ total →
    s.huffLoop t base total fuel q ctx out ≠ .error (.fault f) := by
  have span : ∀ k, k < total → ∃ b, s.spanBit base k = .ok b := fun k hk => by
    obtain ⟨b, h⟩ := Option.isSome_iff_exists.1 (hw k hk)
    exact ⟨b, State.spanBit_some h (by omega)⟩
  intro fuel
  induction fuel with
  | zero => intro q ctx out _ h; cases h
  | succ fuel ih =>
    intro q ctx out hq h
    rw [State.huffLoop] at h
    rcases Exec.bind_eq_error.1 h with h | ⟨a, ha, h⟩
    · exact readCodeWord_noFault f _ _ _ (fun k _ h2 => span k (by omega)) h
    · have hr := readCodeWord_ok _ _ _ ha
      split at h
      · cases h
      · rcases Exec.bind_eq_error.1 h with h | ⟨c, hc, h⟩
        · unfold State.readChar at h
          split at h
          · split at h
            · cases h
            · rcases Exec.bind_eq_error.1 h with h | ⟨v, -, h⟩
              · rcases s.bits_cases (base + a.2) s.build.huffLitBits with ⟨-, bs, -, -, e⟩ | ⟨e, -⟩ | ⟨-, k, hk, hn, -, -⟩
                · rw [e] at h; cases h
                · omega
                · have := hw (a.2 + k) (by omega)
                  rw [← Nat.add_assoc, hn] at this
                  cases this
              · cases h
          · cases h
        · have hc' := State.readChar_ok (by omega) hc
          rcases Exec.bind_eq_error.1 h with h | ⟨o, -, h⟩
          · rcases emit_cases out (c.1.setWidth 16) with ⟨-, e⟩ | ⟨-, e⟩ <;> rw [e] at h <;> cases h
          · exact ih _ _ _ hc'.2 h

/-- Where the loop succeeds it has consumed at least the bits it started after, and no more than the span. -/
theorem State.huffLoop_ok {s : State} {t : CodeTable} {base total : Nat} :
    ∀ (fuel q : Nat) (ctx : Symbol) (out : List Half) {r : List Half × Nat}, q ≤ total →
    s.huffLoop t base total fuel q ctx out = .ok r → q ≤ r.2 ∧ r.2 ≤ total := by
  intro fuel
  induction fuel with
  | zero => intro q ctx out r _ h; cases h
  | succ fuel ih =>
    intro q ctx out r hq h
    rw [State.huffLoop] at h
    obtain ⟨a, ha, h⟩ := Exec.bind_eq_ok.1 h
    have hr := readCodeWord_ok _ _ _ ha
    split at h
    · cases h; simp only; omega
    · obtain ⟨c, hc, h⟩ := Exec.bind_eq_ok.1 h
      obtain ⟨o, -, h⟩ := Exec.bind_eq_ok.1 h
      have hc' := State.readChar_ok (by omega) hc
      have := ih _ _ _ hc'.2 h
      omega

/-- What is decoded fits OUTBUF (R12). -/
theorem State.huffLoop_length {s : State} {t : CodeTable} {base total : Nat} :
    ∀ (fuel q : Nat) (ctx : Symbol) (out : List Half) {r : List Half × Nat}, out.length ≤ 4096 →
    s.huffLoop t base total fuel q ctx out = .ok r → r.1.length ≤ 4096 := by
  intro fuel
  induction fuel with
  | zero => intro q ctx out r _ h; cases h
  | succ fuel ih =>
    intro q ctx out r hl h
    rw [State.huffLoop] at h
    obtain ⟨a, -, h⟩ := Exec.bind_eq_ok.1 h
    split at h
    · cases h; exact hl
    · obtain ⟨c, -, h⟩ := Exec.bind_eq_ok.1 h
      obtain ⟨o, ho, h⟩ := Exec.bind_eq_ok.1 h
      rcases emit_cases out (c.1.setWidth 16) with ⟨-, he⟩ | ⟨hne, he⟩ <;> rw [he] at ho
      · cases ho
      · cases ho
        exact ih _ _ _ (by simp; omega) h

/-- One turn of fuel more changes nothing once there are more turns than bits: the fuel is never used up (R208). -/
theorem State.huffLoop_fuel {s : State} {t : CodeTable} {base total : Nat} :
    ∀ (fuel q : Nat) (ctx : Symbol) (out : List Half), q ≤ total → total - q < fuel →
    s.huffLoop t base total fuel q ctx out = s.huffLoop t base total (fuel + 1) q ctx out := by
  intro fuel
  induction fuel with
  | zero => intro q ctx out _ h; omega
  | succ fuel ih =>
    intro q ctx out hq hf
    rw [State.huffLoop, State.huffLoop]
    cases ha : readCodeWord (huffCode s.build t ctx) (s.spanBit base) q (total - q) q [] with
    | error e => rfl
    | ok a =>
      have hr := readCodeWord_ok _ _ _ ha
      simp only [Exec.ok_bind]
      split
      · rfl
      · cases hc : s.readChar base total a.1 a.2 with
        | error e => rfl
        | ok c =>
          have hc' := State.readChar_ok (by omega) hc
          simp only [Exec.ok_bind]
          cases ho : emit out (c.1.setWidth 16) with
          | error e => rfl
          | ok o => exact ih _ _ _ hc'.2 (by omega)

/-- A character whose code word is at q (R203). -/
theorem State.huffLoop_char {s : State} {t : CodeTable} {base total : Nat} (ho : huffOk s.build = true)
    (hb : base + total ≤ 8 * s.bufLen.toNat) {fuel q : Nat} {ctx sym : Symbol} {w : List Bool} {out : List Half}
    (hm : ⟨w, sym⟩ ∈ huffCode s.build t ctx) (hend : sym ≠ s.build.huffEnd)
    (hw : s.holdsBits (base + q) w) (hq : q + w.length ≤ total) :
    s.huffLoop t base total (fuel + 1) q ctx out = (do
      let c ← s.readChar base total sym (q + w.length)
      let out' ← emit out (c.1.setWidth 16)
      s.huffLoop t base total fuel c.2 (huffCtxNext s.build c.1) out') := by
  rw [State.huffLoop, readCodeWord_word (huffOk_code ho t ctx) hm (by omega) (fun k b hk => by
    have hlt := (List.getElem?_eq_some_iff.1 hk).1
    exact State.spanBit_some (by rw [← Nat.add_assoc]; exact hw k b hk) (by omega)), Exec.ok_bind, if_neg hend]

/-- The code word of HUFF_END at q (R203, R205). -/
theorem State.huffLoop_end {s : State} {t : CodeTable} {base total : Nat} (ho : huffOk s.build = true)
    (hb : base + total ≤ 8 * s.bufLen.toNat) {fuel q : Nat} {ctx : Symbol} {w : List Bool} {out : List Half}
    (hm : ⟨w, s.build.huffEnd⟩ ∈ huffCode s.build t ctx)
    (hw : s.holdsBits (base + q) w) (hq : q + w.length ≤ total) :
    s.huffLoop t base total (fuel + 1) q ctx out = .ok (out, q + w.length) := by
  rw [State.huffLoop, readCodeWord_word (huffOk_code ho t ctx) hm (by omega) (fun k b hk => by
    have hlt := (List.getElem?_eq_some_iff.1 hk).1
    exact State.spanBit_some (by rw [← Nat.add_assoc]; exact hw k b hk) (by omega)), Exec.ok_bind, if_pos rfl]

/-- The literal after HUFF_ESC (R203). -/
theorem State.readChar_esc {s : State} {base total q : Nat} {lit : List Bool} (hl : lit.length = s.build.huffLitBits)
    (hb : base + total ≤ 8 * s.bufLen.toNat) (hq : q + lit.length ≤ total) (hh : s.holdsBits (base + q) lit) :
    s.readChar base total s.build.huffEsc q = .ok (BitVec.ofNat 8 (bitsValue lit), q + lit.length) := by
  rw [State.readChar, if_pos rfl, if_neg (by omega), ← hl, State.bits_holds hh (by omega), Exec.ok_bind]

/-- A literal cut short (R203). -/
theorem State.readChar_esc_truncated {s : State} {base total q : Nat} (hq : total < q + s.build.huffLitBits) :
    s.readChar base total s.build.huffEsc q = raise .huffTruncated (BitVec.ofNat 32 q) := by
  rw [State.readChar, if_pos rfl, if_pos hq]

theorem State.readChar_char {s : State} {base total q : Nat} {sym : Symbol} (h : sym ≠ s.build.huffEsc) :
    s.readChar base total sym q = .ok (sym.setWidth 8, q) := by
  rw [State.readChar, if_neg h]

/-- Every character has at least one bit. -/
theorem Chars.length_le {b : Build} {t : CodeTable} (ho : huffOk b = true) {c : Symbol} {bs : List Bool}
    {out : List Half} {c' : Symbol} (h : Chars b t c bs out c') : out.length ≤ bs.length := by
  have pos : ∀ {ctx sym : Symbol} {w : List Bool}, ⟨w, sym⟩ ∈ huffCode b t ctx → 1 ≤ w.length := by
    intro ctx sym w hm
    have := ((codeOk_iff _).1 (huffOk_code ho t ctx)).1 _ hm
    exact List.length_pos_iff.2 this
  induction h with
  | nil c => simp
  | char c w sym bs out c' hm _ _ _ ih => have := pos hm; simp only [List.length_cons, List.length_append]; omega
  | esc c w lit bs out c' hm _ _ ih => have := pos hm; simp only [List.length_cons, List.length_append]; omega

/-- The loop over the bits of a string of characters appends them (R203). -/
theorem State.huffLoop_chars {s : State} {t : CodeTable} {base total : Nat} (ho : huffOk s.build = true)
    (hb : base + total ≤ 8 * s.bufLen.toNat) {c : Symbol} {bs : List Bool} {us : List Half} {c' : Symbol}
    (h : Chars s.build t c bs us c') : ∀ (fuel q : Nat) (out : List Half), s.holdsBits (base + q) bs →
    q + bs.length ≤ total → out.length + us.length ≤ 4096 → us.length ≤ fuel →
    s.huffLoop t base total fuel q c out =
      s.huffLoop t base total (fuel - us.length) (q + bs.length) c' (out ++ us) := by
  induction h with
  | nil c => intro fuel q out _ _ _ _; simp
  | char c w sym bs us c' hm hend hesc _ ih =>
    intro fuel q out hw hq hu hf
    simp only [List.length_cons, List.length_append] at hq hu hf
    obtain ⟨fuel, rfl⟩ : ∃ f, fuel = f + 1 := ⟨fuel - 1, by omega⟩
    rw [State.holdsBits_append] at hw
    rw [State.huffLoop_char ho hb hm hend hw.1 (by omega), State.readChar_char hesc, Exec.ok_bind]
    rcases emit_cases out ((sym.setWidth 8).setWidth 16) with ⟨he, -⟩ | ⟨-, he⟩
    · omega
    · rw [he, Exec.ok_bind, ih fuel (q + w.length) _ (by rw [← Nat.add_assoc]; exact hw.2) (by omega)
        (by simp only [List.length_append, List.length_singleton]; omega) (by omega)]
      have e : (sym.setWidth 8).setWidth 16 = sym.setWidth 16 := by
        apply BitVec.eq_of_toNat_eq
        have := sym.isLt
        simp only [BitVec.toNat_setWidth]; omega
      rw [e, List.append_assoc, List.singleton_append, List.length_cons, List.length_append, Nat.add_assoc,
        Nat.add_sub_add_right]
  | esc c w lit bs us c' hm hlit _ ih =>
    intro fuel q out hw hq hu hf
    simp only [List.length_cons, List.length_append] at hq hu hf
    obtain ⟨fuel, rfl⟩ : ∃ f, fuel = f + 1 := ⟨fuel - 1, by omega⟩
    rw [State.holdsBits_append, State.holdsBits_append, List.length_append] at hw
    have hesc : s.build.huffEsc ≠ s.build.huffEnd := fun h => ((huffOk_iff _).1 ho).2.2.1 h.symm
    rw [State.huffLoop_char ho hb hm hesc hw.1.1 (by omega),
      State.readChar_esc hlit hb (by omega) (by rw [← Nat.add_assoc]; exact hw.1.2), Exec.ok_bind]
    rcases emit_cases out ((BitVec.ofNat 8 (bitsValue lit)).setWidth 16) with ⟨he, -⟩ | ⟨-, he⟩
    · omega
    · rw [he, Exec.ok_bind, ih fuel (q + w.length + lit.length) _
        (by rw [Nat.add_assoc q, ← Nat.add_assoc]; exact hw.2) (by omega)
        (by simp only [List.length_append, List.length_singleton]; omega) (by omega)]
      have hv := bitsValue_lt lit
      have hp : 2 ^ lit.length ≤ 2 ^ 8 := Nat.pow_le_pow_right (by decide) (by have := ((huffOk_iff _).1 ho).2.2.2.2; omega)
      have e : (BitVec.ofNat 8 (bitsValue lit)).setWidth 16 = BitVec.ofNat 16 (bitsValue lit) := by
        apply BitVec.eq_of_toNat_eq
        simp only [BitVec.toNat_setWidth, BitVec.toNat_ofNat]; omega
      rw [e, List.append_assoc, List.singleton_append, List.length_cons, List.length_append, List.length_append,
        Nat.add_sub_add_right, Nat.add_assoc, Nat.add_assoc, Nat.add_assoc]

/-- Where the loop succeeds, it succeeds alike over any SECBUF that has the same bits where it read (R205). -/
theorem State.huffLoop_congr {s s' : State} {t : CodeTable} {base total : Nat} (hl : s'.bufLen = s.bufLen)
    (hbuild : s'.build = s.build) : ∀ (fuel q : Nat) (ctx : Symbol) (out : List Half) {r : List Half × Nat},
    q ≤ total → s.huffLoop t base total fuel q ctx out = .ok r →
    (∀ k, q ≤ k → k < r.2 → s'.secBuf.bit (base + k) = s.secBuf.bit (base + k)) →
    s'.huffLoop t base total fuel q ctx out = .ok r := by
  intro fuel
  induction fuel with
  | zero => intro q ctx out r _ h; cases h
  | succ fuel ih =>
    intro q ctx out r hq h hk
    rw [State.huffLoop] at h ⊢
    rw [hbuild]
    obtain ⟨a, ha, h⟩ := Exec.bind_eq_ok.1 h
    have hr := readCodeWord_ok _ _ _ ha
    have span : ∀ k, q ≤ k → k < r.2 → s'.spanBit base k = s.spanBit base k := by
      intro k h1 h2
      unfold State.spanBit
      rw [State.bits_congr hl (fun _ j hj => by
        rw [show base + k + j = base + k by omega]; exact hk k h1 h2)]
    have hle : a.2 ≤ r.2 := by
      split at h
      · cases h; exact Nat.le_refl _
      · obtain ⟨c, hc, h⟩ := Exec.bind_eq_ok.1 h
        obtain ⟨o, -, h⟩ := Exec.bind_eq_ok.1 h
        have hc' := State.readChar_ok (by omega) hc
        have := State.huffLoop_ok _ _ _ _ hc'.2 h
        omega
    rw [readCodeWord_congr _ _ _ ha (fun k h1 h2 => span k h1 (by omega)), Exec.ok_bind]
    split at h
    · rename_i he
      rw [if_pos he]; exact h
    · rename_i he
      rw [if_neg he]
      obtain ⟨c, hc, h⟩ := Exec.bind_eq_ok.1 h
      obtain ⟨o, ho, h⟩ := Exec.bind_eq_ok.1 h
      have hc' := State.readChar_ok (by omega) hc
      have hlast := State.huffLoop_ok _ _ _ _ hc'.2 h
      have ec : s'.readChar base total a.1 a.2 = .ok c := by
        rw [← hc]
        unfold State.readChar
        rw [hbuild]
        split
        · split
          · rfl
          · rename_i hesc htr
            have hc2 : c.2 = a.2 + s.build.huffLitBits := by
              rw [State.readChar, if_pos hesc, if_neg htr] at hc
              obtain ⟨v, -, hc⟩ := Exec.bind_eq_ok.1 hc
              cases hc; rfl
            rw [State.bits_congr hl (fun _ j hj => by
              rw [Nat.add_assoc]; exact hk _ (by omega) (by omega))]
        · rfl
      rw [ec, Exec.ok_bind, ho, Exec.ok_bind]
      exact ih _ _ _ hc'.2 h (fun k h1 h2 => hk k (by omega) h2)

/-- How HUFFDEC may stop (R303). -/
theorem State.huffDecode_stops {s : State} {codes : List ErrCode} {refusals : List Refusal} (t : CodeTable)
    (h0 : .outOfBounds ∈ codes) (h1 : .huffTruncated ∈ codes) (h2 : .huffBadCode ∈ codes)
    (h3 : .outOverflow ∈ codes) (hr : huffOk s.build = false → .huffCodeIllFormed ∈ refusals) :
    Exec.StopsWithin s codes refusals (s.huffDecode t) := by
  unfold State.huffDecode
  split
  · split
    · rename_i hb
      simp only [State.bytesInBounds, decide_eq_true_eq] at hb
      exact .bind (State.huffLoop_stops h1 h2 h3 (by simp only [State.byteOffset, State.byteLength, State.extent] at *; omega) _ _ _ _ (by omega))
        fun _ _ => .ok _
    · exact .raise h0
  · rename_i h
    intro e he
    cases he
    exact hr (by simpa using h)

/-- HUFFDEC with a meaning and a span in bounds (R203). -/
theorem State.huffDecode_eq {s : State} (t : CodeTable) (ho : huffOk s.build = true)
    (hb : s.arg0.toNat + s.arg1.toNat ≤ s.bufLen.toNat) : s.huffDecode t = (do
      let r ← s.huffLoop t (8 * s.arg0.toNat) (8 * s.arg1.toNat) (8 * s.arg1.toNat + 1) 0 s.build.huffCtxStart []
      .ok { out := some r.1, res0 := some (BitVec.ofNat 32 r.1.length), res1 := some (BitVec.ofNat 32 r.2) }) := by
  rw [State.huffDecode, if_pos ho, if_pos (by simpa [State.bytesInBounds] using hb)]

end Sys2Proof.Machine
end

