-- ==== Sys2Proof/Laws/Frame.lean ====
section
/-! SUPPORT. The frame of every command at once: the errors it may raise (R303), the refusals, the results it names (R150, R183, R207, R236), and the inputs it reads (R121). -/

namespace Sys2Proof.Machine

/-! ### How each command may stop -/

/-- The errors of a command: the table of R303, with ILLEGAL_CMD for the widths no word has, and with the OUT_OVERFLOW that DVBTEXT never reaches while BUFLEN is at most 4096 (R232). -/
def commandErrors : Instr → List ErrCode
  | .nop => []
  | .byteAt => [.outOfBounds]
  | .word16At => [.outOfBounds]
  | .word32At => [.outOfBounds]
  | .sliceAt => [.outOfBounds]
  | .isClone => []
  | .bitField _ => [.illegalCmd, .outOfBounds]
  | .seekBit => [.outOfBounds]
  | .readBits _ => [.illegalCmd, .outOfBounds]
  | .peekBits _ => [.illegalCmd, .outOfBounds]
  | .secHdr => [.outOfBounds, .badSectionLength]
  | .hasCrc => [.outOfBounds]
  | .calcCrc => [.outOfBounds]
  | .verifyCrc => [.outOfBounds, .badSectionLength]
  | .secCrc => [.outOfBounds, .noCrcTrailer, .badSectionLength]
  | .setCrc => [.readOnly, .outOfBounds, .noCrcTrailer, .badSectionLength]
  | .huffDecC5 => [.outOfBounds, .huffBadCode, .huffTruncated, .outOverflow]
  | .huffDecC7 => [.outOfBounds, .huffBadCode, .huffTruncated, .outOverflow]
  | .dvbText => [.outOfBounds, .unsupportedCharset, .textTruncated, .outOverflow]

/-- The refusals of a command: those of a parameter without a meaning (R46, R201). -/
def commandRefusals (b : Build) : Instr → List Refusal
  | .huffDecC5 => if huffOk b then [] else [.huffCodeIllFormed]
  | .huffDecC7 => if huffOk b then [] else [.huffCodeIllFormed]
  | .dvbText => if b.dvbDefault = .p12 then [.isoTableAbsent .p12] else []
  | _ => []

/-- No command raises NONE: a failure has a code (R32). -/
theorem none_not_mem_commandErrors (i : Instr) : .none ∉ commandErrors i := by
  cases i <;> simp [commandErrors]

/-- Each command stops in the ways of its row of R303 only, or at an unwritten byte below BUFLEN, or for a parameter without a meaning. -/
theorem State.commandExec_stops (s : State) (i : Instr) :
    Exec.StopsWithin s (commandErrors i) (commandRefusals s.build i) (s.commandExec i) := by
  have huff : ∀ t, Exec.StopsWithin s [.outOfBounds, .huffBadCode, .huffTruncated, .outOverflow]
      (if huffOk s.build then [] else [.huffCodeIllFormed]) (s.huffDecode t) := fun t =>
    State.huffDecode_stops t (by simp) (by simp) (by simp) (by simp) (fun h => by simp [h])
  have oob : ∀ {x : ErrCode} {l : List ErrCode}, x ∈ x :: l := List.mem_cons_self
  cases i with
  | nop => exact .ok _
  | byteAt => exact .bind (State.memRead_stops _ _ oob) fun _ _ => .ok _
  | word16At => exact .bind (State.memRead_stops _ _ oob) fun _ _ => .ok _
  | word32At => exact .bind (State.memRead_stops _ _ oob) fun _ _ => .ok _
  | sliceAt =>
    simp only [State.commandExec, State.sliceAtExec]
    split
    · exact .ok _
    · exact .raise oob
  | isClone => exact .ok _
  | bitField w =>
    exact .bind (State.checkWidth_stops w oob) fun _ _ =>
      .bind (State.bits_stops _ _ (List.mem_cons_of_mem _ oob)) fun _ _ => .ok _
  | seekBit =>
    simp only [State.commandExec, State.seekBitExec]
    split
    · exact .ok _
    · exact .raise oob
  | readBits w =>
    exact .bind (State.checkWidth_stops w oob) fun _ _ =>
      .bind (State.bits_stops _ _ (List.mem_cons_of_mem _ oob)) fun _ _ => .ok _
  | peekBits w =>
    exact .bind (State.checkWidth_stops w oob) fun _ _ =>
      .bind (State.bits_stops _ _ (List.mem_cons_of_mem _ oob)) fun _ _ => .ok _
  | secHdr =>
    refine .bind (State.readHdr_stops oob) fun h _ => ?_
    simp only
    split
    · exact .raise (by simp [commandErrors])
    · exact .ok _
  | hasCrc => exact .bind (State.readHdr_stops oob) fun _ _ => .ok _
  | calcCrc => exact .bind (State.crc_stops _ _ oob) fun _ _ => .ok _
  | verifyCrc =>
    refine .bind (State.readHdr_stops oob) fun h _ => ?_
    simp only
    split
    · split
      · exact .raise (by simp [commandErrors])
      · exact .bind (State.crc_stops _ _ oob) fun _ _ => .bind (State.memRead_stops _ _ oob) fun _ _ => .ok _
    · exact .ok _
  | secCrc =>
    refine .bind (State.readHdr_stops oob) fun h _ => ?_
    simp only
    split
    · split
      · exact .raise (by simp [commandErrors])
      · exact .bind (State.crc_stops _ _ oob) fun _ _ => .ok _
    · exact .raise (by simp [commandErrors])
  | setCrc =>
    refine .bind ?_ fun _ _ => .ok _
    unfold State.trailerOffset
    split
    · refine .bind (State.readHdr_stops (by simp [commandErrors])) fun h _ => ?_
      simp only
      split
      · split
        · exact .raise (by simp [commandErrors])
        · exact .ok _
      · exact .raise (by simp [commandErrors])
    · exact .raise (by simp [commandErrors])
  | huffDecC5 => exact huff .c5
  | huffDecC7 => exact huff .c7
  | dvbText =>
    exact State.textDecode_stops (by simp [commandErrors]) (by simp [commandErrors]) (by simp [commandErrors])
      (by simp [commandErrors]) (fun h => by simp [commandRefusals, h])

/-- The code of a failed command is not NONE. -/
theorem State.commandExec_code {s : State} {i : Instr} {c : ErrCode} {info : Word}
    (h : s.commandExec i = raise c info) : c ≠ .none := by
  rintro rfl
  exact none_not_mem_commandErrors i (s.commandExec_stops i _ h)

/-! ### What each command names -/

/-- The results a command names (R150, R183, R207, R236). -/
def Names (s : State) (i : Instr) (w : Writes) : Prop :=
  match i with
  | .nop => w = {}
  | .byteAt => ∃ v, w = { res0 := some v }
  | .word16At => ∃ v, w = { res0 := some v }
  | .word32At => ∃ v, w = { res0 := some v }
  | .sliceAt => ∃ v u, w = { res0 := some v, res1 := some u }
  | .isClone => ∃ v, w = { res0 := some v }
  | .bitField _ => ∃ v, w = { res0 := some v }
  | .seekBit => ∃ p, p.toNat ≤ 8 * s.bufLen.toNat ∧ w = { curPos := some p }
  | .readBits _ => ∃ v p, p.toNat ≤ 8 * s.bufLen.toNat ∧ w = { res0 := some v, curPos := some p }
  | .peekBits _ => ∃ v, w = { res0 := some v }
  | .secHdr => ∃ v u, w = { res0 := some v, res1 := some u }
  | .hasCrc => ∃ v, w = { res0 := some v }
  | .calcCrc => ∃ v, w = { res0 := some v }
  | .verifyCrc => ∃ v u, w = { res0 := some v, res1 := some u }
  | .secCrc => ∃ v, w = { res0 := some v }
  | .setCrc => ∃ off, s.trailerOffset = .ok off ∧ w = { trailer := some (off, s.arg0) }
  | .huffDecC5 => ∃ us v u, us.length ≤ 4096 ∧ w = { out := some us, res0 := some v, res1 := some u }
  | .huffDecC7 => ∃ us v u, us.length ≤ 4096 ∧ w = { out := some us, res0 := some v, res1 := some u }
  | .dvbText => ∃ us v u, us.length ≤ 4096 ∧ w = { out := some us, res0 := some v, res1 := some u }

/-- HUFFDEC names the decoded string and its two results (R203, R207). -/
theorem State.huffDecode_names {s : State} {t : CodeTable} {w : Writes} (h : s.huffDecode t = .ok w) :
    ∃ us v u, us.length ≤ 4096 ∧ w = { out := some us, res0 := some v, res1 := some u } := by
  unfold State.huffDecode at h
  split at h
  · split at h
    · obtain ⟨r, hr, h⟩ := Exec.bind_eq_ok.1 h
      cases h
      exact ⟨_, _, _, State.huffLoop_length _ _ _ _ (by simp) hr, rfl⟩
    · cases h
  · cases h

/-- DVBTEXT names the decoded string and its two results (R232, R236). -/
theorem State.textDecode_names {s : State} {w : Writes} (h : s.textDecode = .ok w) :
    ∃ us v u, us.length ≤ 4096 ∧ w = { out := some us, res0 := some v, res1 := some u } := by
  unfold State.textDecode at h
  split at h
  · split at h
    · cases h
      exact ⟨[], _, _, by simp, rfl⟩
    · obtain ⟨r, -, h⟩ := Exec.bind_eq_ok.1 h
      obtain ⟨out, ho, h⟩ := Exec.bind_eq_ok.1 h
      cases h
      exact ⟨_, _, _, State.decodeChars_length ho, rfl⟩
  · cases h

/-- Where SETCRC's trailer is found, it lies behind the header and below BUFLEN (R180). -/
theorem State.trailerOffset_ok {s : State} {off : Nat} (h : s.trailerOffset = .ok off) :
    3 ≤ off ∧ off + 4 ≤ s.bufLen.toNat := by
  unfold State.trailerOffset at h
  split at h
  · obtain ⟨hd, -, h⟩ := Exec.bind_eq_ok.1 h
    simp only at h
    split at h
    · split at h
      · cases h
      · rename_i hl
        cases h
        simp only [State.extent] at hl
        omega
    · cases h
  · cases h

/-- A command that succeeds names what its rule names. -/
theorem State.commandExec_names {s : State} {i : Instr} {w : Writes} (h : s.commandExec i = .ok w) :
    Names s i w := by
  have hlen := s.bufLen.isLt
  cases i with
  | nop => cases h; rfl
  | byteAt => obtain ⟨v, -, h⟩ := Exec.bind_eq_ok.1 h; cases h; exact ⟨_, rfl⟩
  | word16At => obtain ⟨v, -, h⟩ := Exec.bind_eq_ok.1 h; cases h; exact ⟨_, rfl⟩
  | word32At => obtain ⟨v, -, h⟩ := Exec.bind_eq_ok.1 h; cases h; exact ⟨_, rfl⟩
  | sliceAt =>
    simp only [State.commandExec, State.sliceAtExec] at h
    split at h <;> cases h
    exact ⟨_, _, rfl⟩
  | isClone => cases h; exact ⟨_, rfl⟩
  | bitField w =>
    obtain ⟨_, -, h⟩ := Exec.bind_eq_ok.1 h
    obtain ⟨v, -, h⟩ := Exec.bind_eq_ok.1 h
    cases h; exact ⟨_, rfl⟩
  | seekBit =>
    simp only [State.commandExec, State.seekBitExec] at h
    split at h
    · rename_i hb
      cases h
      simp only [State.bitsInBounds, State.bitAddress, State.extent, decide_eq_true_eq] at hb
      exact ⟨_, by simp only [BitVec.toNat_ofNat, State.bitAddress]; omega, rfl⟩
    · cases h
  | readBits w =>
    obtain ⟨_, -, h⟩ := Exec.bind_eq_ok.1 h
    obtain ⟨v, hv, h⟩ := Exec.bind_eq_ok.1 h
    cases h
    have hb : s.cursor + w.toNat ≤ 8 * s.bufLen.toNat := by
      by_contra hn
      rw [State.bits_outOfBounds (by omega)] at hv
      cases hv
    simp only [State.cursor] at hb
    exact ⟨_, _, by simp only [BitVec.toNat_ofNat, State.cursor]; omega, rfl⟩
  | peekBits w =>
    obtain ⟨_, -, h⟩ := Exec.bind_eq_ok.1 h
    obtain ⟨v, -, h⟩ := Exec.bind_eq_ok.1 h
    cases h; exact ⟨_, rfl⟩
  | secHdr =>
    obtain ⟨hd, -, h⟩ := Exec.bind_eq_ok.1 h
    simp only at h
    split at h <;> cases h
    exact ⟨_, _, rfl⟩
  | hasCrc => obtain ⟨v, -, h⟩ := Exec.bind_eq_ok.1 h; cases h; exact ⟨_, rfl⟩
  | calcCrc => obtain ⟨v, -, h⟩ := Exec.bind_eq_ok.1 h; cases h; exact ⟨_, rfl⟩
  | verifyCrc =>
    obtain ⟨hd, -, h⟩ := Exec.bind_eq_ok.1 h
    simp only at h
    split at h
    · split at h
      · cases h
      · obtain ⟨c, -, h⟩ := Exec.bind_eq_ok.1 h
        obtain ⟨t, -, h⟩ := Exec.bind_eq_ok.1 h
        cases h; exact ⟨_, _, rfl⟩
    · cases h; exact ⟨_, _, rfl⟩
  | secCrc =>
    obtain ⟨hd, -, h⟩ := Exec.bind_eq_ok.1 h
    simp only at h
    split at h
    · split at h
      · cases h
      · obtain ⟨c, -, h⟩ := Exec.bind_eq_ok.1 h
        cases h; exact ⟨_, rfl⟩
    · cases h
  | setCrc =>
    obtain ⟨off, hoff, h⟩ := Exec.bind_eq_ok.1 h
    cases h; exact ⟨off, hoff, rfl⟩
  | huffDecC5 => exact State.huffDecode_names h
  | huffDecC7 => exact State.huffDecode_names h
  | dvbText => exact State.textDecode_names h

/-! ### What each command reads -/

/-- Two states with the same inputs of a command: CMD, ARG0, ARG1, CTRL.CLONE, BUFLEN, CURPOS, SECBUF below BUFLEN, and the parameters (R121). -/
structure SameInputs (s s' : State) : Prop where
  cmd    : s'.cmd = s.cmd
  arg0   : s'.arg0 = s.arg0
  arg1   : s'.arg1 = s.arg1
  clone  : s'.ctrl.clone = s.ctrl.clone
  bufLen : s'.bufLen = s.bufLen
  curPos : s'.curPos = s.curPos
  build  : s'.build = s.build
  secBuf : ∀ a, a < s.bufLen.toNat → s'.secBuf.get a = s.secBuf.get a

section
variable {s s' : State}

variable (h : SameInputs s s')
include h

theorem SameInputs.bytesInBounds : s'.bytesInBounds = s.bytesInBounds := by
  funext off n; simp only [State.bytesInBounds, State.extent, h.bufLen]

theorem SameInputs.memRead : s'.memRead = s.memRead := by
  funext off n
  unfold State.memRead
  rw [h.bytesInBounds]
  split
  · rename_i hb
    simp only [State.bytesInBounds, State.extent, decide_eq_true_eq] at hb
    exact State.readBytes_congr _ _ _ (fun k hk => h.secBuf _ (by omega))
  · rfl

theorem SameInputs.bits : s'.bits = s.bits := by
  funext p w
  refine State.bits_congr h.bufLen (fun hb k hk => ?_)
  simp only [Memory.bit, h.secBuf ((p + k) / 8) (by omega)]

theorem SameInputs.crc : s'.crc = s.crc := by
  have loop : ∀ n off c, s'.crcLoop n off c = s.crcLoop n off c := by
    intro n
    induction n with
    | zero => intros; rfl
    | succ n ih => intro off c; simp only [State.crcLoop, h.memRead, ih]
  funext off n
  unfold State.crc
  rw [h.bytesInBounds, loop]

theorem SameInputs.readHdr : s'.readHdr = s.readHdr := by
  unfold State.readHdr
  rw [h.bytesInBounds, h.memRead]

theorem SameInputs.checkWidth : s'.checkWidth = s.checkWidth := by
  funext w; simp only [State.checkWidth, h.cmd]

theorem SameInputs.trailerOffset : s'.trailerOffset = s.trailerOffset := by
  unfold State.trailerOffset
  simp only [State.extent, h.clone, h.readHdr, h.build, h.bufLen]

theorem SameInputs.huffDecode (t : CodeTable) : s'.huffDecode t = s.huffDecode t := by
  have span : s'.spanBit = s.spanBit := by
    funext base q; simp only [State.spanBit, h.bits]
  have char : s'.readChar = s.readChar := by
    funext base total sym q; simp only [State.readChar, h.bits, h.build]
  have loop : ∀ base total fuel q ctx out,
      s'.huffLoop t base total fuel q ctx out = s.huffLoop t base total fuel q ctx out := by
    intro base total fuel
    induction fuel with
    | zero => intros; rfl
    | succ fuel ih => intro q ctx out; simp only [State.huffLoop, span, char, h.build, ih]
  unfold State.huffDecode
  simp only [State.byteOffset, State.byteLength, h.build, h.arg0, h.arg1, h.bytesInBounds, loop]

theorem SameInputs.textDecode : s'.textDecode = s.textDecode := by
  have sel : s'.selector = s.selector := by
    funext off n; simp only [State.selector, h.memRead, h.build]
  have bytes : ∀ p n j out, s'.decodeBytes p n j out = s.decodeBytes p n j out := by
    intro p n
    induction n with
    | zero => intros; rfl
    | succ n ih => intro j out; simp only [State.decodeBytes, h.memRead, h.build, ih]
  have units : ∀ n j out, s'.decodeUnits n j out = s.decodeUnits n j out := by
    intro n
    induction n with
    | zero => intros; rfl
    | succ n ih => intro j out; simp only [State.decodeUnits, h.memRead, ih]
  have chars : s'.decodeChars = s.decodeChars := by
    funext enc i e n; simp only [State.decodeChars, bytes, units]
  unfold State.textDecode
  simp only [State.byteOffset, State.byteLength, h.build, h.arg0, h.arg1, h.bytesInBounds, sel, chars]

/-- A command's Exec is a function of its inputs (R71, R121). -/
theorem SameInputs.commandExec (i : Instr) : s'.commandExec i = s.commandExec i := by
  cases i with
  | nop => rfl
  | byteAt => simp only [State.commandExec, State.byteAtExec, State.byteOffset, h.memRead, h.arg0]
  | word16At => simp only [State.commandExec, State.word16AtExec, State.byteOffset, h.memRead, h.arg0]
  | word32At => simp only [State.commandExec, State.word32AtExec, State.byteOffset, h.memRead, h.arg0]
  | sliceAt =>
    simp only [State.commandExec, State.sliceAtExec, State.byteOffset, State.byteLength, h.bytesInBounds, h.arg0, h.arg1]
  | isClone => simp only [State.commandExec, State.isCloneExec, h.clone]
  | bitField w => simp only [State.commandExec, State.bitFieldExec, State.bitAddress, h.checkWidth, h.bits, h.arg0]
  | seekBit =>
    have e : s'.bitsInBounds = s.bitsInBounds := by
      funext p w; simp only [State.bitsInBounds, State.extent, h.bufLen]
    simp only [State.commandExec, State.seekBitExec, State.bitAddress, h.arg0, e]
  | readBits w => simp only [State.commandExec, State.readBitsExec, State.cursor, h.checkWidth, h.bits, h.curPos]
  | peekBits w => simp only [State.commandExec, State.peekBitsExec, State.cursor, h.checkWidth, h.bits, h.curPos]
  | secHdr => simp only [State.commandExec, State.secHdrExec, State.extent, h.readHdr, h.build, h.bufLen]
  | hasCrc => simp only [State.commandExec, State.hasCrcExec, h.readHdr, h.build]
  | calcCrc => simp only [State.commandExec, State.calcCrcExec, State.byteOffset, State.byteLength, h.crc, h.arg0, h.arg1]
  | verifyCrc =>
    simp only [State.commandExec, State.verifyCrcExec, State.extent, h.readHdr, h.build, h.bufLen, h.crc, h.memRead]
  | secCrc => simp only [State.commandExec, State.secCrcExec, State.extent, h.readHdr, h.build, h.bufLen, h.crc]
  | setCrc => simp only [State.commandExec, State.setCrcExec, h.trailerOffset, h.arg0]
  | huffDecC5 => exact h.huffDecode .c5
  | huffDecC7 => exact h.huffDecode .c7
  | dvbText => exact h.textDecode

end

end Sys2Proof.Machine
end

