-- ==== Sys2Proof/Laws/HostBus.lean ====
section
/-! SUPPORT. All that a host access can do (R62, R63, R67, R68): one lemma for each region of the window, and one that lists every effect of a write. -/

namespace Sys2Proof.Machine

/-! ### Dropped writes -/

/-- A write that BUSY = 0 lets through (R67). -/
theorem State.unlessBusy_idle {s s' : State} (h : s.status.busy = false) : s.unlessBusy s' = s' := by
  simp [State.unlessBusy, h]

/-- A write that BUSY = 1 drops (R67). -/
theorem State.unlessBusy_busy {s s' : State} (h : s.status.busy = true) :
    s.unlessBusy s' = { s with status := s.status.dropped } := by
  simp [State.unlessBusy, h]

/-! ### The widths and alignments of R63 -/

theorem accessLegal_registers {size : AccessSize} {off : Nat} (h : off < 0x1000) :
    accessLegal size off = true ↔ size = .b32 ∧ off % 4 = 0 := by
  simp [accessLegal, regionOf, h]

theorem accessLegal_buffers {size : AccessSize} {off : Nat} (h : 0x1000 ≤ off) :
    accessLegal size off = true ↔ size ≠ .b64 ∧ off % size.bytes = 0 := by
  unfold accessLegal regionOf
  simp only [Nat.not_lt.2 h, if_false]
  split <;> rename_i e <;> split at e <;> simp_all

/-- A naturally aligned access lies within its 4096-byte page of the window. -/
theorem accessLegal_within {size : AccessSize} {off : Nat} (h : 0x1000 ≤ off) (h2 : off < 0x2000)
    (hl : accessLegal size off = true) : off - 0x1000 + size.bytes ≤ 4096 := by
  rw [accessLegal_buffers h] at hl
  obtain ⟨h64, ha⟩ := hl
  cases size <;> simp only [AccessSize.bytes] at ha ⊢ <;> omega

/-! ### Reads -/

/-- A read that is no legal access is a bus error (R63). -/
theorem State.hostRead_illegal {size : AccessSize} {off : Nat} (s : State)
    (h : accessLegal size off = false) : s.hostRead size off = .error (.hostBusError size off) := by
  simp [State.hostRead, h]

/-- A read of a register (R63). -/
theorem State.hostRead_register (s : State) (off : Nat) (h : off < 0x1000) (h4 : off % 4 = 0) :
    s.hostRead .b32 off = .ok (s.readRegAt off) := by
  simp [State.hostRead, (accessLegal_registers (size := .b32) h).2 ⟨rfl, h4⟩, regionOf, h]

/-- A read of SECBUF (R40, R63). -/
theorem State.hostRead_section (s : State) {size : AccessSize} {off : Nat}
    (hl : accessLegal size off = true) (h : 0x1000 ≤ off) (h2 : off < 0x2000) :
    s.hostRead size off = (hostBytes s.hostSecByte size.bytes (off - 0x1000) 0).map (BitVec.ofNat 32) := by
  simp [State.hostRead, hl, regionOf, Nat.not_lt.2 h, h2]

/-- A read of OUTBUF (R42, R63). -/
theorem State.hostRead_output (s : State) {size : AccessSize} {off : Nat}
    (hl : accessLegal size off = true) (h : 0x2000 ≤ off) :
    s.hostRead size off = (hostBytes s.outByte size.bytes (off - 0x2000) 0).map (BitVec.ofNat 32) := by
  simp [State.hostRead, hl, regionOf, Nat.not_lt.2 h, show ¬off < 0x1000 by omega]

/-- The bytes of a read, where each is there. -/
theorem hostBytes_ok (byte : Nat → Except Fault Byte) : ∀ (bs : List Byte) (k acc : Nat),
    (∀ j b, bs[j]? = some b → byte (k + j) = .ok b) →
    hostBytes byte bs.length k acc = .ok (bs.foldl (fun a b => a * 256 + b.toNat) acc) := by
  intro bs
  induction bs with
  | nil => intros; rfl
  | cons b bs ih =>
    intro k acc h
    have h0 : byte k = .ok b := h 0 b rfl
    have hr := ih (k + 1) (acc * 256 + b.toNat) (fun j c hc => by
      rw [show k + 1 + j = k + (j + 1) by omega]; exact h (j + 1) c (by simpa using hc))
    simp only [List.length_cons, hostBytes, h0, List.foldl_cons]
    exact hr

/-- A read stops at its first byte that is not there. -/
theorem hostBytes_error (byte : Nat → Except Fault Byte) (f : Fault) (n k acc : Nat)
    (h : byte k = .error f) : hostBytes byte (n + 1) k acc = .error f := by
  simp only [hostBytes, h]
  rfl

/-- The first byte that fails decides the read. -/
theorem hostBytes_first (byte : Nat → Except Fault Byte) (f : Fault) : ∀ (j n k acc : Nat), j < n →
    (∀ l, l < j → ∃ b, byte (k + l) = .ok b) → byte (k + j) = .error f → hostBytes byte n k acc = .error f := by
  intro j
  induction j with
  | zero =>
    intro n k acc hj _ h
    obtain ⟨n, rfl⟩ : ∃ m, n = m + 1 := ⟨n - 1, by omega⟩
    exact hostBytes_error byte f n k acc h
  | succ j ih =>
    intro n k acc hj hok h
    obtain ⟨n, rfl⟩ : ∃ m, n = m + 1 := ⟨n - 1, by omega⟩
    obtain ⟨b, hb⟩ := hok 0 (by omega)
    have e : hostBytes byte (n + 1) k acc = hostBytes byte n (k + 1) (acc * 256 + b.toNat) := by
      simp only [hostBytes, show byte k = .ok b from hb]; rfl
    rw [e]
    exact ih n (k + 1) _ (by omega)
      (fun l hl => by rw [show k + 1 + l = k + (l + 1) by omega]; exact hok (l + 1) (by omega))
      (by rwa [show k + 1 + j = k + (j + 1) by omega])

/-- A read of one byte. -/
theorem hostBytes_one {byte : Nat → Except Fault Byte} {k : Nat} {b : Byte} (h : byte k = .ok b) :
    hostBytes byte 1 k 0 = .ok b.toNat := by
  have := hostBytes_ok byte [b] k 0 (by intro j c hc; rcases j with _ | j <;> simp_all)
  simpa using this

/-- A read of two bytes. -/
theorem hostBytes_two {byte : Nat → Except Fault Byte} {k : Nat} {b c : Byte} (h : byte k = .ok b)
    (h1 : byte (k + 1) = .ok c) : hostBytes byte 2 k 0 = .ok (b.toNat * 256 + c.toNat) := by
  have := hostBytes_ok byte [b, c] k 0 (by intro j c hc; rcases j with _ | _ | j <;> simp_all)
  simpa using this

/-- A read of four bytes. -/
theorem hostBytes_four {byte : Nat → Except Fault Byte} {k : Nat} {b c d e : Byte} (h : byte k = .ok b)
    (h1 : byte (k + 1) = .ok c) (h2 : byte (k + 2) = .ok d) (h3 : byte (k + 3) = .ok e) :
    hostBytes byte 4 k 0 = .ok (((b.toNat * 256 + c.toNat) * 256 + d.toNat) * 256 + e.toNat) := by
  have := hostBytes_ok byte [b, c, d, e] k 0 (by intro j c hc; rcases j with _ | _ | _ | _ | j <;> simp_all)
  simpa using this

/-- All a read of `n` bytes can do. -/
theorem hostBytes_cases (byte : Nat → Except Fault Byte) (n : Nat) : ∀ k acc,
    (∃ v, hostBytes byte n k acc = .ok v) ∨
    (∃ j f, j < n ∧ byte (k + j) = .error f ∧ hostBytes byte n k acc = .error f) := by
  induction n with
  | zero => intro k acc; exact .inl ⟨acc, rfl⟩
  | succ n ih =>
    intro k acc
    cases hb : byte k with
    | error f => exact .inr ⟨0, f, by omega, hb, hostBytes_error byte f n k acc hb⟩
    | ok b =>
      have e : hostBytes byte (n + 1) k acc = hostBytes byte n (k + 1) (acc * 256 + b.toNat) := by
        simp only [hostBytes, hb]; rfl
      rw [e]
      rcases ih (k + 1) (acc * 256 + b.toNat) with ⟨v, hv⟩ | ⟨j, f, hj, hf, hv⟩
      · exact .inl ⟨v, hv⟩
      · exact .inr ⟨j + 1, f, by omega, by rwa [show k + (j + 1) = k + 1 + j by omega], hv⟩

/-! ### Writes -/

/-- A write that is no legal access is a bus error, and nothing else (R63). -/
theorem State.hostWrite_illegal {size : AccessSize} {off : Nat} (s : State) (v : Word)
    (h : accessLegal size off = false) : s.hostWrite size off v = .error (.hostBusError size off) := by
  simp [State.hostWrite, h]

/-- A write to a register (R63). -/
theorem State.hostWrite_register (s : State) (off : Nat) (v : Word) (h : off < 0x1000) (h4 : off % 4 = 0) :
    s.hostWrite .b32 off v = .ok (s.writeRegAt off v) := by
  simp [State.hostWrite, (accessLegal_registers (size := .b32) h).2 ⟨rfl, h4⟩, regionOf, h]

/-- A write to SECBUF (R40, R67). -/
theorem State.hostWrite_section (s : State) {size : AccessSize} {off : Nat} (v : Word)
    (hl : accessLegal size off = true) (h : 0x1000 ≤ off) (h2 : off < 0x2000) :
    s.hostWrite size off v =
      .ok (s.unlessBusy { s with secBuf := s.secBuf.writeBE size.bytes (off - 0x1000) v.toNat }) := by
  simp [State.hostWrite, hl, regionOf, Nat.not_lt.2 h, h2]

/-- A write to OUTBUF is ignored (R42). -/
theorem State.hostWrite_output (s : State) {size : AccessSize} {off : Nat} (v : Word)
    (hl : accessLegal size off = true) (h : 0x2000 ≤ off) : s.hostWrite size off v = .ok s := by
  simp [State.hostWrite, hl, regionOf, Nat.not_lt.2 h, show ¬off < 0x1000 by omega]

/-- A legal access completes (R63). -/
theorem State.hostWrite_isOk (s : State) {size : AccessSize} {off : Nat} (v : Word)
    (hl : accessLegal size off = true) : ∃ t, s.hostWrite size off v = .ok t := by
  by_cases h : off < 0x1000
  · obtain ⟨rfl, h4⟩ := (accessLegal_registers h).1 hl
    exact ⟨_, s.hostWrite_register off v h h4⟩
  · by_cases h2 : off < 0x2000
    · exact ⟨_, s.hostWrite_section v hl (by omega) h2⟩
    · exact ⟨_, s.hostWrite_output v hl (by omega)⟩

/-- What a write does while BUSY = 0 (R25, R33, R34, R35, R40). -/
inductive IdleWrite (s : State) (size : AccessSize) (off : Nat) (v : Word) : State → Prop where
  | ctrl : size = .b32 → off = 0x004 → v.getLsbD 31 = false →
      IdleWrite s size off v { s with ctrl := Ctrl.ofWrite v }
  | bufLen : size = .b32 → off = 0x00C → IdleWrite s size off v (s.writeBufLen v)
  | cmd : size = .b32 → off = 0x010 → IdleWrite s size off v (s.startCommand v)
  | arg0 : size = .b32 → off = 0x014 → IdleWrite s size off v { s with arg0 := v }
  | arg1 : size = .b32 → off = 0x018 → IdleWrite s size off v { s with arg1 := v }
  | secBuf : accessLegal size off = true → 0x1000 ≤ off → off < 0x2000 →
      IdleWrite s size off v { s with secBuf := s.secBuf.writeBE size.bytes (off - 0x1000) v.toNat }

/-- Every effect a host write can have (R68): none, the soft reset, a STATUS write, OVR while BUSY = 1, or the write itself while BUSY = 0. -/
theorem State.hostWrite_cases {s t : State} {size : AccessSize} {off : Nat} {v : Word}
    (h : s.hostWrite size off v = .ok t) :
    t = s ∨ (size = .b32 ∧ off = 0x004 ∧ v.getLsbD 31 = true ∧ t = s.softReset) ∨
    (size = .b32 ∧ off = 0x008 ∧ t = s.acknowledge v) ∨
    (s.status.busy = true ∧ t = { s with status := s.status.dropped }) ∨
    (s.status.busy = false ∧ IdleWrite s size off v t) := by
  have drop : ∀ s', (s.status.busy = false → IdleWrite s size off v s') → t = s.unlessBusy s' →
      (s.status.busy = true ∧ t = { s with status := s.status.dropped }) ∨
      (s.status.busy = false ∧ IdleWrite s size off v t) := by
    intro s' hi ht
    cases hb : s.status.busy with
    | true => exact .inl ⟨rfl, by rw [ht, State.unlessBusy_busy hb]⟩
    | false => exact .inr ⟨rfl, by rw [ht, State.unlessBusy_idle hb]; exact hi hb⟩
  cases hl : accessLegal size off with
  | false => rw [s.hostWrite_illegal v hl] at h; cases h
  | true =>
    by_cases h1 : off < 0x1000
    · obtain ⟨rfl, h4⟩ := (accessLegal_registers h1).1 hl
      rw [s.hostWrite_register off v h1 h4, Except.ok.injEq] at h
      unfold State.writeRegAt regAt at h
      split at h
      · rename_i r hr
        split at hr <;> cases hr <;> simp only [State.writeReg, State.writeCtrl] at h
        · exact .inl h.symm
        · split at h
          · rename_i hv
            exact .inr (.inl ⟨rfl, rfl, hv, h.symm⟩)
          · rename_i hv
            exact .inr (.inr (.inr (drop _ (fun _ => .ctrl rfl rfl (by simpa using hv)) h.symm)))
        · exact .inr (.inr (.inl ⟨rfl, rfl, h.symm⟩))
        · exact .inr (.inr (.inr (drop _ (fun _ => .bufLen rfl rfl) h.symm)))
        · exact .inr (.inr (.inr (drop _ (fun _ => .cmd rfl rfl) h.symm)))
        · exact .inr (.inr (.inr (drop _ (fun _ => .arg0 rfl rfl) h.symm)))
        · exact .inr (.inr (.inr (drop _ (fun _ => .arg1 rfl rfl) h.symm)))
        all_goals exact .inl h.symm
      · exact .inl h.symm
    · by_cases h2 : off < 0x2000
      · rw [s.hostWrite_section v hl (by omega) h2, Except.ok.injEq] at h
        exact .inr (.inr (.inr (drop _ (fun _ => .secBuf hl (by omega) h2) h.symm)))
      · rw [s.hostWrite_output v hl (by omega), Except.ok.injEq] at h
        exact .inl h.symm

/-- Every next state one host access can give (R62, R66, R68): the same block with another note of the value read, or what a write gives. -/
theorem State.hostAccess_eq_next {s t : State} {a : HostAccess} (h : s.hostAccess a = .next t) :
    (∃ d, t = { s with hostData := d }) ∨
    ∃ size off v, a = .write size (s.build.pseBase + off) v ∧ s.hostWrite size off v = .ok t := by
  cases a with
  | read size addr =>
    simp only [State.hostAccess] at h
    split at h
    · cases h; exact .inl ⟨s.hostData, rfl⟩
    · split at h
      · cases h; exact .inl ⟨_, rfl⟩
      · cases h
  | write size addr v =>
    simp only [State.hostAccess] at h
    split at h
    · cases h; exact .inl ⟨s.hostData, rfl⟩
    · rename_i off hoff
      have e : addr = s.build.pseBase + off := by
        unfold windowOffset at hoff
        split at hoff
        · cases hoff; omega
        · cases hoff
      split at h
      · rename_i t' ht
        cases h
        exact .inr ⟨size, off, v, by rw [e], ht⟩
      · cases h

end Sys2Proof.Machine
end

