-- ==== Sys2Proof/Laws/Step.lean ====
section
/-! SUPPORT. One turn of the machine: which agent moves, and all that its turn can give (R71, R121, R302). -/

namespace Sys2Proof.Machine

/-- An unmarked state takes the turn its schedule says (R71). -/
theorem step_unmarked {s : State} (h : s.unmarked) : step s = s.takeTurn := by
  obtain ⟨h1, h2⟩ := h
  simp [step, State.markedOr, h1, h2]

/-- A state with the fault mark is quiescent (R302). -/
theorem step_faultMark {s : State} {f : Fault} (h : s.faultMark = some f) : step s = .fault f := by
  simp [step, State.markedOr, h]

/-- A state with the refusal mark alone is quiescent (R302). -/
theorem step_refusalMark {s : State} {r : Refusal} (h : s.faultMark = none) (h2 : s.refusalMark = some r) :
    step s = .refused r := by
  simp [step, State.markedOr, h, h2]

/-- Only an unmarked state steps (R302). -/
theorem step_eq_next {s t : State} : step s = .next t ↔ s.unmarked ∧ s.takeTurn = .next t := by
  constructor
  · intro h
    cases hf : s.faultMark with
    | some f => rw [step_faultMark hf] at h; cases h
    | none =>
      cases hr : s.refusalMark with
      | some r => rw [step_refusalMark hf hr] at h; cases h
      | none => exact ⟨⟨hf, hr⟩, by rwa [step_unmarked ⟨hf, hr⟩] at h⟩
  · rintro ⟨hu, h⟩
    rw [step_unmarked hu, h]

theorem State.takeTurn_nil {s : State} (h : s.schedule = []) : s.takeTurn = s.engineTurn := by
  simp only [State.takeTurn, h]

theorem State.takeTurn_engine {s : State} {rest : List Turn} (h : s.schedule = .engine :: rest) :
    s.takeTurn = { s with schedule := rest }.engineTurn := by
  simp only [State.takeTurn, h]

theorem State.takeTurn_host {s : State} {a : HostAccess} {rest : List Turn} (h : s.schedule = .host a :: rest) :
    s.takeTurn = { s with schedule := rest }.hostAccess a := by
  simp only [State.takeTurn, h]

theorem State.takeTurn_powerOn {s : State} {rest : List Turn} (h : s.schedule = .powerOn :: rest) :
    s.takeTurn = .next { s with schedule := rest }.powerOnReset := by
  simp only [State.takeTurn, h]

/-- An idle engine changes nothing (R315). -/
theorem State.engineTurn_idle {s : State} (h : s.status.busy = false) : s.engineTurn = .next s := by
  simp [State.engineTurn, h]

/-- The engine runs the pending command (R121). -/
theorem State.engineTurn_legal {s : State} {i : Instr} (h : s.status.busy = true) (hd : decode s.cmd = .ok i) :
    s.engineTurn = exec i s := by
  simp [State.engineTurn, h, State.engineStep, State.pending, hd]

/-- The engine fails an illegal word (R125). -/
theorem State.engineTurn_illegal {s : State} {e : DecodeError} (h : s.status.busy = true)
    (hd : decode s.cmd = .error e) : s.engineTurn = .next (s.takeError .illegalCmd s.cmd) := by
  simp [State.engineTurn, h, State.engineStep, State.pending, hd]

/-- All the engine's turn can give. -/
theorem State.engineTurn_cases (s : State) :
    (s.status.busy = false ∧ s.engineTurn = .next s) ∨
    (s.status.busy = true ∧ ∃ i, decode s.cmd = .ok i ∧ s.engineTurn = exec i s) ∨
    (s.status.busy = true ∧ ∃ e, decode s.cmd = .error e ∧
      s.engineTurn = .next (s.takeError .illegalCmd s.cmd)) := by
  cases hb : s.status.busy with
  | false => exact .inl ⟨rfl, State.engineTurn_idle hb⟩
  | true =>
    cases hd : decode s.cmd with
    | ok i => exact .inr (.inl ⟨rfl, i, rfl, State.engineTurn_legal hb hd⟩)
    | error e => exact .inr (.inr ⟨rfl, e, rfl, State.engineTurn_illegal hb hd⟩)

/-! ### What no turn touches -/

/-- The same parameters, turns to come and marks. -/
structure SameOwn (s t : State) : Prop where
  build       : t.build = s.build
  schedule    : t.schedule = s.schedule
  faultMark   : t.faultMark = s.faultMark
  refusalMark : t.refusalMark = s.refusalMark

/-- A command keeps the model's own fields and ends BUSY (R122, R123). -/
theorem exec_own {i : Instr} {s t : State} (h : exec i s = .next t) : SameOwn s t ∧ t.status.busy = false := by
  cases exec_eq_next.1 h with
  | success w hw => exact ⟨⟨rfl, rfl, rfl, rfl⟩, rfl⟩
  | failure c info h1 hw => exact ⟨⟨rfl, rfl, rfl, rfl⟩, rfl⟩
  | stringFailure c info h1 hw => exact ⟨⟨rfl, rfl, rfl, rfl⟩, rfl⟩

theorem State.engineTurn_own {s t : State} (h : s.engineTurn = .next t) : SameOwn s t := by
  rcases s.engineTurn_cases with ⟨-, he⟩ | ⟨-, i, -, he⟩ | ⟨-, e, -, he⟩ <;> rw [he] at h
  · cases h; exact ⟨rfl, rfl, rfl, rfl⟩
  · exact (exec_own h).1
  · cases h; exact ⟨rfl, rfl, rfl, rfl⟩

/-- After the engine's turn nothing is pending. -/
theorem State.engineTurn_not_busy {s t : State} (h : s.engineTurn = .next t) : t.status.busy = false := by
  rcases s.engineTurn_cases with ⟨hb, he⟩ | ⟨-, i, -, he⟩ | ⟨-, e, -, he⟩ <;> rw [he] at h
  · cases h; exact hb
  · exact (exec_own h).2
  · cases h; rfl

theorem State.hostWrite_own {s t : State} {size : AccessSize} {off : Nat} {v : Word}
    (h : s.hostWrite size off v = .ok t) : SameOwn s t := by
  rcases State.hostWrite_cases h with rfl | ⟨-, -, -, rfl⟩ | ⟨-, -, rfl⟩ | ⟨-, rfl⟩ | ⟨-, h⟩
  · exact ⟨rfl, rfl, rfl, rfl⟩
  · exact ⟨rfl, rfl, rfl, rfl⟩
  · exact ⟨rfl, rfl, rfl, rfl⟩
  · exact ⟨rfl, rfl, rfl, rfl⟩
  · cases h with
    | bufLen => unfold State.writeBufLen; split <;> exact ⟨rfl, rfl, rfl, rfl⟩
    | _ => exact ⟨rfl, rfl, rfl, rfl⟩

theorem State.hostAccess_own {s t : State} {a : HostAccess} (h : s.hostAccess a = .next t) : SameOwn s t := by
  rcases State.hostAccess_eq_next h with ⟨d, rfl⟩ | ⟨size, off, v, -, h⟩
  · exact ⟨rfl, rfl, rfl, rfl⟩
  · exact State.hostWrite_own h

/-- A turn keeps the parameters, uses up the first of the turns to come, and sets no mark (R47, R302). -/
structure TurnOwn (s t : State) : Prop where
  build    : t.build = s.build
  schedule : t.schedule = s.schedule.tail
  unmarked : t.unmarked

theorem State.takeTurn_own {s t : State} (hu : s.unmarked) (h : s.takeTurn = .next t) : TurnOwn s t := by
  obtain ⟨u1, u2⟩ := hu
  unfold State.takeTurn at h
  split at h <;> rename_i e
  · obtain ⟨a, b, c, d⟩ := State.engineTurn_own h; exact ⟨a, by rw [b, e]; rfl, c.trans u1, d.trans u2⟩
  · obtain ⟨a, b, c, d⟩ := State.engineTurn_own h; exact ⟨a, by rw [b, e]; rfl, c.trans u1, d.trans u2⟩
  · obtain ⟨a, b, c, d⟩ := State.hostAccess_own h; exact ⟨a, by rw [b, e]; rfl, c.trans u1, d.trans u2⟩
  · cases h; exact ⟨rfl, by rw [e]; rfl, rfl, rfl⟩

end Sys2Proof.Machine
end

