-- ==== Sys2Proof/Laws/Stops.lean ====
section
/-! SUPPORT. When the reads and the two decoders stop, in both directions (R41, R302): MemRead, Bits, CRC and ReadHdr at an unwritten byte in bounds; the Huffman loop at the first unwritten bit it needs; the selector and the two loops of DVBTEXT at the first unwritten byte they need, or at a byte without a table. -/

namespace Sys2Proof.Machine

/-- An Exec that ends in a fault. -/
def Exec.Faults {α : Type} (x : Exec α) : Prop := ∃ f, x = .error (.fault f)

section
variable {α β : Type}

@[simp] theorem Exec.not_faults_ok (a : α) : ¬Exec.Faults (.ok a : Exec α) := by rintro ⟨f, h⟩; cases h
@[simp] theorem Exec.not_faults_raise (c : ErrCode) (info : Word) : ¬Exec.Faults (raise c info : Exec α) := by
  rintro ⟨f, h⟩; cases h
@[simp] theorem Exec.not_faults_refusal (r : Refusal) : ¬Exec.Faults (.error (.refusal r) : Exec α) := by
  rintro ⟨f, h⟩; cases h
@[simp] theorem Exec.faults_fault (f : Fault) : Exec.Faults (.error (.fault f) : Exec α) := ⟨f, rfl⟩

/-- A sequence faults iff its first part does, or its rest does. -/
theorem Exec.faults_bind {x : Exec α} {f : α → Exec β} :
    Exec.Faults (x >>= f) ↔ Exec.Faults x ∨ ∃ a, x = .ok a ∧ Exec.Faults (f a) := by
  simp only [Exec.Faults, Exec.bind_eq_error]
  constructor
  · rintro ⟨e, h | ⟨a, ha, h⟩⟩
    · exact .inl ⟨e, h⟩
    · exact .inr ⟨a, ha, e, h⟩
  · rintro (⟨e, h⟩ | ⟨a, ha, e, h⟩)
    · exact ⟨e, .inl h⟩
    · exact ⟨e, .inr ⟨a, ha, h⟩⟩

end

/-! ### The reads -/

section
variable {s : State}

/-- A string that is there has no unwritten byte. -/
theorem State.holds_get {off k : Nat} {bs : List Byte} (h : s.holds off bs) (hk : k < bs.length) :
    s.secBuf.get (off + k) ≠ none := by
  rw [h k _ (List.getElem?_eq_getElem hk)]
  simp

theorem State.holdsBits_bit {p k : Nat} {bs : List Bool} (h : s.holdsBits p bs) (hk : k < bs.length) :
    s.secBuf.bit (p + k) ≠ none := by
  rw [h k _ (List.getElem?_eq_getElem hk)]
  simp

/-- MemRead faults at an unwritten byte in bounds, and nowhere else (R41). -/
theorem State.memRead_faults (off n : Nat) : Exec.Faults (s.memRead off n) ↔ s.bytesUnwritten off n := by
  rcases s.memRead_cases off n with ⟨hb, bs, hl, hh, hr⟩ | ⟨hb, hr⟩ | ⟨hb, k, hk, hn, -, hr⟩ <;> rw [hr]
  · simp only [Exec.not_faults_ok, false_iff]
    rintro ⟨-, k, hk, hn⟩
    exact State.holds_get hh (by omega) hn
  · simp only [Exec.not_faults_raise, false_iff]
    rintro ⟨h, -⟩
    omega
  · exact iff_of_true (by simp) ⟨hb, k, hk, hn⟩

/-- Bits faults at a bit of an unwritten byte in bounds, and nowhere else (R41). -/
theorem State.bits_faults (p w : Nat) : Exec.Faults (s.bits p w) ↔ s.bitsUnwritten p w := by
  rcases s.bits_cases p w with ⟨hb, bs, hl, hh, hr⟩ | ⟨hb, hr⟩ | ⟨hb, k, hk, hn, -, hr⟩ <;> rw [hr]
  · simp only [Exec.not_faults_ok, false_iff]
    rintro ⟨-, k, hk, hn⟩
    exact State.holdsBits_bit hh (by omega) hn
  · simp only [Exec.not_faults_raise, false_iff]
    rintro ⟨h, -⟩
    omega
  · exact iff_of_true (by simp) ⟨hb, k, hk, hn⟩

/-- CRC faults at an unwritten byte in bounds, and nowhere else (R41, R170). -/
theorem State.crc_faults (off n : Nat) : Exec.Faults (s.crc off n) ↔ s.bytesUnwritten off n := by
  rcases s.crc_cases off n with ⟨hb, bs, hl, hh, hr⟩ | ⟨hb, hr⟩ | ⟨hb, k, hk, hn, hr⟩ <;> rw [hr]
  · simp only [Exec.not_faults_ok, false_iff]
    rintro ⟨-, k, hk, hn⟩
    exact State.holds_get hh (by omega) hn
  · simp only [Exec.not_faults_raise, false_iff]
    rintro ⟨h, -⟩
    omega
  · exact iff_of_true (by simp) ⟨hb, k, hk, hn⟩

/-- ReadHdr faults at an unwritten byte of the header in bounds, and nowhere else (R41, R172). -/
theorem State.readHdr_faults : Exec.Faults s.readHdr ↔ s.bytesUnwritten 0 3 := by
  rcases s.readHdr_cases with ⟨hb, b0, b1, b2, hh, hr⟩ | ⟨hb, hr⟩ | ⟨hb, k, hk, hn, hr⟩ <;> rw [hr]
  · simp only [Exec.not_faults_ok, false_iff]
    rintro ⟨-, k, hk, hn⟩
    exact State.holds_get hh (by simpa using hk) hn
  · simp only [Exec.not_faults_raise, false_iff]
    rintro ⟨h, -⟩
    omega
  · exact iff_of_true (by simp) ⟨by omega, k, hk, by simpa using hn⟩

/-- Where ReadHdr answers, the header is there. -/
theorem State.readHdr_ok {h : Header} (hr : s.readHdr = .ok h) :
    3 ≤ s.bufLen.toNat ∧ ∃ b0 b1 b2, s.holds 0 [b0, b1, b2] ∧ h = Header.ofBytes b0 b1 b2 := by
  rcases s.readHdr_cases with ⟨hb, b0, b1, b2, hh, e⟩ | ⟨hb, e⟩ | ⟨hb, k, hk, hn, e⟩ <;> rw [e] at hr <;> cases hr
  exact ⟨hb, b0, b1, b2, hh, rfl⟩

/-! ### The Huffman decoder (R203) -/

/-- A span bit faults iff it is unwritten. -/
theorem State.spanBit_faults {base q : Nat} (h : base + q + 1 ≤ 8 * s.bufLen.toNat) :
    Exec.Faults (s.spanBit base q) ↔ s.secBuf.bit (base + q) = none := by
  unfold State.spanBit
  rw [Exec.faults_bind, State.bits_faults]
  constructor
  · rintro (⟨-, k, hk, hn⟩ | ⟨a, -, h⟩)
    · rwa [show base + q + k = base + q by omega] at hn
    · exact absurd h (Exec.not_faults_ok _)
  · exact fun hn => .inl ⟨h, 0, by omega, hn⟩

theorem State.spanBit_ok {base q : Nat} {b : Bool} (h : base + q + 1 ≤ 8 * s.bufLen.toNat)
    (hb : s.spanBit base q = .ok b) : s.secBuf.bit (base + q) = some b := by
  cases hg : s.secBuf.bit (base + q) with
  | none =>
    obtain ⟨f, hf⟩ := (State.spanBit_faults h).2 hg
    rw [hb] at hf; cases hf
  | some c =>
    rw [State.spanBit_some hg h] at hb
    cases hb; rfl

/-- A code word read is one, and its bits are there. -/
theorem State.readCodeWord_ok_word {code : HuffCode} {base start : Nat} : ∀ (left q : Nat) (word : List Bool)
    {r : Symbol × Nat}, base + q + left ≤ 8 * s.bufLen.toNat →
    readCodeWord code (s.spanBit base) start left q word = .ok r →
    ∃ w, ⟨word ++ w, r.1⟩ ∈ code ∧ s.holdsBits (base + q) w ∧ r.2 = q + w.length ∧ w.length ≤ left := by
  intro left
  induction left with
  | zero => intro q word r _ h; cases h
  | succ left ih =>
    intro q word r hb h
    rw [readCodeWord] at h
    obtain ⟨b, hq, h⟩ := Exec.bind_eq_ok.1 h
    have hbit := State.spanBit_ok (by omega) hq
    split at h
    · rename_i sym hm
      cases h
      exact ⟨[b], mem_of_lookupWord hm, (s.holdsBits_cons _ _ _).2 ⟨hbit, by simp⟩, rfl, by simp⟩
    · split at h
      · obtain ⟨w, h1, h2, h3, h4⟩ := ih (q + 1) (word ++ [b]) (by omega) h
        refine ⟨b :: w, by simpa using h1, (s.holdsBits_cons _ _ _).2 ⟨hbit, by rwa [Nat.add_assoc]⟩, ?_, ?_⟩
        · rw [h3, List.length_cons]; omega
        · rw [List.length_cons]; omega
      · cases h

/-- Reading a code word faults at the first unwritten bit after an empty string or a proper prefix of a code word, and nowhere else. -/
theorem State.readCodeWord_faults {code : HuffCode} {base start left q : Nat} (hc : codeOk code = true)
    (hb : base + q + left ≤ 8 * s.bufLen.toNat) :
    Exec.Faults (readCodeWord code (s.spanBit base) start left q []) ↔
      ∃ w, (w = [] ∨ extendsToWord code w = true) ∧ w.length < left ∧ s.holdsBits (base + q) w ∧
        s.secBuf.bit (base + q + w.length) = none := by
  have forward : ∀ (left q : Nat) (word : List Bool), base + q + left ≤ 8 * s.bufLen.toNat →
      Exec.Faults (readCodeWord code (s.spanBit base) start left q word) →
      ∃ w, (w = [] ∨ extendsToWord code (word ++ w) = true) ∧ w.length < left ∧ s.holdsBits (base + q) w ∧
        s.secBuf.bit (base + q + w.length) = none := by
    intro left
    induction left with
    | zero => intro q word _ h; exact absurd h (Exec.not_faults_raise _ _)
    | succ left ih =>
      intro q word hb h
      rw [readCodeWord, Exec.faults_bind] at h
      rcases h with h | ⟨b, hq, h⟩
      · exact ⟨[], .inl rfl, by simp, by simp, (State.spanBit_faults (q := q) (by omega)).1 h⟩
      · have hbit := State.spanBit_ok (by omega) hq
        split at h
        · exact absurd h (Exec.not_faults_ok _)
        · split at h
          · rename_i he
            obtain ⟨w, h1, h2, h3, h4⟩ := ih (q + 1) (word ++ [b]) (by omega) h
            refine ⟨b :: w, .inr ?_, by simpa using h2, (s.holdsBits_cons _ _ _).2 ⟨hbit, by rwa [Nat.add_assoc]⟩, ?_⟩
            · rcases h1 with rfl | h1
              · exact he
              · simpa using h1
            · rwa [List.length_cons, show base + q + (w.length + 1) = base + (q + 1) + w.length by omega]
          · exact absurd h (Exec.not_faults_raise _ _)
  refine ⟨fun h => by simpa using forward left q [] hb h, ?_⟩
  rintro ⟨w, he, hl, hh, hn⟩
  rw [readCodeWord_skip hc w left q [] (by simpa using he) (by omega) (fun k b hk => by
    have hlt := (List.getElem?_eq_some_iff.1 hk).1
    exact State.spanBit_some (by rw [← Nat.add_assoc]; exact hh k b hk) (by omega))]
  obtain ⟨l, hl'⟩ : ∃ l, left - w.length = l + 1 := ⟨left - w.length - 1, by omega⟩
  rw [hl', readCodeWord, Exec.faults_bind]
  exact .inl ((State.spanBit_faults (by omega)).2 (by rwa [← Nat.add_assoc]))

/-- Reading a character faults at an unwritten bit of the literal after HUFF_ESC, and nowhere else. -/
theorem State.readChar_faults {base total q : Nat} {sym : Symbol} (hb : base + total ≤ 8 * s.bufLen.toNat) :
    Exec.Faults (s.readChar base total sym q) ↔ sym = s.build.huffEsc ∧ q + s.build.huffLitBits ≤ total ∧
      ∃ k, k < s.build.huffLitBits ∧ s.secBuf.bit (base + q + k) = none := by
  unfold State.readChar
  by_cases he : sym = s.build.huffEsc
  · by_cases hq : total < q + s.build.huffLitBits
    · rw [if_pos he, if_pos hq]
      simp only [Exec.not_faults_raise, false_iff]
      rintro ⟨-, h, -⟩
      omega
    · rw [if_pos he, if_neg hq, Exec.faults_bind, State.bits_faults]
      constructor
      · rintro (⟨-, h⟩ | ⟨v, -, h⟩)
        · exact ⟨he, by omega, h⟩
        · exact absurd h (Exec.not_faults_ok _)
      · exact fun ⟨_, _, h⟩ => .inl ⟨by omega, h⟩
  · rw [if_neg he]
    exact iff_of_false (by simp) fun h => he h.1

/-- The loop needs an unwritten bit: from q and context `ctx`, with room for `room` characters, after the bits of some of them and of a code word begun. -/
def State.needsBit (s : State) (t : CodeTable) (base total q : Nat) (ctx : Symbol) (room : Nat) : Prop :=
  ∃ bs w us c, Chars s.build t ctx bs us c ∧ us.length ≤ room ∧ s.holdsBits (base + q) (bs ++ w) ∧
    (((w = [] ∨ extendsToWord (huffCode s.build t c) w = true) ∧ q + (bs ++ w).length < total ∧
        s.secBuf.bit (base + q + (bs ++ w).length) = none) ∨
      (⟨w, s.build.huffEsc⟩ ∈ huffCode s.build t c ∧ q + (bs ++ w).length + s.build.huffLitBits ≤ total ∧
        ∃ k, k < s.build.huffLitBits ∧ s.secBuf.bit (base + q + (bs ++ w).length + k) = none))

/-- A character before the bit that is needed. -/
theorem State.needsBit_cons {t : CodeTable} {base total q room : Nat} {ctx c' : Symbol} {w0 : List Bool} {u : Half}
    (hc : ∀ {bs us c}, Chars s.build t c' bs us c → Chars s.build t ctx (w0 ++ bs) (u :: us) c)
    (hh : s.holdsBits (base + q) w0) (h : s.needsBit t base total (q + w0.length) c' room) :
    s.needsBit t base total q ctx (room + 1) := by
  obtain ⟨bs, w, us, c, hch, hl, hb, h⟩ := h
  have e : (w0 ++ bs ++ w).length = w0.length + (bs ++ w).length := by
    simp only [List.length_append]; omega
  refine ⟨w0 ++ bs, w, u :: us, c, hc hch, by simpa using hl, ?_, ?_⟩
  · rw [List.append_assoc, State.holdsBits_append, Nat.add_assoc]
    exact ⟨hh, hb⟩
  · rw [e]
    simpa only [Nat.add_assoc] using h

/-- The outer loop faults at an unwritten bit it needs, and nowhere else (R203). -/
theorem State.huffLoop_faults {t : CodeTable} {base total : Nat} (ho : huffOk s.build = true)
    (hb : base + total ≤ 8 * s.bufLen.toNat) {fuel q : Nat} {ctx : Symbol} {out : List Half} (hq : q ≤ total)
    (hf : total - q < fuel) (hl : out.length ≤ 4096) :
    Exec.Faults (s.huffLoop t base total fuel q ctx out) ↔ s.needsBit t base total q ctx (4096 - out.length) := by
  constructor
  · have forward : ∀ (fuel q : Nat) (ctx : Symbol) (out : List Half), q ≤ total → out.length ≤ 4096 →
        Exec.Faults (s.huffLoop t base total fuel q ctx out) →
        s.needsBit t base total q ctx (4096 - out.length) := by
      intro fuel
      induction fuel with
      | zero => intro q ctx out _ _ h; exact absurd h (Exec.not_faults_raise _ _)
      | succ fuel ih =>
        intro q ctx out hq hl h
        rw [State.huffLoop, Exec.faults_bind] at h
        rcases h with h | ⟨r, hr, h⟩
        · obtain ⟨w, he, hw, hh, hn⟩ := (State.readCodeWord_faults (huffOk_code ho t ctx) (by omega)).1 h
          exact ⟨[], w, [], ctx, .nil ctx, by simp, hh, .inl ⟨he, by simp only [List.nil_append]; omega, hn⟩⟩
        · obtain ⟨w, hm, hh, h2, hw⟩ := State.readCodeWord_ok_word _ _ _ (by omega) hr
          rw [List.nil_append] at hm
          split at h
          · exact absurd h (Exec.not_faults_ok _)
          · rename_i hend
            rw [Exec.faults_bind, State.readChar_faults hb] at h
            rcases h with ⟨he, hle, k, hk, hn⟩ | ⟨c, hc, h⟩
            · rw [he] at hm
              rw [h2] at hle hn
              exact ⟨[], w, [], ctx, .nil ctx, by simp, hh, .inr ⟨hm, by simpa using hle, k, hk, by
                rwa [List.nil_append, Nat.add_assoc base]⟩⟩
            · rw [Exec.faults_bind] at h
              rcases emit_cases out (c.1.setWidth 16) with ⟨-, e⟩ | ⟨hne, e⟩ <;> rw [e] at h
              · rcases h with h | ⟨o, ho', -⟩
                · exact absurd h (Exec.not_faults_raise _ _)
                · cases ho'
              · obtain ⟨o, ho', h⟩ := h.resolve_left (Exec.not_faults_ok _)
                cases ho'
                have hc' := State.readChar_ok (by omega) hc
                have hrest := ih _ _ _ hc'.2 (by simp only [List.length_append, List.length_singleton]; omega) h
                rw [show 4096 - out.length = 4096 - (out ++ [c.1.setWidth 16]).length + 1 by
                  simp only [List.length_append, List.length_singleton]; omega]
                by_cases hesc : r.1 = s.build.huffEsc
                · rw [hesc] at hm hc
                  unfold State.readChar at hc
                  rw [if_pos rfl] at hc
                  split at hc
                  · cases hc
                  · obtain ⟨v, hv, hc⟩ := Exec.bind_eq_ok.1 hc
                    cases hc
                    rcases s.bits_cases (base + r.2) s.build.huffLitBits with ⟨-, lit, hlit, hlh, e'⟩ | ⟨-, e'⟩ | ⟨-, k, -, -, -, e'⟩ <;>
                      rw [e'] at hv <;> cases hv
                    refine State.needsBit_cons (w0 := w ++ lit) (u := BitVec.ofNat 16 (bitsValue lit))
                      (fun h => .esc ctx w lit _ _ _ hm hlit h) ?_ ?_
                    · rw [State.holdsBits_append]
                      rw [h2] at hlh
                      exact ⟨hh, by rwa [Nat.add_assoc]⟩
                    · rw [List.length_append, hlit, ← Nat.add_assoc, ← h2]
                      exact hrest
                · rw [State.readChar_char hesc] at hc
                  cases hc
                  refine State.needsBit_cons (w0 := w) (u := r.1.setWidth 16)
                    (fun h => .char ctx w r.1 _ _ _ hm hend hesc h) hh ?_
                  rw [← h2]
                  exact hrest
    exact forward fuel q ctx out hq hl
  · rintro ⟨bs, w, us, c, hch, hus, hh, h⟩
    have hlen := hch.length_le ho
    rw [State.holdsBits_append, Nat.add_assoc] at hh
    have hle : q + bs.length ≤ total := by
      rcases h with ⟨-, h, -⟩ | ⟨-, h, -⟩ <;> rw [List.length_append] at h <;> omega
    have hfuel : us.length < fuel := by clear h; omega
    rw [State.huffLoop_chars ho hb hch fuel q out hh.1 hle (by clear h; omega) (by clear h; omega)]
    obtain ⟨f, hf'⟩ : ∃ f, fuel - us.length = f + 1 := ⟨fuel - us.length - 1, by clear h; omega⟩
    rw [hf']
    rcases h with ⟨he, hlt, hn⟩ | ⟨hm, hle2, k, hk, hn⟩
    · rw [List.length_append] at hlt hn
      rw [State.huffLoop, Exec.faults_bind]
      refine .inl ((State.readCodeWord_faults (huffOk_code ho t c) (by omega)).2 ⟨w, he, by omega, hh.2, ?_⟩)
      rwa [show base + (q + bs.length) + w.length = base + q + (bs.length + w.length) by omega]
    · rw [List.length_append] at hle2 hn
      have hne : s.build.huffEsc ≠ s.build.huffEnd := fun h => ((huffOk_iff _).1 ho).2.2.1 h.symm
      rw [State.huffLoop_char ho hb hm hne hh.2 (by omega), Exec.faults_bind]
      refine .inl ((State.readChar_faults hb).2 ⟨rfl, by omega, k, hk, ?_⟩)
      rwa [show base + (q + bs.length + w.length) + k = base + q + (bs.length + w.length) + k by omega]

/-! ### The text decoder (R231 to R233) -/

/-- The selector faults at an unwritten byte of itself, and nowhere else (R231). -/
theorem State.selector_faults {off n : Nat} (hn : 1 ≤ n) (hb : off + n ≤ s.bufLen.toNat) :
    Exec.Faults (s.selector off n) ↔ s.secBuf.get off = none ∨
      (3 ≤ n ∧ s.secBuf.get off = some 0x10 ∧
        (s.secBuf.get (off + 1) = none ∨ s.secBuf.get (off + 2) = none)) := by
  cases h0 : s.secBuf.get off with
  | none =>
    rw [State.selector, State.memRead_one_unwritten h0 (by omega)]
    exact iff_of_true (by simp) (.inl rfl)
  | some b0 =>
    rw [State.selector, State.memRead_one h0 (by omega), Exec.ok_bind]
    have hne : b0.toNat ≠ 0x10 → ¬(some b0 = none ∨ (3 ≤ n ∧ some b0 = some (0x10 : Byte) ∧
        (s.secBuf.get (off + 1) = none ∨ s.secBuf.get (off + 2) = none))) := by
      rintro hb0 (h | ⟨-, h, -⟩)
      · cases h
      · cases h; exact hb0 rfl
    split
    · exact iff_of_false (by simp) (hne (by omega))
    · split
      · exact iff_of_false (by simp) (hne (by omega))
      · split
        · rename_i h10
          have hb0 : b0 = 0x10 := BitVec.eq_of_toNat_eq h10
          split
          · exact iff_of_false (by simp) (by rintro (h | ⟨h, -⟩); cases h; omega)
          · cases h1 : s.secBuf.get (off + 1) with
            | none =>
              rw [State.memRead_one_unwritten h1 (by omega)]
              exact iff_of_true (by simp) (.inr ⟨by omega, by rw [hb0], .inl rfl⟩)
            | some b1 =>
              rw [State.memRead_one h1 (by omega), Exec.ok_bind]
              cases h2 : s.secBuf.get (off + 2) with
              | none =>
                rw [State.memRead_one_unwritten h2 (by omega)]
                exact iff_of_true (by simp) (.inr ⟨by omega, by rw [hb0], .inr rfl⟩)
              | some b2 =>
                rw [State.memRead_one h2 (by omega), Exec.ok_bind]
                refine iff_of_false ?_ (by simp)
                split <;> simp
        · refine iff_of_false ?_ (hne (by omega))
          split <;> simp

theorem shortSelector_some {p : IsoPart} {k : Nat} (h : shortSelector k = some p) :
    1 ≤ k ∧ k ≤ 0x0B ∧ k ≠ 8 ∧ isoNumber p = k + 4 := by
  unfold shortSelector at h
  split at h <;> cases h <;> simp [isoNumber]

theorem isoSelectable_some {p : IsoPart} {k : Nat} (h : isoSelectable k = some p) :
    isoNumber p = k ∧ p ≠ .p12 := by
  unfold isoSelectable at h
  split at h <;> cases h <;> simp [isoNumber]

/-- Where the selector answers, its bytes are there, and with any character bytes after them they are a text of R231's table. -/
theorem State.selector_selects {off n : Nat} {r : TextEnc × Nat} (hn : 1 ≤ n) (hb : off + n ≤ s.bufLen.toNat)
    (h : s.selector off n = .ok r) :
    ∃ sel, s.holds off sel ∧ r.2 = off + sel.length ∧ sel.length ≤ n ∧ (r.1 = .ucs2 → sel.length = 1) ∧
      ∀ chars, s.holds r.2 chars → sel ++ chars ≠ [] → Selects s.build (sel ++ chars) r.1 chars := by
  have read : ∀ {k v}, k < n → s.memRead (off + k) 1 = .ok v →
      ∃ b : Byte, s.secBuf.get (off + k) = some b ∧ v = b.toNat := by
    intro k v hk hv
    cases hg : s.secBuf.get (off + k) with
    | none => rw [State.memRead_one_unwritten hg (by omega)] at hv; cases hv
    | some b => rw [State.memRead_one hg (by omega)] at hv; cases hv; exact ⟨b, rfl, rfl⟩
  rw [State.selector] at h
  obtain ⟨v0, hv0, h⟩ := Exec.bind_eq_ok.1 h
  obtain ⟨b0, h0, rfl⟩ := read (k := 0) (by omega) hv0
  rw [Nat.add_zero] at h0
  split at h
  · rename_i h20
    cases h
    refine ⟨[], by simp, by simp, by simp, by simp, fun chars hc hne => ?_⟩
    cases chars with
    | nil => exact absurd rfl hne
    | cons c rest =>
      have : c = b0 := Option.some.inj (((s.holds_cons _ _ _).1 hc).1.symm.trans h0)
      subst this
      exact .noSelector c rest h20
  · split at h
    · rename_i h11
      cases h
      have : b0 = 0x11 := BitVec.eq_of_toNat_eq h11
      subst this
      exact ⟨[0x11], (s.holds_cons _ _ _).2 ⟨h0, by simp⟩, rfl, by simpa using hn, fun _ => rfl,
        fun chars _ _ => .ucs2 chars⟩
    · split at h
      · rename_i h10
        have : b0 = 0x10 := BitVec.eq_of_toNat_eq h10
        subst this
        split at h
        · cases h
        · obtain ⟨v1, hv1, h⟩ := Exec.bind_eq_ok.1 h
          obtain ⟨v2, hv2, h⟩ := Exec.bind_eq_ok.1 h
          obtain ⟨b1, h1, rfl⟩ := read (k := 1) (by omega) hv1
          obtain ⟨b2, h2, rfl⟩ := read (k := 2) (by omega) hv2
          split at h
          · rename_i p hp
            cases h
            unfold longSelector at hp
            split at hp
            · rename_i hz
              have : b1 = 0x00 := BitVec.eq_of_toNat_eq hz
              subst this
              obtain ⟨hnum, h12⟩ := isoSelectable_some hp
              refine ⟨[0x10, 0x00, b2], ?_, rfl, by simp only [List.length_cons, List.length_nil]; omega, by simp,
                fun chars _ _ => .long b2 chars p hnum h12⟩
              simp only [State.holds_cons]
              exact ⟨h0, h1, h2, by simp⟩
            · cases hp
          · cases h
      · split at h
        · rename_i p hp
          cases h
          obtain ⟨h1, h2, h8, hnum⟩ := shortSelector_some hp
          exact ⟨[b0], (s.holds_cons _ _ _).2 ⟨h0, by simp⟩, rfl, by simpa using hn, by simp,
            fun chars _ _ => .short b0 chars p h1 h2 h8 hnum⟩
        · cases h

/-- All mapping a byte can do: a unit or none, or where the table is the absent one of part 12 the refusal at 0xA0..0xFF (R233, R235; log entry 13). -/
theorem mapByte_cases (t : IsoTables) (p : IsoPart) (c : Byte) :
    ((p = .p12 → c.toNat < 0xA0) ∧ ∃ u, mapByte t p c = .ok u) ∨
    (p = .p12 ∧ 0xA0 ≤ c.toNat ∧ mapByte t p c = .error (.refusal (.isoTableAbsent .p12))) := by
  unfold mapByte
  split
  · rename_i h; exact .inl ⟨fun _ => by rw [h]; decide, _, rfl⟩
  · split
    · exact .inl ⟨fun _ => by omega, _, rfl⟩
    · split
      · exact .inl ⟨fun _ => by omega, _, rfl⟩
      · cases p
        case p12 => exact .inr ⟨rfl, by omega, rfl⟩
        all_goals exact .inl ⟨fun h => (nomatch h), _, rfl⟩

/-- Where a byte's unit is appended with room for it, the string grows by at most one. -/
theorem emitOption_room (out : List Half) (u : Option Half) (h : out.length < 4096) :
    ∃ o, emitOption out u = .ok o ∧ o.length ≤ out.length + 1 := by
  refine ⟨_, emitOption_ok out u h, ?_⟩
  cases u <;> simp

/-- The single-byte loop faults at the first unwritten byte, where no byte before it lacks a table (R232, R233). -/
theorem State.decodeBytes_faults {p : IsoPart} : ∀ (n j : Nat) (out : List Half), j + n ≤ s.bufLen.toNat →
    out.length + n ≤ 4096 →
    (Exec.Faults (s.decodeBytes p n j out) ↔ ∃ cs, cs.length < n ∧ s.holds j cs ∧
      s.secBuf.get (j + cs.length) = none ∧ (p = .p12 → ∀ c ∈ cs, c.toNat < 0xA0)) := by
  intro n
  induction n with
  | zero =>
    intro j out _ _
    exact iff_of_false (Exec.not_faults_ok _) (by rintro ⟨cs, h, -⟩; omega)
  | succ n ih =>
    intro j out hb hl
    rw [State.decodeBytes]
    cases hg : s.secBuf.get j with
    | none =>
      rw [State.memRead_one_unwritten hg (by omega)]
      exact iff_of_true (by simp) ⟨[], by simp, by simp, hg, by simp⟩
    | some b =>
      rw [State.memRead_one hg (by omega), Exec.ok_bind, BitVec.ofNat_toNat, BitVec.setWidth_eq]
      have cons : ∀ {cs : List Byte}, s.holds j cs → s.secBuf.get (j + cs.length) = none →
          ∃ rest, cs = b :: rest ∧ s.holds (j + 1) rest := by
        intro cs hh hn
        cases cs with
        | nil => rw [List.length_nil, Nat.add_zero, hg] at hn; cases hn
        | cons c rest =>
          rw [State.holds_cons, hg] at hh
          obtain ⟨hc, hh⟩ := hh
          cases hc
          exact ⟨rest, rfl, hh⟩
      rcases mapByte_cases s.build.iso8859 p b with ⟨h12, u, hu⟩ | ⟨h12, hge, hu⟩
      · rw [hu, Exec.ok_bind]
        obtain ⟨o, ho, hol⟩ := emitOption_room out u (by omega)
        rw [ho, Exec.ok_bind, ih (j + 1) o (by omega) (by omega)]
        constructor
        · rintro ⟨cs, h1, h2, h3, h4⟩
          refine ⟨b :: cs, by simpa using h1, (s.holds_cons _ _ _).2 ⟨hg, h2⟩, ?_, fun hp c hc => ?_⟩
          · rwa [List.length_cons, show j + (cs.length + 1) = j + 1 + cs.length by omega]
          · rcases List.mem_cons.1 hc with rfl | hc
            · exact h12 hp
            · exact h4 hp c hc
        · rintro ⟨cs, h1, h2, h3, h4⟩
          obtain ⟨rest, rfl, hh⟩ := cons h2 h3
          refine ⟨rest, by simpa using h1, hh, ?_, fun hp c hc => h4 hp c (List.mem_cons_of_mem _ hc)⟩
          rwa [List.length_cons, show j + (rest.length + 1) = j + 1 + rest.length by omega] at h3
      · rw [hu]
        refine iff_of_false (by simp) ?_
        rintro ⟨cs, h1, h2, h3, h4⟩
        obtain ⟨rest, rfl, -⟩ := cons h2 h3
        have := h4 h12 b List.mem_cons_self
        omega

/-- The single-byte loop is refused at the first byte 0xA0..0xFF of part 12, where every byte up to it is written (log entry 13). -/
theorem State.decodeBytes_refused {p : IsoPart} {r : Refusal} : ∀ (n j : Nat) (out : List Half),
    j + n ≤ s.bufLen.toNat → out.length + n ≤ 4096 →
    (s.decodeBytes p n j out = .error (.refusal r) ↔ p = .p12 ∧ r = .isoTableAbsent .p12 ∧
      ∃ cs c, (cs ++ [c]).length ≤ n ∧ s.holds j (cs ++ [c]) ∧ 0xA0 ≤ c.toNat) := by
  intro n
  induction n with
  | zero =>
    intro j out _ _
    refine iff_of_false (by simp [State.decodeBytes]) ?_
    rintro ⟨-, -, cs, c, h, -⟩
    simp at h
  | succ n ih =>
    intro j out hb hl
    rw [State.decodeBytes]
    cases hg : s.secBuf.get j with
    | none =>
      rw [State.memRead_one_unwritten hg (by omega)]
      refine iff_of_false (by simp) ?_
      rintro ⟨-, -, cs, c, -, h, -⟩
      exact State.holds_get (k := 0) h (by simp) hg
    | some b =>
      rw [State.memRead_one hg (by omega), Exec.ok_bind, BitVec.ofNat_toNat, BitVec.setWidth_eq]
      rcases mapByte_cases s.build.iso8859 p b with ⟨h12, u, hu⟩ | ⟨h12, hge, hu⟩
      · rw [hu, Exec.ok_bind]
        obtain ⟨o, ho, hol⟩ := emitOption_room out u (by omega)
        rw [ho, Exec.ok_bind, ih (j + 1) o (by omega) (by omega)]
        refine and_congr_right fun hp => and_congr_right fun _ => ⟨?_, ?_⟩
        · rintro ⟨cs, c, h1, h2, h3⟩
          exact ⟨b :: cs, c, by simpa using h1, (s.holds_cons _ _ _).2 ⟨hg, h2⟩, h3⟩
        · rintro ⟨cs, c, h1, h2, h3⟩
          cases cs with
          | nil =>
            rw [List.nil_append, State.holds_cons, hg] at h2
            cases h2.1
            have := h12 hp
            omega
          | cons a cs =>
            rw [List.cons_append, State.holds_cons] at h2
            exact ⟨cs, c, by simpa using h1, h2.2, h3⟩
      · rw [hu]
        refine ⟨fun h => ?_, ?_⟩
        · cases h
          exact ⟨h12, rfl, [], b, by simp, (s.holds_cons _ _ _).2 ⟨hg, by simp⟩, hge⟩
        · rintro ⟨-, rfl, -⟩
          rfl

/-- The UCS-2 loop faults at the first unwritten byte of its code units, and nowhere else (R232, R234). -/
theorem State.decodeUnits_faults : ∀ (n j : Nat) (out : List Half), j + 2 * n ≤ s.bufLen.toNat →
    out.length + n ≤ 4096 →
    (Exec.Faults (s.decodeUnits n j out) ↔ ∃ cs, cs.length < 2 * n ∧ s.holds j cs ∧
      s.secBuf.get (j + cs.length) = none) := by
  intro n
  induction n with
  | zero =>
    intro j out _ _
    exact iff_of_false (Exec.not_faults_ok _) (by rintro ⟨cs, h, -⟩; omega)
  | succ n ih =>
    intro j out hb hl
    rw [State.decodeUnits, Exec.faults_bind, State.memRead_faults]
    constructor
    · rintro (⟨-, k, hk, hn⟩ | ⟨v, hv, h⟩)
      · cases hg : s.secBuf.get j with
        | none => exact ⟨[], by simp, by simp, hg⟩
        | some b =>
          have : k = 1 := by
            rcases (by omega : k = 0 ∨ k = 1) with rfl | rfl
            · rw [Nat.add_zero, hg] at hn; cases hn
            · rfl
          subst this
          exact ⟨[b], by simp only [List.length_singleton]; omega, (s.holds_cons _ _ _).2 ⟨hg, by simp⟩, hn⟩
      · rcases s.memRead_cases j 2 with ⟨-, bs, hlen, hh, -⟩ | ⟨-, e⟩ | ⟨-, k, -, -, -, e⟩
        · obtain ⟨o, ho, hol⟩ := emitOption_room out (mapUnit (BitVec.ofNat 16 v)) (by omega)
          rw [ho, Exec.ok_bind, ih (j + 2) o (by omega) (by omega)] at h
          obtain ⟨cs, h1, h2, h3⟩ := h
          refine ⟨bs ++ cs, by simp only [List.length_append]; omega, (s.holds_append _ _ _).2 ⟨hh, by rwa [hlen]⟩, ?_⟩
          rwa [List.length_append, hlen, ← Nat.add_assoc]
        · rw [e] at hv; cases hv
        · rw [e] at hv; cases hv
    · rintro ⟨cs, h1, h2, h3⟩
      rcases s.memRead_cases j 2 with ⟨-, bs, hlen, hh, e⟩ | ⟨hlt, -⟩ | ⟨hle, k, hk, hn, -, -⟩
      · refine .inr ⟨_, e, ?_⟩
        obtain ⟨o, ho, hol⟩ := emitOption_room out (mapUnit (BitVec.ofNat 16 (bigEndian bs))) (by omega)
        rw [ho, Exec.ok_bind, ih (j + 2) o (by omega) (by omega)]
        have h2len : 2 ≤ cs.length := by
          by_contra hlt
          exact State.holds_get hh (by omega) h3
        have e2 : cs = cs.take 2 ++ cs.drop 2 := (List.take_append_drop 2 cs).symm
        rw [e2, State.holds_append, List.length_take, Nat.min_eq_left h2len] at h2
        refine ⟨cs.drop 2, by rw [List.length_drop]; omega, h2.2, ?_⟩
        rwa [List.length_drop, show j + 2 + (cs.length - 2) = j + cs.length by omega]
      · omega
      · exact .inl ⟨hle, k, hk, hn⟩

end

end Sys2Proof.Machine
end

