-- ==== Sys2Proof/Machine/HostDriver.lean ====
section
/-! DEFINITION. The host-driver assembly of the spec (R99, R100): the turns of the machine that each statement of a host program stands for. It is notation for what the host does; the block itself has no program. -/

namespace Sys2Proof.Machine

/-- The offset column of R23. -/
def regOffset : Reg → Nat
  | .id      => 0x000
  | .ctrl    => 0x004
  | .status  => 0x008
  | .bufLen  => 0x00C
  | .cmd     => 0x010
  | .arg0    => 0x014
  | .arg1    => 0x018
  | .res0    => 0x01C
  | .res1    => 0x020
  | .curPos  => 0x024
  | .outLen  => 0x028
  | .errInfo => 0x02C

/-- The primitive statements (R99). -/
inductive Stmt where
  /-- A 32-bit host write of v to a register. -/
  | wr (r : Reg) (v : Word)
  /-- A 32-bit host read of a register. -/
  | rd (r : Reg)
  /-- 8-bit host writes of bytes to SECBUF from an offset on. -/
  | wrb (off : Nat) (bytes : List Byte)
  /-- A 16-bit host read of an OUTBUF entry. -/
  | rdh (i : Nat)
  deriving DecidableEq, Repr

/-- 8-bit writes of bytes at successive host addresses. -/
def byteWrites : (addr : Nat) → List Byte → List HostAccess
  | _, [] => []
  | addr, b :: bytes => .write .b8 addr (b.setWidth 32) :: byteWrites (addr + 1) bytes

/-- The bus accesses of a primitive statement (R99, R23). -/
def Stmt.accesses (base : Nat) : Stmt → List HostAccess
  | .wr r v        => [.write .b32 (base + regOffset r) v]
  | .rd r          => [.read .b32 (base + regOffset r)]
  | .wrb off bytes => byteWrites (base + 0x1000 + off) bytes
  | .rdh i         => [.read .b16 (base + 0x2000 + 2 * i)]

/-- The turns of a list of primitive statements. -/
def stmtTurns (base : Nat) (l : List Stmt) : List Turn :=
  l.flatMap fun x => (x.accesses base).map Turn.host

/-- The pseudo-instructions of R100. Its two-part `seal` is `op .secCrc` and then `storeRes0`. -/
inductive Pseudo where
  | poll
  | op (i : Instr) (a0 a1 : Option Word)
  | load (off : Nat) (bytes : List Byte)
  /-- The rest of `seal`: `wr ARG0, <value read from RES0>` and then `SETCRC`. -/
  | storeRes0
  | owned
  | borrowed
  | srst
  deriving DecidableEq, Repr

/-- `poll` (R100): it ends with the read of STATUS that finds BUSY = 0, so the engine has had its turn by then (R350). The reads before that one change nothing (R68) and are left out. -/
def pollTurns (base : Nat) : List Turn := .engine :: stmtTurns base [.rd .status]

/-- `OP[.m] [a0 [, a1]]` (R100): the operands that are given, CMD with the word of R93, and `poll`. -/
def opTurns (base : Nat) (i : Instr) (a0 a1 : Option Word) : List Turn :=
  stmtTurns base ((a0.map (Stmt.wr .arg0)).toList ++ (a1.map (Stmt.wr .arg1)).toList ++ [.wr .cmd (encode i)])
    ++ pollTurns base

/-- The expansions of R100, for a host that runs the statement in the state `s`. -/
def Pseudo.turns (s : State) : Pseudo → List Turn
  | .poll           => pollTurns s.build.pseBase
  | .op i a0 a1     => opTurns s.build.pseBase i a0 a1
  | .load off bytes =>
    stmtTurns s.build.pseBase [.wrb off bytes, .wr .bufLen (BitVec.ofNat 32 (off + bytes.length))]
  | .storeRes0      => stmtTurns s.build.pseBase [.wr .arg0 s.res0] ++ opTurns s.build.pseBase .setCrc none none
  | .owned          => stmtTurns s.build.pseBase [.wr .ctrl ((s.readReg .ctrl &&& 2) ||| 1)]
  | .borrowed       => stmtTurns s.build.pseBase [.wr .ctrl (s.readReg .ctrl &&& 2)]
  | .srst           => stmtTurns s.build.pseBase [.wr .ctrl 0x80000000]

end Sys2Proof.Machine
end

