-- ==== Sys2Proof/Tests/Slice0.lean ====
section
/-! SUPPORT. Tests of the model, each on one decoding or one step, with expected results from the spec's text and vectors (95_test_vectors.md), and for every obligation with hypotheses a witness that meets them. -/

namespace Sys2Proof.Tests

open Sys2Proof.Machine

/-! ### Machines to test -/

/-- A table for one part: the identity for part 1, and numbers that tell the part elsewhere. -/
def upperOf (n : Nat) : UpperHalf :=
  Vector.ofFn fun i => BitVec.ofNat 16 (if n = 1 then 0xA0 + i.val else n * 1000 + i.val)

/-- The toy code of 95_test_vectors.md: 00 END, 01 'a', 100 'b', 101 ESC, 110 'c', 1110 'd'. -/
def toyCode : HuffCode :=
  [⟨[false, false], 0⟩, ⟨[false, true], 0x61⟩, ⟨[true, false, false], 0x62⟩,
   ⟨[true, false, true], 0x1B⟩, ⟨[true, true, false], 0x63⟩, ⟨[true, true, true, false], 0x64⟩]

/-- A build: the defaults of R7, the toy code in every context of both tables, and the tables above. -/
def toyBuild : Build where
  pseBase         := 0x40000000
  noCrcTids       := [0x70]
  shortLenRows    := []
  huffCode        := ⟨⟨[], toyCode⟩, ⟨[], toyCode⟩⟩
  huffCtxStart    := 0
  huffCtxNextRows := []
  huffLitBits     := 8
  huffEnd         := 0
  huffEsc         := 0x1B
  iso8859         := ⟨upperOf 1, upperOf 2, upperOf 3, upperOf 4, upperOf 5, upperOf 6, upperOf 7,
    upperOf 8, upperOf 9, upperOf 10, upperOf 11, upperOf 13, upperOf 14, upperOf 15⟩
  dvbDefault      := .p1

/-- The cells of a string of bytes from an offset on. -/
def cells : Nat → List Byte → Memory
  | _, [] => []
  | k, b :: bs => (k, b) :: cells (k + 1) bs

/-- A machine that holds a section, with its arguments loaded and nothing pending. -/
def machine (bytes : List Byte) (clone : Bool) (arg0 arg1 : Word) : State :=
  { State.powerOn toyBuild with
    ctrl := ⟨clone, false⟩, bufLen := BitVec.ofNat 13 bytes.length, arg0 := arg0, arg1 := arg1
    secBuf := cells 0 bytes }

/-- The section F0 of 95_test_vectors.md: a sealed section of 12 bytes. -/
def secF0 : List Byte := [0x00, 0xB0, 0x09, 0x00, 0x00, 0xC1, 0x00, 0x00, 0x33, 0x4F, 0xF8, 0xA0]

/-- F0 with its trailer replaced by ff ff ff ff. -/
def secF1 : List Byte := [0x00, 0xB0, 0x09, 0x00, 0x00, 0xC1, 0x00, 0x00, 0xFF, 0xFF, 0xFF, 0xFF]

/-- F0 in an owned buffer. -/
abbrev f0 (arg0 arg1 : Word) : State := machine secF0 true arg0 arg1

/-- F1 in an owned buffer. -/
abbrev f1 (arg0 arg1 : Word) : State := machine secF1 true arg0 arg1

/-- What a view of the next state gives, where a step has one. -/
def after {α : Type} (r : Result) (view : State → α) : Option α :=
  match r with
  | .next t    => some (view t)
  | .fault _   => none
  | .refused _ => none

/-- STATUS and ERRINFO as the host reads them: the whole outcome of a command error. -/
def errors (t : State) : Word × Word := (t.readReg .status, t.errInfo)

/-! ### Well-formedness -/

theorem test_bitField_width_0_refused : Instr.wellFormed (.bitField 0) = false := by decide
theorem test_bitField_width_33_refused : Instr.wellFormed (.bitField 33) = false := by decide
theorem test_readBits_width_0_refused : Instr.wellFormed (.readBits 0) = false := by decide
theorem test_readBits_width_33_refused : Instr.wellFormed (.readBits 33) = false := by decide
theorem test_peekBits_width_0_refused : Instr.wellFormed (.peekBits 0) = false := by decide
theorem test_peekBits_width_33_refused : Instr.wellFormed (.peekBits 33) = false := by decide

/-! ### Decoding: the words of R93, written as Z, M and OP -/

theorem test_decode_nop : decode 0b0000000000000000_00000000_00000000#32 = .ok .nop := rfl
theorem test_decode_byteAt : decode 0b0000000000000000_00000000_00000001#32 = .ok .byteAt := rfl
theorem test_decode_word16At : decode 0b0000000000000000_00000000_00000010#32 = .ok .word16At := rfl
theorem test_decode_word32At : decode 0b0000000000000000_00000000_00000011#32 = .ok .word32At := rfl
theorem test_decode_sliceAt : decode 0b0000000000000000_00000000_00000100#32 = .ok .sliceAt := rfl
theorem test_decode_isClone : decode 0b0000000000000000_00000000_00000101#32 = .ok .isClone := rfl
theorem test_decode_bitField : decode 0b0000000000000000_00001100_00000110#32 = .ok (.bitField 12) := rfl
theorem test_decode_seekBit : decode 0b0000000000000000_00000000_00000111#32 = .ok .seekBit := rfl
theorem test_decode_readBits : decode 0b0000000000000000_00100000_00001000#32 = .ok (.readBits 32) := rfl
theorem test_decode_peekBits : decode 0b0000000000000000_00000001_00001001#32 = .ok (.peekBits 1) := rfl
theorem test_decode_secHdr : decode 0b0000000000000000_00000000_00010000#32 = .ok .secHdr := rfl
theorem test_decode_hasCrc : decode 0b0000000000000000_00000000_00010001#32 = .ok .hasCrc := rfl
theorem test_decode_calcCrc : decode 0b0000000000000000_00000000_00010010#32 = .ok .calcCrc := rfl
theorem test_decode_verifyCrc : decode 0b0000000000000000_00000000_00010011#32 = .ok .verifyCrc := rfl
theorem test_decode_secCrc : decode 0b0000000000000000_00000000_00010100#32 = .ok .secCrc := rfl
theorem test_decode_setCrc : decode 0b0000000000000000_00000000_00010101#32 = .ok .setCrc := rfl
theorem test_decode_huffDecC5 : decode 0b0000000000000000_00000001_00100000#32 = .ok .huffDecC5 := rfl
theorem test_decode_huffDecC7 : decode 0b0000000000000000_00000010_00100000#32 = .ok .huffDecC7 := rfl
theorem test_decode_dvbText : decode 0b0000000000000000_00000000_00100001#32 = .ok .dvbText := rfl

/-- R95: widths out of range, unlisted opcodes, a table code that is none, M or Z not zero. -/
theorem test_decode_rejects :
    decode 0x00002106 = .error (.widthOutOfRange 0x06 0x21) ∧
    decode 0x00000008 = .error (.widthOutOfRange 0x08 0) ∧
    decode 0x0000000A = .error (.unlistedOp 0x0A) ∧ decode 0x000000FF = .error (.unlistedOp 0xFF) ∧
    decode 0x00000320 = .error (.noCodeTable 3) ∧ decode 0x00000020 = .error (.noCodeTable 0) ∧
    decode 0x00000101 = .error (.modifierNotZero 1 1) ∧ decode 0x00010000 = .error (.reservedZ 1) :=
  ⟨rfl, rfl, rfl, rfl, rfl, rfl, rfl, rfl⟩

theorem test_decodeTableWord : decodeTableWord 32 0x0C06 = some (.bitField 12) := rfl

/-! ### One step of each command -/

theorem test_nop : after (exec .nop (f0 1 2)) errors = some (2, 0) := by decide
theorem test_byteAt : after (exec .byteAt (f0 1 0)) (fun t => t.res0) = some 0xB0 := by decide
theorem test_byteAt_at_the_end : after (exec .byteAt (f0 12 0)) errors = some (0x204, 12) := by decide
theorem test_word16At : after (exec .word16At (f0 1 0)) (fun t => t.res0) = some 0xB009 := by decide
theorem test_word32At : after (exec .word32At (f0 8 0)) (fun t => t.res0) = some 0x334FF8A0 := by decide
theorem test_word32At_no_wrap : after (exec .word32At (f0 0xFFFFFFFE 0)) errors = some (0x204, 0xFFFFFFFE) := by
  decide
theorem test_sliceAt_empty_at_the_end :
    after (exec .sliceAt (f0 12 0)) (fun t => (t.res0, t.res1, t.readReg .status)) = some (12, 0, 2) := by decide
theorem test_sliceAt_past_the_end : after (exec .sliceAt (f0 10 3)) errors = some (0x204, 10) := by decide
theorem test_isClone : after (exec .isClone (f0 0 0)) (fun t => t.res0) = some 1 := by decide
theorem test_bitField : after (exec (.bitField 12) (f0 12 0)) (fun t => t.res0) = some 9 := by decide
theorem test_bitField_past_the_end : after (exec (.bitField 8) (f0 90 0)) errors = some (0x204, 90) := by decide
theorem test_seekBit_to_the_end : after (exec .seekBit (f0 96 0)) (fun t => t.curPos) = some 96 := by decide
theorem test_seekBit_past_the_end : after (exec .seekBit (f0 97 0)) errors = some (0x204, 97) := by decide
theorem test_readBits :
    after (exec (.readBits 4) { f0 0 0 with curPos := 8 }) (fun t => (t.res0, t.curPos)) = some (0xB, 12) := by decide
theorem test_readBits_past_the_end :
    after (exec (.readBits 9) { f0 0 0 with curPos := 88 }) (fun t => (errors t, t.curPos))
      = some ((0x204, 88), 88) := by decide
theorem test_peekBits :
    after (exec (.peekBits 4) { f0 0 0 with curPos := 8 }) (fun t => (t.res0, t.curPos)) = some (0xB, 8) := by decide
theorem test_secHdr : after (exec .secHdr (f0 0 0)) (fun t => (t.res0, t.res1)) = some (12, 0x00090500) := by decide
theorem test_secHdr_too_long :
    after (exec .secHdr { f0 0 0 with bufLen := 11 }) errors = some (0x304, 12) := by decide
theorem test_hasCrc : after (exec .hasCrc (f0 0 0)) (fun t => t.res0) = some 1 := by decide
theorem test_hasCrc_of_the_TDT :
    after (exec .hasCrc (machine [0x70, 0x70, 0x05] true 0 0)) (fun t => t.res0) = some 0 := by decide
theorem test_calcCrc : after (exec .calcCrc (f0 0 8)) (fun t => t.res0) = some 0x334FF8A0 := by decide +kernel
theorem test_calcCrc_of_123456789 :
    after (exec .calcCrc (machine [0x31, 0x32, 0x33, 0x34, 0x35, 0x36, 0x37, 0x38, 0x39] true 0 9)) (fun t => t.res0)
      = some 0x0376E6E7 := by decide +kernel
theorem test_verifyCrc :
    after (exec .verifyCrc (f0 0 0)) (fun t => (t.res0, t.res1)) = some (1, 0x334FF8A0) := by decide +kernel
theorem test_verifyCrc_wrong_trailer :
    after (exec .verifyCrc (f1 0 0)) (fun t => (t.res0, t.res1)) = some (0, 0x334FF8A0) := by decide +kernel
theorem test_secCrc : after (exec .secCrc (f1 0 0)) (fun t => t.res0) = some 0x334FF8A0 := by decide +kernel
theorem test_setCrc :
    after (exec .setCrc (f1 0x334FF8A0 0)) (fun t => (t.secBuf == (f0 0 0).secBuf, t.readReg .status))
      = some (true, 2) := by decide +kernel
theorem test_setCrc_borrowed :
    after (exec .setCrc (machine secF1 false 0x334FF8A0 0)) errors = some (0x404, 0) := by decide +kernel
theorem test_huffDecC5 :
    after (exec .huffDecC5 (machine [0x66, 0xE3] true 0 2)) (fun t => (t.outBuf, t.res0, t.res1))
      = some ([0x61, 0x62, 0x63, 0x64], 4, 14) := by decide +kernel
theorem test_huffDecC5_bad_code :
    after (exec .huffDecC5 (machine [0xF0] true 0 1)) (fun t => (errors t, t.outLen)) = some ((0x704, 0), 0) := by
  decide +kernel
theorem test_huffDecC7 :
    after (exec .huffDecC7 (machine [0x66, 0xE3] true 0 2)) (fun t => (t.outBuf, t.res0, t.res1))
      = some ([0x61, 0x62, 0x63, 0x64], 4, 14) := by decide +kernel
theorem test_dvbText_ucs2 :
    after (exec .dvbText (machine [0x11, 0x80, 0x06, 0x5E, 0xB7] true 0 5)) (fun t => (t.outBuf, t.res0, t.res1))
      = some ([0x8006, 0x5EB7], 2, 0x100) := by decide +kernel
theorem test_dvbText_reserved_selector :
    after (exec .dvbText (machine [0x08, 0x41] true 0 2)) (fun t => (errors t, t.outBuf)) = some ((0x904, 8), []) := by
  decide +kernel

/-! ### One step of the machine -/

/-- Every step after reset of a word that is no row is ILLEGAL_CMD (R95, R125). -/
theorem test_step_illegal :
    after (step (State.reset.withFetchWord 32 0x2106)) errors = some (0x104, 0x2106) := by decide +kernel
/-- R45, R341, R63: one host turn each. -/
theorem test_step_start :
    after (step { f0 0 0 with schedule := [.host (.write .b32 0x40000010 0x01)] }) (fun t => (t.cmd, t.readReg .status))
      = some (1, 1) := by decide +kernel
theorem test_step_read :
    after (step { f0 0 0 with schedule := [.host (.read .b16 0x40001008)] }) (fun t => t.hostData)
      = some (some 0x334F) := by decide +kernel

/-! ### The host-driver assembly and the source's vector -/

/-- R101: BITFIELD.12 12, HUFFDEC.C7 5, 11 and READBITS.16. -/
theorem test_assembly :
    ((Pseudo.op (.bitField 12) (some 12) none).turns (f0 0 0)).take 2
      = [.host (.write .b32 0x40000014 12), .host (.write .b32 0x40000010 0x00000C06)] ∧
    ((Pseudo.op .huffDecC7 (some 5) (some 11)).turns (f0 0 0)).take 3
      = [.host (.write .b32 0x40000014 5), .host (.write .b32 0x40000018 11),
         .host (.write .b32 0x40000010 0x00000220)] ∧
    ((Pseudo.op (.readBits 16) none none).turns (f0 0 0)).take 1
      = [.host (.write .b32 0x40000010 0x00001008)] := by decide

/-- Codes under which the source's three vectors decode as R209 asks. -/
def vectorCodes : ContextCodes := ⟨[
  (0x00, [⟨[false, true, false, false], 0x54⟩, ⟨[true], 0x4D⟩]),
  (0x54, [⟨[false, false, true, true], 0x68⟩, ⟨[true], 0x56⟩]),
  (0x68, [⟨[false, false, true, false], 0x65⟩, ⟨[true], 0x54⟩]),
  (0x65, [⟨[true, false, false, false], 0x20⟩, ⟨[false, true, false, false], 0x78⟩]),
  (0x20, [⟨[true, true, false, true], 0x6E⟩, ⟨[false], 0x69⟩, ⟨[true, true, true], 0x63⟩]),
  (0x6E, [⟨[true, true, false], 0x65⟩]), (0x78, [⟨[false, false, true, false], 0x74⟩]),
  (0x74, [⟨[false, true, true, false], 0x00⟩, ⟨[true], 0x68⟩]), (0x4D, [⟨[true], 0x79⟩]),
  (0x79, [⟨[true], 0x74⟩]), (0x56, [⟨[true], 0x20⟩]), (0x69, [⟨[true], 0x73⟩]), (0x73, [⟨[true], 0x20⟩]),
  (0x63, [⟨[true], 0x6F⟩]), (0x6F, [⟨[false], 0x6F⟩, ⟨[true], 0x6C⟩]),
  (0x6C, [⟨[true], 0x21⟩, ⟨[false, true], 0x2E⟩]), (0x21, [⟨[true], 0x00⟩]), (0x2E, [⟨[true], 0x00⟩])], toyCode⟩

/-! ### Witnesses: helpers -/

/-- A concrete next state with a property, by evaluation. -/
theorem next_of {r : Result} {p : State → Bool} (h : after r p = some true) : ∃ t, r = .next t ∧ p t = true := by
  cases r with
  | next t    => exact ⟨t, rfl, by simpa [after] using h⟩
  | fault f   => simp [after] at h
  | refused x => simp [after] at h

/-- Some parameters meet the source's demands (R209). -/
theorem witness_MeetsSourceVectors :
    MeetsSourceVectors { toyBuild with huffCode := ⟨vectorCodes, vectorCodes⟩ } := by
  have lift : ∀ {r : Result} {n l : Nat} {chars : List Half},
      after r (fun u => decide (u.status.done = true ∧ u.outLen.toNat = l ∧ u.outBuf = chars ∧ u.res1.toNat ≤ n))
        = some true →
      Completes r fun u => u.status.done = true ∧ u.outLen.toNat = l ∧ u.outBuf = chars ∧ u.res1.toNat ≤ n := by
    intro r n l chars h
    obtain ⟨u, hu, hp⟩ := next_of h
    exact ⟨u, hu, of_decide_eq_true hp⟩
  refine ⟨lift (by decide +kernel), ⟨[0xFE, 0xFD, 0xC0, 0, 0, 0, 0, 0, 0, 0, 0, 0], rfl, lift (by decide +kernel)⟩,
    ⟨[0xFE, 0xFD, 0x60, 0, 0, 0, 0, 0, 0, 0, 0], rfl, lift (by decide +kernel)⟩⟩

/-- Some parameters give part 1 as the identity (R235, G10), as section 0 of 95_test_vectors.md does. -/
theorem witness_PartOneIsIdentity : PartOneIsIdentity toyBuild.iso8859 := by
  intro k
  simp [toyBuild, upperOf]

theorem holds_of {s : State} {off : Nat} {bs : List Byte}
    (h : ∀ k, k < bs.length → s.secBuf.get (off + k) = bs[k]?) : s.holds off bs := by
  intro k b hk
  rw [h k (List.getElem?_eq_some_iff.1 hk).1, hk]

theorem holdsBits_of {s : State} {p : Nat} {bs : List Bool}
    (h : ∀ k, k < bs.length → s.secBuf.bit (p + k) = bs[k]?) : s.holdsBits p bs := by
  intro k b hk
  rw [h k (List.getElem?_eq_some_iff.1 hk).1, hk]

theorem get_cells (bs : List Byte) : ∀ k a b, bs[a]? = some b → Memory.get (cells k bs) (k + a) = some b := by
  induction bs with
  | nil => intro k a b h; simp at h
  | cons c bs ih =>
    intro k a b h
    cases a with
    | zero => simpa [cells, Memory.get] using h
    | succ a =>
      have := ih (k + 1) a b (by simpa using h)
      rw [show k + 1 + a = k + (a + 1) by omega] at this
      simpa [cells, Memory.get] using this

/-- A machine holds the bytes it was made with. -/
theorem machine_holds (bytes : List Byte) (clone : Bool) (arg0 arg1 : Word) :
    (machine bytes clone arg0 arg1).holds 0 bytes := fun a b h => get_cells bytes 0 a b h

/-- A machine with a command word just started. -/
abbrev pending (w : Word) : State := (f0 1 0).startCommand w

/-- The bits of n characters 'a' in the toy code. -/
def aBits : Nat → List Bool
  | 0     => []
  | n + 1 => [false, true] ++ aBits n

/-- They are n characters, from any context. -/
theorem chars_a (n : Nat) : ∀ c, ∃ c', Chars toyBuild .c5 c (aBits n) (List.replicate n 0x61) c' := by
  induction n with
  | zero => exact fun c => ⟨c, .nil c⟩
  | succ n ih =>
    intro c
    obtain ⟨c', h⟩ := ih (huffCtxNext toyBuild ((0x61 : Symbol).setWidth 8))
    exact ⟨c', .char c [false, true] 0x61 _ _ c' (by change _ ∈ toyCode; decide) (by decide) (by decide) h⟩

theorem aBits_length (n : Nat) : (aBits n).length = 2 * n := by
  induction n with
  | zero => rfl
  | succ n ih => simp [aBits, ih]; omega

theorem aBits_add (m n : Nat) : aBits (m + n) = aBits m ++ aBits n := by
  induction m with
  | zero => simp [aBits]
  | succ m ih => rw [show m + 1 + n = (m + n) + 1 by omega]; simp [aBits, ih]

/-- Bytes 0x55 are four such characters each. -/
theorem bits_of_55 (n : Nat) : (List.replicate n (0x55 : Byte)).flatMap byteBits = aBits (4 * n) := by
  induction n with
  | zero => rfl
  | succ n ih =>
    rw [List.replicate_succ, List.flatMap_cons, ih, show 4 * (n + 1) = 4 + 4 * n by omega, aBits_add]
    rfl

/-- A word of any row's opcode with an illegal M or Z: the hypotheses of IllegalUnlessPlain. -/
theorem witness_IllegalUnlessPlain :
    ∀ op ∈ [(0 : Byte), 1, 2, 3, 4, 5, 7, 0x10, 0x11, 0x12, 0x13, 0x14, 0x15],
      (opField (commandWord op 1) = op ∧ mField (commandWord op 1) ≠ 0) ∧
      (opField (commandWord op 0 ||| 0x80000000) = op ∧ zField (commandWord op 0 ||| 0x80000000) ≠ 0) := by decide

/-- The hypotheses of IllegalUnlessWidth, at both ends of the widths and in Z. -/
theorem witness_IllegalUnlessWidth : ∀ op ∈ [(0x06 : Byte), 0x08, 0x09],
    (opField (commandWord op 0) = op ∧ mField (commandWord op 0) = 0) ∧
    (opField (commandWord op 33) = op ∧ 32 < (mField (commandWord op 33)).toNat) ∧
    (opField (commandWord op 8 ||| 0x10000) = op ∧ zField (commandWord op 8 ||| 0x10000) ≠ 0) := by decide

/-! ### Witnesses: the command word and the step -/

theorem witness_DecodeOfEncode :
    Instr.WellFormed .nop ∧ Instr.WellFormed (.bitField 1) ∧ Instr.WellFormed (.readBits 32) ∧
    Instr.WellFormed .huffDecC7 := by decide

theorem witness_LegalWordsAreTheRows : ¬∃ i : Instr, i.WellFormed ∧ encode i = 0x2106 := by
  rintro ⟨i, hi, he⟩
  cases i with
  | bitField w => revert hi he; revert w; decide
  | readBits w => revert hi he; revert w; decide
  | peekBits w => revert hi he; revert w; decide
  | _ => revert he; decide

theorem witness_StepRunsPendingCommand :
    (pending 1).unmarked ∧ (pending 1).status.busy = true ∧ decode (pending 1).cmd = .ok .byteAt ∧
    (pending 1).schedule = [] ∧ { pending 1 with schedule := [.engine] }.schedule = Turn.engine :: [] :=
  ⟨⟨rfl, rfl⟩, rfl, rfl, rfl, rfl⟩

theorem witness_EngineTurnWithoutLegalCommand :
    ((f0 1 0).unmarked ∧ (f0 1 0).schedule = [] ∧ (f0 1 0).status.busy = false) ∧
    (let s : State := { f0 1 0 with schedule := [.engine, .powerOn] }
     s.unmarked ∧ s.schedule = Turn.engine :: [.powerOn] ∧ s.status.busy = false) ∧
    ((pending 0x0A).unmarked ∧ (pending 0x0A).schedule = [] ∧ (pending 0x0A).status.busy = true ∧
      ∀ i, decode (pending 0x0A).cmd ≠ .ok i) ∧
    (let s : State := { pending 0x0A with schedule := [.engine, .powerOn] }
     s.unmarked ∧ s.schedule = Turn.engine :: [.powerOn] ∧ s.status.busy = true ∧ ∀ i, decode s.cmd ≠ .ok i) :=
  ⟨⟨⟨rfl, rfl⟩, rfl, rfl⟩, ⟨⟨rfl, rfl⟩, rfl, rfl⟩, ⟨⟨rfl, rfl⟩, rfl, rfl, fun i h => by cases h⟩,
   ⟨rfl, rfl⟩, rfl, rfl, fun i h => by cases h⟩

theorem witness_StepOfHostAccess :
    (f0 1 0).unmarked ∧ (∃ t, (f0 1 0).hostWrite .b32 0x014 7 = .ok t) ∧
    (∃ f, (f0 1 0).hostWrite .b8 0x014 7 = .error f) ∧ (∃ d, (f0 1 0).hostRead .b8 0x1008 = .ok d) ∧
    (∃ f, (f0 1 0).hostRead .b16 0x3FFE = .error f) :=
  ⟨⟨rfl, rfl⟩, ⟨_, rfl⟩, ⟨_, rfl⟩, ⟨_, rfl⟩, ⟨_, rfl⟩⟩

theorem witness_MarkedStatesAreQuiescent :
    step { f0 0 0 with schedule := [.host (.read .b8 0x40001FFF)] } = .fault (.undefReadSecBuf 4095) ∧
    step { pending 0x120 with build := { toyBuild with huffEnd := 0x1B } } = .refused .huffCodeIllFormed ∧
    ¬{ f0 0 0 with faultMark := some (.undefReadSecBuf 0) }.unmarked ∧
    ¬{ f0 0 0 with refusalMark := some .huffCodeIllFormed }.unmarked := by
  refine ⟨by rfl, by rfl, ?_, ?_⟩ <;> simp [State.unmarked]

theorem witness_EngineStepHappens :
    ∃ t, runTurns 3 { f0 0 0 with schedule := [.host (.write .b32 0x40000010 0x05), .engine] } = .next t ∧
      t.res0 = 1 := by
  obtain ⟨t, h, ht⟩ := next_of (p := fun t => t.res0 == 1)
    (show after (runTurns 3 { f0 0 0 with schedule := [.host (.write .b32 0x40000010 0x05), .engine] }) _ = _ by
      decide +kernel)
  exact ⟨t, h, by simpa using ht⟩

/-- A power-on turn that drops a pending command. -/
theorem witness_PowerOnState :
    let u : State := { pending 1 with schedule := [.powerOn, .engine] }
    u.unmarked ∧ u.build = toyBuild ∧ u.schedule = Turn.powerOn :: [.engine] := ⟨⟨rfl, rfl⟩, rfl, rfl⟩

/-! ### Witnesses: the host -/

/-- Every code of R301 is the code of some state. -/
theorem witness_RegisterReads (c : ErrCode) :
    { f0 0 0 with status := errStatus (f0 0 0).status c }.status.errCode = c := rfl

theorem witness_SoftResetKeepsBuffers :
    (0x80000000 : Word).getLsbD 31 = true ∧ (0xFFFFFFFF : Word).getLsbD 31 = true := by decide

theorem witness_CmdWriteStartsCommand : (f0 1 0).status.busy = false := rfl

theorem witness_IdleWritesOfCtrlAndArgs :
    (f0 1 0).status.busy = false ∧ (0x7FFFFFFF : Word).getLsbD 31 = false := by decide

theorem witness_BufLenWrite :
    (f0 1 0).status.busy = false ∧ (4096 : Word).toNat ≤ 4096 ∧ 4096 < (4097 : Word).toNat ∧
    (pending 1).status.busy = true := by decide

theorem witness_BusyDropsHostWrites :
    (pending 1).status.busy = true ∧ accessLegal .b32 0x004 = true ∧ (0x7FFFFFFF : Word).getLsbD 31 = false ∧
    (∀ off ∈ [0x00C, 0x010, 0x014, 0x018], accessLegal .b32 off = true) ∧
    accessLegal .b8 0x1000 = true ∧ accessLegal .b8 0x1FFF = true := by decide

theorem witness_IgnoredHostWrites :
    (∀ off ∈ [0x000, 0x01C, 0x020, 0x024, 0x028, 0x02C, 0x030, 0xFFC], accessLegal .b32 off = true) ∧
    accessLegal .b8 0x2000 = true ∧ accessLegal .b8 0x3FFF = true := by decide

theorem witness_BusErrorsExactly :
    (0x0FFC < 0x1000 ∧ AccessSize.b32 = .b32 ∧ 0x0FFC % 4 = 0) ∧
    (0x1000 ≤ 0x3FFF ∧ AccessSize.b8 = .b8) ∧
    ¬((0x0FFF < 0x1000 ∧ AccessSize.b8 = .b32 ∧ 0x0FFF % 4 = 0) ∨
      (0x1000 ≤ 0x0FFF ∧ (AccessSize.b8 = .b8 ∨ (AccessSize.b8 = .b16 ∧ 0x0FFF % 2 = 0) ∨
        (AccessSize.b8 = .b32 ∧ 0x0FFF % 4 = 0)))) := by decide

theorem witness_HostReadsOutBuf :
    let s : State := { f0 0 0 with outBuf := [0x8006, 0x5EB7, 0x41] }
    s.outBuf[0]? = some 0x8006 ∧ s.outBuf[0 + 1]? = some 0x5EB7 ∧ s.outBuf[2]? = some 0x41 ∧
      s.outBuf[2 + 1]? = none ∧ s.outBuf[4094]? = none ∧ s.outBuf[4095]? = none := ⟨rfl, rfl, rfl, rfl, rfl, rfl⟩

/-- The reads: over written bytes of a pending command, and over a word whose last byte was never written. -/
theorem witness_HostWritesSecBuf :
    ((f0 0 0).status.busy = false ∧ 4092 < 4096 ∧ AccessSize.b32 ≠ .b64 ∧ 4092 % AccessSize.b32.bytes = 0) ∧
    ((pending 1).status.busy = true ∧ (pending 1).holds 8 [0x33, 0x4F, 0xF8, 0xA0] ∧
      (pending 1).holds 10 [0xF8, 0xA0] ∧ (pending 1).holds 11 [0xA0]) ∧
    (let s := machine [0x01, 0x02, 0x03] true 0 0
     3 < AccessSize.b32.bytes ∧ (∀ l, l < 3 → (s.secBuf.get (0 + l)).isSome = true) ∧ s.secBuf.get (0 + 3) = none ∧
       1 < AccessSize.b16.bytes ∧ (∀ l, l < 1 → (s.secBuf.get (2 + l)).isSome = true) ∧
       s.secBuf.get (2 + 1) = none ∧ s.secBuf.get (4095 + 0) = none) :=
  ⟨by decide, ⟨rfl, holds_of (by decide), holds_of (by decide), holds_of (by decide)⟩, by decide⟩

/-! ### Witnesses: the cursor -/

theorem witness_ByteAtResult :
    (((f0 11 0).arg0.toNat + 1 ≤ (f0 11 0).bufLen.toNat) ∧ (f0 11 0).holds (f0 11 0).arg0.toNat [0xA0]) ∧
    (f0 12 0).bufLen.toNat < (f0 12 0).arg0.toNat + 1 ∧
    (let s : State := { f0 12 0 with bufLen := 13 }
     s.arg0.toNat + 1 ≤ s.bufLen.toNat ∧ s.secBuf.get s.arg0.toNat = none) :=
  ⟨⟨by decide, holds_of (by decide)⟩, by decide, by decide⟩

theorem witness_WordReadResults :
    ((f0 10 0).arg0.toNat + 2 ≤ (f0 10 0).bufLen.toNat ∧ (f0 10 0).holds (f0 10 0).arg0.toNat [0xF8, 0xA0]) ∧
    (f0 11 0).bufLen.toNat < (f0 11 0).arg0.toNat + 2 ∧
    ((f0 8 0).arg0.toNat + 4 ≤ (f0 8 0).bufLen.toNat ∧
      (f0 8 0).holds (f0 8 0).arg0.toNat [0x33, 0x4F, 0xF8, 0xA0]) ∧
    (f0 9 0).bufLen.toNat < (f0 9 0).arg0.toNat + 4 :=
  ⟨⟨by decide, holds_of (by decide)⟩, by decide, ⟨by decide, holds_of (by decide)⟩, by decide⟩

theorem witness_SliceAtResult :
    (f0 12 0).arg0.toNat + (f0 12 0).arg1.toNat ≤ (f0 12 0).bufLen.toNat ∧
    (f0 12 1).bufLen.toNat < (f0 12 1).arg0.toNat + (f0 12 1).arg1.toNat := by decide

theorem witness_BitFieldResult :
    (1 ≤ (32 : Byte).toNat ∧ (32 : Byte).toNat ≤ 32 ∧
      (f0 64 0).arg0.toNat + (32 : Byte).toNat ≤ 8 * (f0 64 0).bufLen.toNat ∧
      (f0 64 0).fieldWritten (f0 64 0).arg0.toNat (32 : Byte).toNat) ∧
    8 * (f0 96 0).bufLen.toNat < (f0 96 0).arg0.toNat + (1 : Byte).toNat :=
  ⟨⟨by decide, by decide, by decide, by unfold State.fieldWritten; decide⟩, by decide⟩

theorem witness_SeekBitResult :
    (f0 96 0).arg0.toNat ≤ 8 * (f0 96 0).bufLen.toNat ∧ 8 * (f0 97 0).bufLen.toNat < (f0 97 0).arg0.toNat := by decide

theorem witness_ReadBitsResult :
    (let s : State := { f0 0 0 with curPos := 64 }
     s.curPos.toNat + (32 : Byte).toNat ≤ 8 * s.bufLen.toNat ∧ s.fieldWritten s.curPos.toNat (32 : Byte).toNat) ∧
    (let s : State := { f0 0 0 with curPos := 96 }
     8 * s.bufLen.toNat < s.curPos.toNat + (1 : Byte).toNat) :=
  ⟨⟨by decide, by unfold State.fieldWritten; decide⟩, by decide⟩

theorem witness_PeekBitsResult :
    (let s : State := { f0 0 0 with curPos := 95 }
     s.curPos.toNat + (1 : Byte).toNat ≤ 8 * s.bufLen.toNat ∧ s.fieldWritten s.curPos.toNat (1 : Byte).toNat) ∧
    (let s : State := { f0 0 0 with curPos := 65 }
     8 * s.bufLen.toNat < s.curPos.toNat + (32 : Byte).toNat) :=
  ⟨⟨by decide, by unfold State.fieldWritten; decide⟩, by decide⟩

/-! ### Witnesses: the validator -/

/-- The header of F0 and F1. -/
theorem f1_header (arg0 arg1 : Word) : (f1 arg0 arg1).holds 0 [0x00, 0xB0, 0x09] := holds_of (by
  intro k hk; rcases k with _ | _ | _ | k <;> first | rfl | (simp at hk; omega))

theorem hasCrc_f1 : sectionHasCrc toyBuild 0x00 0xB0 := Or.inl rfl

theorem noCrc_tdt : ¬sectionHasCrc toyBuild 0x70 0x70 := by unfold sectionHasCrc; decide

/-- A time table: no trailer. -/
abbrev tdt : State := machine [0x70, 0x70, 0x05, 0, 0, 0, 0, 0] true 0 0

theorem tdt_header : tdt.holds 0 [0x70, 0x70, 0x05] := holds_of (by decide)

/-- A section of length 3, which has no room for its trailer, and one of length 6. -/
abbrev shortOf (raw : Byte) : State := machine [0x00, 0xB0, raw, 0, 0, 0] true 0 0

theorem witness_SecHdrResult :
    (3 ≤ (f1 0 0).bufLen.toNat ∧ (f1 0 0).holds 0 [0x00, 0xB0, 0x09] ∧
      sectionLength (f1 0 0).build 0x00 0xB0 0x09 ≤ (f1 0 0).bufLen.toNat) ∧
    (let s : State := { f1 0 0 with bufLen := 11 }
     3 ≤ s.bufLen.toNat ∧ s.holds 0 [0x00, 0xB0, 0x09] ∧ s.bufLen.toNat < sectionLength s.build 0x00 0xB0 0x09) ∧
    (machine [0, 0] true 0 0).bufLen.toNat < 3 :=
  ⟨⟨by decide, f1_header 0 0, by decide⟩, ⟨by decide, f1_header 0 0, by decide⟩, by decide⟩

theorem witness_HasCrcResult :
    (3 ≤ (f1 0 0).bufLen.toNat ∧ (f1 0 0).holds 0 [0x00, 0xB0, 0x09] ∧ sectionHasCrc (f1 0 0).build 0x00 0xB0) ∧
    (3 ≤ tdt.bufLen.toNat ∧ tdt.holds 0 [0x70, 0x70, 0x05] ∧ ¬sectionHasCrc tdt.build 0x70 0x70) ∧
    (machine [0, 0] true 0 0).bufLen.toNat < 3 :=
  ⟨⟨by decide, f1_header 0 0, hasCrc_f1⟩, ⟨by decide, tdt_header, noCrc_tdt⟩, by decide⟩

theorem witness_CalcCrcResult :
    (secF0.length = (f0 0 12).arg1.toNat ∧ (f0 0 12).arg0.toNat + (f0 0 12).arg1.toNat ≤ (f0 0 12).bufLen.toNat ∧
      (f0 0 12).holds (f0 0 12).arg0.toNat secF0) ∧
    (f0 1 12).bufLen.toNat < (f0 1 12).arg0.toNat + (f0 1 12).arg1.toNat :=
  ⟨⟨by decide, by decide, machine_holds secF0 true 0 12⟩, by decide⟩

theorem witness_VerifyCrcResult :
    (3 ≤ tdt.bufLen.toNat ∧ tdt.holds 0 [0x70, 0x70, 0x05] ∧ ¬sectionHasCrc tdt.build 0x70 0x70) ∧
    (3 ≤ (f1 0 0).bufLen.toNat ∧ (f1 0 0).holds 0 [0x00, 0xB0, 0x09] ∧
      (f1 0 0).holds 0 (secF1.take 8 ++ wordBytes 0xFFFFFFFF) ∧ sectionHasCrc (f1 0 0).build 0x00 0xB0 ∧
      sectionLength (f1 0 0).build 0x00 0xB0 0x09 = (secF1.take 8).length + 4 ∧
      (secF1.take 8).length + 4 ≤ (f1 0 0).bufLen.toNat) ∧
    (let s : State := { f1 0 0 with bufLen := 11 }
     3 ≤ s.bufLen.toNat ∧ s.holds 0 [0x00, 0xB0, 0x09] ∧ sectionHasCrc s.build 0x00 0xB0 ∧
      s.bufLen.toNat < sectionLength s.build 0x00 0xB0 0x09) ∧
    (3 ≤ (shortOf 0).bufLen.toNat ∧ (shortOf 0).holds 0 [0x00, 0xB0, 0x00] ∧
      sectionHasCrc (shortOf 0).build 0x00 0xB0 ∧ sectionLength (shortOf 0).build 0x00 0xB0 0x00 < 4) ∧
    (machine [0, 0] true 0 0).bufLen.toNat < 3 :=
  ⟨⟨by decide, tdt_header, noCrc_tdt⟩,
   ⟨by decide, f1_header 0 0, machine_holds secF1 true 0 0, hasCrc_f1, by decide, by decide⟩,
   ⟨by decide, f1_header 0 0, hasCrc_f1, by decide⟩,
   ⟨by decide, holds_of (by decide), hasCrc_f1, by decide⟩, by decide⟩

theorem witness_SecCrcResult :
    (3 ≤ (f1 0 0).bufLen.toNat ∧ (f1 0 0).holds 0 [0x00, 0xB0, 0x09] ∧ (f1 0 0).holds 0 (secF1.take 8) ∧
      sectionHasCrc (f1 0 0).build 0x00 0xB0 ∧
      sectionLength (f1 0 0).build 0x00 0xB0 0x09 = (secF1.take 8).length + 4 ∧
      (secF1.take 8).length + 4 ≤ (f1 0 0).bufLen.toNat) ∧
    (3 ≤ tdt.bufLen.toNat ∧ tdt.holds 0 [0x70, 0x70, 0x05] ∧ ¬sectionHasCrc tdt.build 0x70 0x70) ∧
    (3 ≤ (shortOf 0).bufLen.toNat ∧ (shortOf 0).holds 0 [0x00, 0xB0, 0x00] ∧
      sectionHasCrc (shortOf 0).build 0x00 0xB0 ∧ sectionLength (shortOf 0).build 0x00 0xB0 0x00 < 4) ∧
    ((shortOf 4).holds 0 [0x00, 0xB0, 0x04] ∧ sectionHasCrc (shortOf 4).build 0x00 0xB0 ∧
      (shortOf 4).bufLen.toNat < sectionLength (shortOf 4).build 0x00 0xB0 0x04) ∧
    (machine [0, 0] true 0 0).bufLen.toNat < 3 :=
  ⟨⟨by decide, f1_header 0 0, holds_of (by decide), hasCrc_f1, by decide, by decide⟩,
   ⟨by decide, tdt_header, noCrc_tdt⟩,
   ⟨by decide, holds_of (by decide), hasCrc_f1, by decide⟩,
   ⟨holds_of (by decide), hasCrc_f1, by decide⟩, by decide⟩

theorem witness_SetCrcResult :
    ((f1 5 0).ctrl.clone = true ∧ 3 ≤ (f1 5 0).bufLen.toNat ∧ (f1 5 0).holds 0 [0x00, 0xB0, 0x09] ∧
      sectionHasCrc (f1 5 0).build 0x00 0xB0 ∧ 7 ≤ sectionLength (f1 5 0).build 0x00 0xB0 0x09 ∧
      sectionLength (f1 5 0).build 0x00 0xB0 0x09 ≤ (f1 5 0).bufLen.toNat) ∧
    (machine secF1 false 0 0).ctrl.clone = false ∧
    ((machine [0, 0] true 0 0).ctrl.clone = true ∧ (machine [0, 0] true 0 0).bufLen.toNat < 3) ∧
    (tdt.ctrl.clone = true ∧ 3 ≤ tdt.bufLen.toNat ∧ tdt.holds 0 [0x70, 0x70, 0x05] ∧
      ¬sectionHasCrc tdt.build 0x70 0x70) ∧
    ((shortOf 3).holds 0 [0x00, 0xB0, 0x03] ∧ sectionHasCrc (shortOf 3).build 0x00 0xB0 ∧
      sectionLength (shortOf 3).build 0x00 0xB0 0x03 < 7) ∧
    ((shortOf 4).holds 0 [0x00, 0xB0, 0x04] ∧ sectionHasCrc (shortOf 4).build 0x00 0xB0 ∧
      (shortOf 4).bufLen.toNat < sectionLength (shortOf 4).build 0x00 0xB0 0x04) :=
  ⟨⟨rfl, by decide, f1_header 5 0, hasCrc_f1, by decide, by decide⟩, rfl, ⟨rfl, by decide⟩,
   ⟨rfl, by decide, tdt_header, noCrc_tdt⟩,
   ⟨holds_of (by decide), hasCrc_f1, by decide⟩, ⟨holds_of (by decide), hasCrc_f1, by decide⟩⟩

/-! ### Witnesses: the string decoders -/

theorem toy_ok : huffOk toyBuild = true := by decide +kernel

/-- The span of a machine is within BUFLEN and its code is well formed. -/
abbrev spanReady (s : State) : Prop := huffOk s.build = true ∧ s.arg0.toNat + s.arg1.toNat ≤ s.bufLen.toNat

theorem witness_HuffDecResult :
    (machine [0x50] true 0 1).holdsBits 0 (aBits 2 ++ [false, false]) ∧ huffOk (machine [0x50] true 0 1).build = true ∧
    (machine [0x50] true 0 1).arg0.toNat + (machine [0x50] true 0 1).arg1.toNat ≤
      (machine [0x50] true 0 1).bufLen.toNat ∧
    ∃ c, Chars toyBuild .c5 0 (aBits 2) (List.replicate 2 0x61) c ∧ ⟨[false, false], 0⟩ ∈ huffCode toyBuild .c5 c ∧
      (aBits 2 ++ [false, false]).length ≤ 8 := by
  obtain ⟨c, h⟩ := chars_a 2 0
  exact ⟨holdsBits_of (by decide), toy_ok, by decide, c, h, by change _ ∈ toyCode; decide, by decide⟩

/-- A character that is a literal. -/
theorem witness_HuffDecResult_literal :
    spanReady (machine [0xA8, 0x20] true 0 2) ∧
    (machine [0xA8, 0x20] true 0 2).holdsBits 0
      (([true, false, true] ++ [false, true, false, false, false, false, false, true] ++ []) ++ [false, false]) ∧
    Chars toyBuild .c5 0 ([true, false, true] ++ [false, true, false, false, false, false, false, true] ++ [])
      [0x41] (huffCtxNext toyBuild 0x41) :=
  ⟨⟨toy_ok, by decide⟩, holdsBits_of (by decide),
   .esc 0 [true, false, true] [false, true, false, false, false, false, false, true] [] [] _
     (by change _ ∈ toyCode; decide) rfl (.nil _)⟩

theorem witness_HuffDecErrors_bounds :
    huffOk (machine [0x55] true 1 1).build = true ∧
    (machine [0x55] true 1 1).bufLen.toNat < (machine [0x55] true 1 1).arg0.toNat + (machine [0x55] true 1 1).arg1.toNat :=
  ⟨toy_ok, by decide⟩

theorem witness_HuffDecErrors_between_words :
    spanReady (machine [0x55] true 0 1) ∧
    ∃ c, Chars toyBuild .c5 0 (aBits 4) (List.replicate 4 0x61) c ∧
      (machine [0x55] true 0 1).holdsBits 0 (aBits 4 ++ []) ∧
      (aBits 4 ++ []).length = 8 * (machine [0x55] true 0 1).arg1.toNat := by
  obtain ⟨c, h⟩ := chars_a 4 0
  exact ⟨⟨toy_ok, by decide⟩, c, h, holdsBits_of (by decide), by decide⟩

theorem witness_HuffDecErrors_inside_a_word :
    spanReady (machine [0x56] true 0 1) ∧
    ∃ c, Chars toyBuild .c5 0 (aBits 3) (List.replicate 3 0x61) c ∧
      (machine [0x56] true 0 1).holdsBits 0 (aBits 3 ++ [true, false]) ∧
      extendsToWord (huffCode toyBuild .c5 c) [true, false] = true ∧
      (aBits 3 ++ [true, false]).length = 8 * (machine [0x56] true 0 1).arg1.toNat := by
  obtain ⟨c, h⟩ := chars_a 3 0
  exact ⟨⟨toy_ok, by decide⟩, c, h, holdsBits_of (by decide), by change extendsToWord toyCode _ = _; decide, by decide⟩

theorem witness_HuffDecErrors_inside_a_literal :
    spanReady (machine [0xA0] true 0 1) ∧ Chars toyBuild .c5 0 [] [] 0 ∧
    (machine [0xA0] true 0 1).holdsBits 0 ([] ++ [true, false, true]) ∧
    ⟨[true, false, true], toyBuild.huffEsc⟩ ∈ huffCode toyBuild .c5 0 ∧
    8 * (machine [0xA0] true 0 1).arg1.toNat < ([] ++ [true, false, true]).length + toyBuild.huffLitBits :=
  ⟨⟨toy_ok, by decide⟩, .nil 0, holdsBits_of (by decide), by decide, by decide⟩

theorem witness_HuffDecErrors_bad_code :
    spanReady (machine [0xF0] true 0 1) ∧ Chars toyBuild .c5 0 [] [] 0 ∧
    (machine [0xF0] true 0 1).holdsBits 0 ([] ++ [true, true, true, true]) ∧
    extendsToWord (huffCode toyBuild .c5 0) [true, true, true] = true ∧
    lookupWord (huffCode toyBuild .c5 0) [true, true, true, true] = none ∧
    extendsToWord (huffCode toyBuild .c5 0) [true, true, true, true] = false :=
  ⟨⟨toy_ok, by decide⟩, .nil 0, holdsBits_of (by decide), by decide, by decide, by decide⟩

/-- 4097 characters in 1025 bytes. -/
theorem witness_HuffDecErrors_overflow :
    spanReady (machine (List.replicate 1025 0x55) true 0 1025) ∧
    ∃ c, Chars toyBuild .c5 0 (aBits 4097) (List.replicate 4097 0x61) c ∧
      (machine (List.replicate 1025 0x55) true 0 1025).holdsBits 0 (aBits 4097) ∧
      (aBits 4097).length ≤ 8 * 1025 ∧ (List.replicate 4097 (0x61 : Half)).length = 4097 := by
  obtain ⟨c, h⟩ := chars_a 4097 0
  have hl : 0 + 1025 ≤ (BitVec.ofNat 13 (List.replicate 1025 (0x55 : Byte)).length).toNat := by
    rw [List.length_replicate]; decide
  refine ⟨⟨toy_ok, hl⟩, c, h, ?_, by rw [aBits_length]; omega, List.length_replicate⟩
  have hb := State.holdsBits_of_holds _ _ _ (machine_holds (List.replicate 1025 0x55) true 0 1025)
  rw [bits_of_55, show 4 * 1025 = 4097 + 3 from rfl, aBits_add, State.holdsBits_append] at hb
  exact hb.1

theorem witness_IllFormedCodesAreRefused :
    ({ toyBuild with huffEnd := 0x1B }.huffEnd = { toyBuild with huffEnd := 0x1B }.huffEsc) ∧
    (let b : Build := { toyBuild with huffCode := ⟨⟨[], [⟨[false], 1⟩, ⟨[false, true], 2⟩]⟩, ⟨[], toyCode⟩⟩ }
     ⟨[false], 1⟩ ∈ huffCode b .c5 0 ∧ ⟨[false, true], 2⟩ ∈ huffCode b .c5 0 ∧
     [false] <+: [false, true] ∧ [false] ≠ [false, true]) := by decide

theorem witness_HuffDecEnds :
    huffOk (machine [0x55] true 0 1).build = true ∧ (machine [0x55] true 0 1).status.err = false ∧
    (machine [0x55] true 0 1).arg0.toNat + (machine [0x55] true 0 1).arg1.toNat ≤
      (machine [0x55] true 0 1).bufLen.toNat ∧
    ∀ k, k < (machine [0x55] true 0 1).arg1.toNat →
      ((machine [0x55] true 0 1).secBuf.get ((machine [0x55] true 0 1).arg0.toNat + k)).isSome = true :=
  ⟨toy_ok, by decide, by decide, by decide⟩

theorem witness_HuffDecIgnoresPadBits :
    ∃ u, exec .huffDecC5 (machine [0x66, 0xE3] true 0 2) = .next u ∧ (u.status.err = false ∧
      ∀ q, q < u.res1.toNat → Memory.bit (cells 0 [0x66, 0xE0]) (8 * (machine [0x66, 0xE3] true 0 2).arg0.toNat + q)
        = (machine [0x66, 0xE3] true 0 2).secBuf.bit (8 * (machine [0x66, 0xE3] true 0 2).arg0.toNat + q)) := by
  obtain ⟨u, h, hu⟩ := next_of (p := fun u => decide (u.status.err = false ∧
    ∀ q, q < u.res1.toNat → Memory.bit (cells 0 [0x66, 0xE0]) (8 * (machine [0x66, 0xE3] true 0 2).arg0.toNat + q)
      = (machine [0x66, 0xE3] true 0 2).secBuf.bit (8 * (machine [0x66, 0xE3] true 0 2).arg0.toNat + q)))
    (show after (exec .huffDecC5 (machine [0x66, 0xE3] true 0 2)) _ = _ by decide +kernel)
  exact ⟨u, h, of_decide_eq_true hu⟩

theorem witness_DvbTextResult :
    ((machine [] true 0 0).arg1.toNat = 0 ∧ (machine [] true 0 0).arg0.toNat ≤ (machine [] true 0 0).bufLen.toNat) ∧
    (let s := machine [0x20, 0x8A, 0x80, 0xFF] true 0 4
     s.bufLen.toNat ≤ 4096 ∧ s.arg0.toNat + s.arg1.toNat ≤ s.bufLen.toNat ∧
     s.holds s.arg0.toNat [0x20, 0x8A, 0x80, 0xFF] ∧
     Selects s.build [0x20, 0x8A, 0x80, 0xFF] (.iso .p1) [0x20, 0x8A, 0x80, 0xFF] ∧
     [0x20, 0x8A, 0x80, 0xFF].map (mapByte s.build.iso8859 .p1)
       = [some 0x20, some 0x0A, none, some (0xFF : Half)].map .ok) ∧
    (Selects toyBuild [0x01, 0x41] (.iso .p5) [0x41] ∧ Selects toyBuild [0x0B, 0x41] (.iso .p15) [0x41] ∧
     Selects toyBuild [0x10, 0x00, 0x01] (.iso .p1) [] ∧ Selects toyBuild [0x10, 0x00, 0x0F] (.iso .p15) []) ∧
    (let s := machine [0x11, 0xE0, 0x8A] true 0 3
     s.bufLen.toNat ≤ 4096 ∧ s.arg0.toNat + s.arg1.toNat ≤ s.bufLen.toNat ∧ s.holds s.arg0.toNat [0x11, 0xE0, 0x8A] ∧
     Selects s.build [0x11, 0xE0, 0x8A] .ucs2
       ([(0xE08A : Half)].flatMap fun u => [u.extractLsb' 8 8, u.extractLsb' 0 8])) :=
  ⟨by decide, ⟨by decide, by decide, holds_of (by decide), .noSelector _ _ (by decide), rfl⟩,
   ⟨.short _ _ _ (by decide) (by decide) (by decide) (by decide),
    .short _ _ _ (by decide) (by decide) (by decide) (by decide),
    .long _ _ _ (by decide) (by decide), .long _ _ _ (by decide) (by decide)⟩,
   ⟨by decide, by decide, holds_of (by decide), .ucs2 _⟩⟩

/-- A span of `n` bytes in bounds of which only the first bytes `sel` were ever written. -/
abbrev selectorOnly (sel : List Byte) (n : Nat) : State :=
  { machine sel true 0 (BitVec.ofNat 32 n) with bufLen := BitVec.ofNat 13 n }

/-- The span is in bounds and not empty. -/
abbrev textReady (s : State) : Prop := s.arg0.toNat + s.arg1.toNat ≤ s.bufLen.toNat ∧ 1 ≤ s.arg1.toNat

/-- Each error with nothing written behind the selector. -/
theorem witness_DvbTextErrors :
    (machine [0x41] true 0 2).bufLen.toNat < (machine [0x41] true 0 2).arg0.toNat + (machine [0x41] true 0 2).arg1.toNat ∧
    (∀ b0 ∈ [(0x00 : Byte), 0x08, 0x0C, 0x0F, 0x12, 0x1F], (selectorOnly [b0] 4).holds 0 [b0] ∧
      textReady (selectorOnly [b0] 4) ∧
      (b0.toNat = 0 ∨ b0.toNat = 8 ∨ (0x0C ≤ b0.toNat ∧ b0.toNat ≤ 0x0F) ∨ (0x12 ≤ b0.toNat ∧ b0.toNat ≤ 0x1F))) ∧
    (textReady (selectorOnly [0x10] 2) ∧ (selectorOnly [0x10] 2).holds 0 [0x10] ∧
      (selectorOnly [0x10] 2).arg1.toNat < 3) ∧
    (textReady (selectorOnly [0x10, 0x00, 0x0C] 4) ∧ 3 ≤ (selectorOnly [0x10, 0x00, 0x0C] 4).arg1.toNat ∧
      (selectorOnly [0x10, 0x00, 0x0C] 4).holds 0 [0x10, 0x00, 0x0C] ∧ (0x0C : Byte).toNat = 12 ∧
      (0x00 : Byte).toNat = 0 ∧ 15 < (0x10 : Byte).toNat ∧ (0x01 : Byte) ≠ 0) ∧
    (textReady (selectorOnly [0x11] 4) ∧ (selectorOnly [0x11] 4).holds 0 [0x11] ∧
      ((selectorOnly [0x11] 4).arg1.toNat - 1) % 2 = 1) := by
  refine ⟨by decide, fun b0 h => ⟨get_cells [b0] 0, ⟨Nat.le_refl 4, Nat.le_of_ble_eq_true rfl⟩, ?_⟩, ⟨by decide, holds_of (by decide), by decide⟩,
    ⟨by decide, by decide, holds_of (by decide), by decide⟩, by decide, holds_of (by decide), by decide⟩
  revert h; revert b0; decide

theorem witness_TextMappings :
    ((0x7F : Byte).toNat ≤ 0x7F ∧ 0x80 ≤ (0x80 : Byte).toNat ∧ (0x9F : Byte).toNat ≤ 0x9F ∧ (0x9F : Byte) ≠ 0x8A ∧
      isoTable toyBuild.iso8859 .p15 = some (upperOf 15) ∧ (0xFF : Byte).toNat = 0xA0 + (95 : Fin 96).val) ∧
    (0xE080 ≤ (0xE080 : Half).toNat ∧ (0xE09F : Half).toNat ≤ 0xE09F ∧ (0xE09F : Half) ≠ 0xE08A ∧
      (0xE07F : Half).toNat < 0xE080 ∧ 0xE09F < (0xE0A0 : Half).toNat) :=
  ⟨⟨by decide, by decide, by decide, by decide, rfl, by decide⟩, by decide⟩

/-! ### Witnesses: the whole machine -/

theorem witness_CommandFrame : ∃ t, exec .byteAt (f0 1 0) = .next t ∧ (t.res0 == 0xB0) = true := next_of (by decide)

/-- NOP meets every clause's premise. -/
theorem witness_ResultRegisterFrame :
    (∃ t, exec .nop (f0 1 0) = .next t ∧ t.status.done = true) ∧ Instr.nop ∈ [Instr.nop, .seekBit, .setCrc] ∧
    Instr.nop ∉ [Instr.sliceAt, .secHdr, .verifyCrc, .huffDecC5, .huffDecC7, .dvbText] ∧
    Instr.nop ≠ .seekBit ∧ (∀ w, Instr.nop ≠ .readBits w) :=
  ⟨next_of (p := fun t => t.status.done) (by decide), by decide, by decide, by decide, fun w h => by cases h⟩

theorem witness_SecBufFrame :
    (∃ t, exec .byteAt (f0 1 0) = .next t ∧ t.status.done = true) ∧
    ((∃ t, exec .setCrc (f1 5 0) = .next t ∧ t.status.done = true) ∧ (f1 5 0).trailerOffset = .ok 8) ∧
    ((∃ t, exec .setCrc (machine secF1 false 5 0) = .next t ∧ t.status.err = true) ∧
      ∀ off, (machine secF1 false 5 0).trailerOffset ≠ .ok off) :=
  ⟨next_of (p := fun t => t.status.done) (by decide),
   ⟨next_of (p := fun t => t.status.done) (by decide +kernel), rfl⟩,
   next_of (p := fun t => t.status.err) (by decide +kernel), fun off h => by cases h⟩

theorem witness_FailedCommandsArePrecise :
    ((f0 12 0).status.err = false ∧ ∃ t, exec .byteAt (f0 12 0) = .next t ∧ t.status.err = true) ∧
    ((machine [0x08] true 0 1).status.err = false ∧
      ∃ t, exec .dvbText (machine [0x08] true 0 1) = .next t ∧ t.status.err = true) :=
  ⟨⟨rfl, next_of (p := fun t => t.status.err) (by decide)⟩,
   rfl, next_of (p := fun t => t.status.err) (by decide +kernel)⟩

/-- A section whose bytes from `bytes.length` to `len` were never written. -/
abbrev partly (bytes : List Byte) (len : BitVec 13) (arg0 arg1 : Word) : State :=
  { machine bytes true arg0 arg1 with bufLen := len }

theorem witness_CommandStopsExactly :
    exec .byteAt (partly secF0 13 12 0) = .fault (.undefReadSecBuf 12) ∧
    exec .huffDecC5 { f0 0 0 with build := { toyBuild with huffEnd := 0x1B } } = .refused .huffCodeIllFormed ∧
    exec .dvbText { machine [0xA0] true 0 1 with build := { toyBuild with dvbDefault := .p12 } }
      = .refused (.isoTableAbsent .p12) ∧
    ({ f0 0 0 with build := { toyBuild with huffEnd := 0x1B } } : State).bufLen.toNat ≤ 4096 ∧
    (let s : State := { machine [0x41, 0xA0] true 0 2 with build := { toyBuild with dvbDefault := .p12 } }
     s.bufLen.toNat ≤ 4096 ∧ s.textWithoutTable) :=
  ⟨by rfl, by rfl, by rfl, by decide, by decide, by decide, [0x41], 0xA0, .noSelector _ _ (by decide),
   holds_of (by decide), by decide, by decide⟩

/-- The unwritten byte that stops each command of bytes, bits and sections. -/
theorem witness_CommandStopsExactly_reads :
    (partly secF0 13 12 0).bufLen.toNat ≤ 4096 ∧ (partly secF0 13 12 0).readsUnwritten .byteAt ∧
    (partly secF0 13 11 0).readsUnwritten .word16At ∧ (partly secF0 13 9 0).readsUnwritten .word32At ∧
    (partly secF0 13 95 0).readsUnwritten (.bitField 2) ∧
    ({ partly secF0 13 0 0 with curPos := 103 } : State).readsUnwritten (.readBits 1) ∧
    ({ partly secF0 13 0 0 with curPos := 72 } : State).readsUnwritten (.peekBits 32) ∧
    (partly [0, 0] 3 0 0).readsUnwritten .secHdr ∧ (partly [0, 0] 3 0 0).readsUnwritten .hasCrc ∧
    (partly [0, 0] 3 0 0).readsUnwritten .setCrc ∧ (partly secF0 13 0 13).readsUnwritten .calcCrc ∧
    (partly (secF0.take 11) 12 0 0).readsUnwritten .verifyCrc ∧
    (partly (secF0.take 7) 12 0 0).readsUnwritten .secCrc :=
  ⟨by decide, ⟨by decide, 0, by decide⟩, ⟨by decide, 1, by decide⟩, ⟨by decide, 3, by decide⟩,
   ⟨by decide, by decide, by decide, 1, by decide⟩, ⟨by decide, by decide, by decide, 0, by decide⟩,
   ⟨by decide, by decide, by decide, 31, by decide⟩, ⟨by decide, 2, by decide⟩, ⟨by decide, 2, by decide⟩,
   ⟨rfl, by decide, 2, by decide⟩, ⟨by decide, 12, by decide⟩,
   .inr ⟨0x00, 0xB0, 0x09, holds_of (by decide), hasCrc_f1, by decide, by decide, 11, by decide⟩,
   .inr ⟨0x00, 0xB0, 0x09, holds_of (by decide), hasCrc_f1, by decide, by decide, by decide, 7, by decide⟩⟩

/-- HUFFDEC at an unwritten bit: of a code word, between and inside, and of a literal. -/
theorem witness_CommandStopsExactly_huffDec :
    (partly [] 1 0 1).readsUnwritten .huffDecC5 ∧ (partly [0x56] 2 0 2).readsUnwritten .huffDecC5 ∧
    (partly [0xA0] 2 0 2).readsUnwritten .huffDecC7 := by
  obtain ⟨c, h⟩ := chars_a 3 0
  exact ⟨⟨toy_ok, by decide, [], [], [], 0, .nil 0, by decide, by simp, .inl ⟨.inl rfl, by decide, by decide⟩⟩,
    ⟨toy_ok, by decide, aBits 3, [true, false], _, c, h, by decide, holdsBits_of (by decide),
      .inl ⟨.inr (by change extendsToWord toyCode _ = _; decide), by decide, by decide⟩⟩,
    ⟨toy_ok, by decide, [], [true, false, true], [], 0, .nil 0, by decide, holdsBits_of (by decide),
      .inr ⟨by decide, by decide, 5, by decide⟩⟩⟩

/-- DVBTEXT at an unwritten byte: of a selector, and of the characters of a table and of UCS-2. -/
theorem witness_CommandStopsExactly_dvbText :
    (partly [] 1 0 1).readsUnwritten .dvbText ∧ (partly [0x10, 0x00] 3 0 3).readsUnwritten .dvbText ∧
    (partly [0x01, 0x41] 3 0 3).readsUnwritten .dvbText ∧ (partly [0x11, 0x80] 3 0 3).readsUnwritten .dvbText :=
  ⟨⟨by decide, .inl (by decide)⟩, ⟨by decide, .inr (.inl (by decide))⟩,
   ⟨by decide, .inr (.inr ⟨[0x01, 0x41], .iso .p5, [0x41],
      .short _ _ _ (by decide) (by decide) (by decide) (by decide), holds_of (by decide), by decide, by decide,
      by decide, by decide⟩)⟩,
   ⟨by decide, .inr (.inr ⟨[0x11, 0x80], .ucs2, [0x80], .ucs2 _, holds_of (by decide), by decide, by decide,
      by decide, by decide⟩)⟩⟩

theorem witness_ByteAndBitViewsAgree :
    (64 : Word).toNat = 8 * (f0 8 0).arg0.toNat ∧
    (∃ t, exec .byteAt (f0 8 0) = .next t ∧ (!t.status.err) = true) ∧
    (∃ t, exec .word16At (f0 8 0) = .next t ∧ (!t.status.err) = true) ∧
    (∃ t, exec .word32At (f0 8 0) = .next t ∧ (!t.status.err) = true) ∧
    ((72 : Word).toNat = 8 * (f0 9 0).arg0.toNat ∧
      (f0 9 0).bufLen.toNat < (f0 9 0).arg0.toNat + (32 : Byte).toNat / 8) ∧
    exec .byteAt { f0 12 0 with bufLen := 13 } = .fault (.undefReadSecBuf 12) :=
  ⟨by decide, next_of (by decide), next_of (by decide), next_of (by decide), by decide, by rfl⟩

theorem witness_ReadBitsSplit :
    ∃ t, exec (.readBits 4) { f0 0 0 with curPos := 64 } = .next t ∧ (!t.status.err &&
      decide (after (exec (.readBits 28) t) (fun u => u.status.err) = some false)) = true :=
  next_of (by decide +kernel)

theorem witness_PeekAgreesWithReadAndField :
    ∃ t, exec (.peekBits 32) { f0 0 0 with curPos := 64 } = .next t ∧ (!t.status.err) = true :=
  next_of (by decide +kernel)

theorem witness_SealThenVerify :
    (f1 0 0).ctrl.clone = true ∧ (f1 0 0).holds 0 [0x00, 0xB0, 0x09] ∧
    7 ≤ sectionLength (f1 0 0).build 0x00 0xB0 0x09 ∧
    ∃ t, exec .secCrc (f1 0 0) = .next t ∧ (!t.status.err) = true :=
  ⟨rfl, f1_header 0 0, by decide, next_of (by decide +kernel)⟩

/-- F1 (not sealed): the premises do not ask for a right trailer. -/
theorem witness_ResidueCheck :
    3 ≤ (f1 0 0).bufLen.toNat ∧ (f1 0 0).holds 0 [0x00, 0xB0, 0x09] ∧ sectionHasCrc (f1 0 0).build 0x00 0xB0 ∧
    4 ≤ sectionLength (f1 0 0).build 0x00 0xB0 0x09 ∧
    sectionLength (f1 0 0).build 0x00 0xB0 0x09 ≤ (f1 0 0).bufLen.toNat ∧
    (12 : Word).toNat = sectionLength (f1 0 0).build 0x00 0xB0 0x09 ∧
    (∀ a, a < sectionLength (f1 0 0).build 0x00 0xB0 0x09 → ((f1 0 0).secBuf.get a).isSome = true) :=
  ⟨by decide, f1_header 0 0, hasCrc_f1, by decide, by decide, by decide, by decide⟩

/-- A state with the inputs of `s`, and with everything else different. -/
abbrev sameInputs (s : State) : State :=
  { s with
    ctrl := { s.ctrl with ie := true }, status := ⟨true, false, false, true, .none⟩, res0 := 7, res1 := 8
    outLen := 1, errInfo := 9, secBuf := s.secBuf ++ [(100, 0x77)], outBuf := [0x41]
    schedule := [.engine], hostData := some 3 }

theorem witness_ExecReadsOnlyItsInputs :
    (∀ a, a < (f0 1 0).bufLen.toNat → (sameInputs (f0 1 0)).secBuf.get a = (f0 1 0).secBuf.get a) ∧
    ((∃ t, exec .setCrc (f0 1 0) = .next t ∧ t.status.done = true) ∧
      ∃ t, exec .setCrc (sameInputs (f0 1 0)) = .next t ∧ t.status.done = true) ∧
    ((∃ t, exec .byteAt (f0 12 0) = .next t ∧ t.status.err = true) ∧
      ∃ t, exec .byteAt (sameInputs (f0 12 0)) = .next t ∧ t.status.err = true) ∧
    (let s := machine [0x08] true 0 1
     (∃ t, exec .dvbText s = .next t ∧ t.status.err = true) ∧
       ∃ t, exec .dvbText (sameInputs s) = .next t ∧ t.status.err = true) ∧
    (exec .byteAt (partly secF0 13 12 0) = .fault (.undefReadSecBuf 12) ∧
      exec .byteAt (sameInputs (partly secF0 13 12 0)) = .fault (.undefReadSecBuf 12)) ∧
    (let s : State := { f0 0 0 with build := { toyBuild with huffEnd := 0x1B } }
     exec .huffDecC5 s = .refused .huffCodeIllFormed ∧ exec .huffDecC5 (sameInputs s) = .refused .huffCodeIllFormed) := by
  refine ⟨by decide, ⟨next_of (p := fun t => t.status.done) ?_, next_of (p := fun t => t.status.done) ?_⟩,
    ⟨next_of (p := fun t => t.status.err) ?_, next_of (p := fun t => t.status.err) ?_⟩,
    ⟨next_of (p := fun t => t.status.err) ?_, next_of (p := fun t => t.status.err) ?_⟩, ⟨by rfl, by rfl⟩, by rfl, by rfl⟩
  all_goals decide +kernel

/-- A dropped write, a CTRL write and a read while a command is pending. -/
abbrev someAccesses : List HostAccess :=
  [.write .b32 0x40000014 7, .write .b32 0x40000004 3, .read .b32 0x40000008]

theorem witness_PendingInputsAreLatched :
    (pending 1).unmarked ∧ (pending 1).status.busy = true ∧
    (∀ v, HostAccess.write .b32 ((pending 1).build.pseBase + 4) v ∈ someAccesses → v.getLsbD 31 = false) ∧
    ∃ u, runTurns someAccesses.length { pending 1 with schedule := someAccesses.map Turn.host } = .next u ∧
      u.status.ovr = true := by
  refine ⟨⟨rfl, rfl⟩, rfl, fun v h => ?_, next_of (p := fun t => t.status.ovr) (by decide +kernel)⟩
  simp [someAccesses, pending, State.startCommand, machine, State.powerOn, toyBuild] at h
  subst h
  rfl

theorem witness_ParametersNeverChange :
    ∃ t, step { f0 0 0 with schedule := [.powerOn] } = .next t ∧ (t.bufLen == 0) = true := next_of (by decide +kernel)

/-- A pending command over written bytes meets the invariant and takes a step. -/
theorem witness_StepKeepsInv :
    Inv (pending 1) ∧ ∃ t, step (pending 1) = .next t ∧ t.status.done = true :=
  ⟨⟨by decide, by decide, by decide, by decide, by decide, by decide, by decide, by decide, by decide, by decide⟩,
   next_of (p := fun t => t.status.done) (by decide)⟩

end Sys2Proof.Tests
end

section
/-! PROOF. The registers and the interrupt output (10_state.md): soft reset, the STATUS and BUFLEN writes, the writes the block ignores, and the level IRQ. -/

namespace Sys2Proof.Machine

/-! ### The register map -/

/-- The registers lie at the aligned offsets below 0x030 (R23). -/
theorem regAt_eq_some_bounds {off : Nat} {r : Reg} (h : regAt off = some r) : off < 0x030 ∧ off % 4 = 0 := by
  unfold regAt at h
  split at h <;> cases h <;> decide

/-- The offsets from 0x030 on name no register (R43). -/
theorem regAt_reserved {off : Nat} (h : 0x030 ≤ off) : regAt off = none :=
  Option.eq_none_iff_forall_ne_some.2 fun _ hr => Nat.not_lt.2 h (regAt_eq_some_bounds hr).1

/-- A 32-bit write at a register's offset is that register's write, whatever BUSY is. -/
theorem State.hostWrite_regAt (s : State) (v : Word) {off : Nat} {r : Reg} (h : regAt off = some r) :
    s.hostWrite .b32 off v = .ok (s.writeReg v r) := by
  obtain ⟨hlt, h4⟩ := regAt_eq_some_bounds h
  rw [s.hostWrite_register off v (by omega) h4]
  simp only [State.writeRegAt, h]

/-- A write at a reserved offset is ignored (R43). -/
theorem State.writeRegAt_reserved (s : State) (v : Word) {off : Nat} (h : 0x030 ≤ off) :
    s.writeRegAt off v = s := by
  simp only [State.writeRegAt, regAt_reserved h]

/-- A reserved offset reads 0 (R43). -/
theorem State.readRegAt_reserved (s : State) {off : Nat} (h : 0x030 ≤ off) : s.readRegAt off = 0 := by
  simp only [State.readRegAt, regAt_reserved h]

/-- A write at the offset of a read-only register is ignored (R24, R36 to R39). -/
theorem State.writeRegAt_readOnly (s : State) (v : Word) {off : Nat}
    (h : off ∈ [0x000, 0x01C, 0x020, 0x024, 0x028, 0x02C]) : s.writeRegAt off v = s := by
  simp only [List.mem_cons, List.not_mem_nil, or_false] at h
  obtain rfl | rfl | rfl | rfl | rfl | rfl := h <;> rfl

/-- An accepted write at a register offset whose register write changes nothing is ignored. -/
theorem State.hostWrite_ignored {s : State} {size : AccessSize} {off : Nat} {v : Word}
    (hl : accessLegal size off = true) (h : off < 0x1000) (hw : s.writeRegAt off v = s) :
    s.hostWrite size off v = .ok s := by
  obtain ⟨rfl, h4⟩ := (accessLegal_registers h).1 hl
  rw [s.hostWrite_register off v h h4, hw]

/-! ### Single registers -/

/-- After a soft reset every register reads as after power-on (R26). -/
@[simp] theorem State.softReset_readReg (s : State) (r : Reg) :
    s.softReset.readReg r = (State.powerOn s.build).readReg r := by
  cases r <;> rfl

/-- A CTRL write with bit 31 set is the soft reset, whatever BUSY is (R25). -/
theorem State.writeCtrl_softReset (s : State) {v : Word} (h : v.getLsbD 31 = true) :
    s.writeCtrl v = s.softReset := by
  simp [State.writeCtrl, h]

/-- A BUFLEN value up to 4096 is stored (R33). -/
theorem State.writeBufLen_fits (s : State) {v : Word} (h : v.toNat ≤ 4096) :
    s.writeBufLen v = { s with bufLen := v.setWidth 13 } :=
  if_pos h

/-- A BUFLEN value above 4096 is rejected (R33). -/
theorem State.writeBufLen_rejected (s : State) {v : Word} (h : 4096 < v.toNat) :
    s.writeBufLen v = { s with status := s.status.bufLenRejected, errInfo := v } :=
  if_neg (Nat.not_le.2 h)

/-- The 13 bits of BUFLEN hold every value up to 4096 (R33). -/
theorem toNat_setWidth_bufLen {v : Word} (h : v.toNat ≤ 4096) : (v.setWidth 13).toNat = v.toNat := by
  rw [BitVec.toNat_setWidth]
  omega

/-- A flag that a write of 1 clears (R31). -/
theorem and_not_eq_ite (flag bit : Bool) : (flag && !bit) = if bit then false else flag := by
  cases bit <;> simp

/-! ### The obligations -/

/-- Settles O10: the CTRL write is `State.softReset`, whose registers are those of power-on; its BUSY = 0 leaves the engine nothing pending. -/
theorem softResetKeepsBuffers : Obligations.SoftResetKeepsBuffers := by
  intro s v hv
  refine ⟨s.softReset, ?_, s.softReset_readReg, rfl, rfl, fun _ => rfl, rfl, State.engineTurn_idle rfl⟩
  rw [s.hostWrite_regAt v (r := .ctrl) rfl, State.writeReg, s.writeCtrl_softReset hv]

/-- Settles O13: the STATUS write is `State.acknowledge`, which changes only the three flags. -/
theorem statusWriteClearsFlags : Obligations.StatusWriteClearsFlags := by
  intro s v
  exact ⟨s.acknowledge v, s.hostWrite_regAt v (r := .status) rfl, rfl, rfl, rfl,
    and_not_eq_ite _ _, and_not_eq_ite _ _, and_not_eq_ite _ _⟩

/-- Settles O15, by the three cases of a BUFLEN write: stored, rejected, and dropped. -/
theorem bufLenWrite : Obligations.BufLenWrite := by
  intro s v
  have hw : s.hostWrite .b32 0x00C v = .ok (s.unlessBusy (s.writeBufLen v)) :=
    s.hostWrite_regAt v (r := .bufLen) rfl
  refine ⟨fun hb hv => ?_, fun hb hv => ?_, fun hb => ?_⟩
  · have hn := toNat_setWidth_bufLen hv
    refine ⟨{ s with bufLen := v.setWidth 13 }, ?_, rfl, hn, BitVec.eq_of_toNat_eq ?_⟩
    · rw [hw, State.unlessBusy_idle hb, s.writeBufLen_fits hv]
    · simp only [State.readReg, BitVec.toNat_setWidth]
      omega
  · rw [hw, State.unlessBusy_idle hb, s.writeBufLen_rejected hv]
    rfl
  · rw [hw, State.unlessBusy_busy hb]
    rfl

/-- Settles O17, by where the write falls: a read-only register, a reserved offset, or OUTBUF. -/
theorem ignoredHostWrites : Obligations.IgnoredHostWrites := by
  intro s size off v hl
  refine ⟨?_, fun ⟨hlo, hhi⟩ => ?_⟩
  · rintro (hro | ⟨hlo, hhi⟩ | hout)
    · have hlt : off < 0x1000 := by
        simp only [List.mem_cons, List.not_mem_nil, or_false] at hro
        omega
      exact State.hostWrite_ignored hl hlt (s.writeRegAt_readOnly v hro)
    · exact State.hostWrite_ignored hl hhi (s.writeRegAt_reserved v hlo)
    · exact s.hostWrite_output v hl hout
  · obtain ⟨rfl, h4⟩ := (accessLegal_registers hhi).1 hl
    rw [s.hostRead_register off hhi h4, s.readRegAt_reserved hlo]

/-- Settles O21: the level is read off CTRL.IE, DONE and ERR alone, and a command start clears the last two. -/
theorem interruptLevel : Obligations.InterruptLevel := by
  intro s
  refine ⟨?_, fun _ => rfl, fun v => ?_⟩
  · simp only [State.irq, Bool.and_eq_true, Bool.or_eq_true]
  · simp only [State.irq, State.startCommand_status, Status.started_done, Status.started_err, Bool.or_self,
      Bool.and_false]

end Sys2Proof.Machine
end

section
/-! PROOF. The opcode map (30_encoding.md): the decoder accepts exactly the words the encoder gives to well-formed commands. -/

namespace Sys2Proof

/-- The command matches the row of R93 with these OP and M columns. -/
def Instr.MatchesRow (i : Instr) (op m : Byte) : Prop :=
  i.WellFormed ∧ i.opcode = op ∧ i.modifier = m

/-! ### The three kinds of row -/

/-- A row whose M must be zero decodes only to its own command (R92). -/
theorem matchesRow_of_decodePlain {op m : Byte} {j i : Instr} (h : decodePlain op m j = .ok i)
    (hj : j.MatchesRow op 0) : i.MatchesRow op m := by
  unfold decodePlain at h
  split at h
  next hm => cases h; rwa [hm]
  next => cases h

/-- A row whose M is a width decodes only to its own command with that width, a legal one (R91). -/
theorem matchesRow_of_decodeWidth {op m : Byte} {mk : Byte → Instr} {i : Instr}
    (h : decodeWidth op m mk = .ok i) (hmk : widthLegal m = true → (mk m).MatchesRow op m) :
    i.MatchesRow op m := by
  unfold decodeWidth at h
  split at h
  next hw => cases h; exact hmk hw
  next => cases h

/-- The two HUFFDEC rows (R91, R202). -/
theorem matchesRow_of_decodeHuff {m : Byte} {i : Instr} (h : decodeHuff m = .ok i) :
    i.MatchesRow 0x20 m := by
  unfold decodeHuff at h
  split at h
  next hm => cases h; exact ⟨rfl, rfl, hm.symm⟩
  next =>
    split at h
    next hm => cases h; exact ⟨rfl, rfl, hm.symm⟩
    next => cases h

/-! ### The decoder and the encoder on the fields of a word -/

/-- What the opcode map accepts is a row of it, by the kind of the row that OP selects. -/
theorem matchesRow_of_decodeOp {op m : Byte} {i : Instr} (h : decodeOp op m = .ok i) : i.MatchesRow op m := by
  unfold decodeOp at h
  split at h
  -- The width rows 0x06, 0x08 and 0x09, HUFFDEC 0x20, and no row; every other row takes no modifier.
  case h_7 hop | h_9 hop | h_10 hop =>
    exact matchesRow_of_decodeWidth h fun hw => ⟨hw, BitVec.eq_of_toNat_eq hop.symm, rfl⟩
  case h_17 hop =>
    obtain rfl : op = 0x20 := BitVec.eq_of_toNat_eq hop
    exact matchesRow_of_decodeHuff h
  case h_19 => cases h
  all_goals
    rename_i hop
    exact matchesRow_of_decodePlain h ⟨rfl, BitVec.eq_of_toNat_eq hop.symm, rfl⟩

/-- The opcode map gives a well-formed command back from its columns; only a width has to be checked. -/
theorem decodeOp_opcode_modifier {i : Instr} (hi : i.WellFormed) : decodeOp i.opcode i.modifier = .ok i := by
  cases i
  case bitField w | readBits w | peekBits w => exact if_pos hi
  all_goals rfl

/-- The opcode map accepts OP and M exactly as the row of the command it answers (R93). -/
theorem decodeOp_eq_ok_iff {op m : Byte} {i : Instr} : decodeOp op m = .ok i ↔ i.MatchesRow op m := by
  refine ⟨matchesRow_of_decodeOp, ?_⟩
  rintro ⟨hi, rfl, rfl⟩
  exact decodeOp_opcode_modifier hi

/-- A word is a command's word iff its three fields are those of the command (R90). -/
theorem encode_eq_iff {i : Instr} {w : Word} :
    encode i = w ↔ zField w = 0 ∧ i.opcode = opField w ∧ i.modifier = mField w := by
  constructor
  · rintro rfl
    obtain ⟨hop, hm, hz⟩ := Laws.WordShape.of_command i
    exact ⟨hz, hop.symm, hm.symm⟩
  · rintro ⟨hz, hop, hm⟩
    rw [encode, commandWord, hop, hm, ← hz, ← eq_fields]

/-- The decoder answers a command exactly for that command's word, where the command is well formed (R95). -/
theorem decode_eq_ok_iff {w : Word} {i : Instr} : decode w = .ok i ↔ i.WellFormed ∧ encode i = w := by
  rw [encode_eq_iff]
  unfold decode
  split
  next hz => rw [decodeOp_eq_ok_iff, Instr.MatchesRow, and_iff_right hz]
  next hz => exact iff_of_false (by simp) fun ⟨_, hz', _⟩ => hz hz'

end Sys2Proof

namespace Sys2Proof.Machine

/-- Settles O2: the decoder accepts exactly the rows, so it rejects every other word, which then fails with ILLEGAL_CMD. -/
theorem legalWordsAreTheRows : Obligations.LegalWordsAreTheRows := by
  refine ⟨fun _ _ => decode_eq_ok_iff, fun w hrow => ?_⟩
  cases hd : decode w with
  | ok i => exact absurd ⟨i, decode_eq_ok_iff.1 hd⟩ hrow
  | error e => exact wordIllegal_of_decode hd

end Sys2Proof.Machine
end

section
/-! PROOF. The command lifecycle (40_lifecycle.md): the CMD write that starts a command, and NOP, the command that only completes. -/

namespace Sys2Proof.Machine

/-- A success that names no result leaves every field to its completion (R122). -/
@[simp] theorem State.write_nothing (s : State) : s.write {} = s := rfl

/-- NOP is a completion alone (R127). -/
theorem exec_nop (s : State) : exec .nop s = .next s.markDone := by
  have hexec : exec .nop s = s.complete (.ok {}) := exec_eq .nop s
  rw [hexec, State.complete_ok, State.write_nothing]

/-- Settles O11: while idle the CMD write is `State.startCommand`, whatever the word. -/
theorem cmdWriteStartsCommand : Obligations.CmdWriteStartsCommand := by
  intro s v hb
  have hw : s.hostWrite .b32 0x010 v = .ok (s.unlessBusy (s.startCommand v)) :=
    s.hostWrite_regAt v (r := .cmd) rfl
  rw [hw, State.unlessBusy_idle hb]
  rfl

/-- Settles O22: NOP's completion changes STATUS alone, and row 0x00 of the opcode map takes no modifier. -/
theorem nopWritesNothing : Obligations.NopWritesNothing :=
  ⟨exec_nop, plainCommand_of 0x00 .nop rfl fun _ => rfl⟩

end Sys2Proof.Machine
end

section
/-! PROOF. The commands of 41_cursor.md that read at an address in ARG0 or read nothing: the byte and bit views of SECBUF and their agreement, SLICEAT, ISCLONE and SEEKBIT. -/

namespace Sys2Proof.Machine

/-! ### Completion of a command that is no string command -/

/-- A success leaves what its Exec names and DONE (R122). -/
theorem exec_of_ok {i : Instr} {s t : State} {w : Writes} (hi : isStringCommand i = false)
    (h : s.commandExec i = .ok w) (ht : (s.write w).markDone = t) : exec i s = .next t := by
  rw [exec_eq, hi, h, ← ht]
  rfl

/-- An error changes STATUS and ERRINFO alone (R123). -/
theorem failsWith_of_raise {i : Instr} {s : State} {c : ErrCode} {info : Word} (hi : isStringCommand i = false)
    (h : s.commandExec i = raise c info) : FailsWith i s c info := by
  rw [FailsWith, exec_eq, hi, h]
  rfl

/-! ### Commands that answer a read in RES0 -/

/-- The Exec of a command that answers the value of a read in RES0, zero-extended. -/
def answerOf (r : Exec Nat) : Exec Writes := do
  let v ← r
  .ok { res0 := some (BitVec.ofNat 32 v) }

theorem commandExec_byteAt (s : State) : s.commandExec .byteAt = answerOf (s.memRead s.arg0.toNat 1) := rfl
theorem commandExec_word16At (s : State) : s.commandExec .word16At = answerOf (s.memRead s.arg0.toNat 2) := rfl
theorem commandExec_word32At (s : State) : s.commandExec .word32At = answerOf (s.memRead s.arg0.toNat 4) := rfl

theorem commandExec_bitField (s : State) {w : Byte} (hw : widthLegal w = true) :
    s.commandExec (.bitField w) = answerOf (s.bits s.arg0.toNat w.toNat) := by
  simp only [State.commandExec, State.bitFieldExec, State.checkWidth, hw, if_true, Exec.ok_bind]
  rfl

theorem answerOf_memRead_holds {s : State} {off : Nat} {bs : List Byte} {v : Word} (h : s.holds off bs)
    (hb : off + bs.length ≤ s.bufLen.toNat) (hv : BitVec.ofNat 32 (bigEndian bs) = v) :
    answerOf (s.memRead off bs.length) = .ok { res0 := some v } := by
  rw [State.memRead_holds h hb, ← hv]
  rfl

/-- ARG0 is the ERRINFO of a byte read at ARG0 past BUFLEN. -/
theorem answerOf_memRead_outOfBounds {s : State} {n : Nat} (hb : s.bufLen.toNat < s.arg0.toNat + n) :
    answerOf (s.memRead s.arg0.toNat n) = raise .outOfBounds s.arg0 := by
  rw [State.memRead_outOfBounds hb, BitVec.ofNat_toNat, BitVec.setWidth_eq]
  rfl

/-- BITFIELD past 8 * BUFLEN (R146). -/
theorem commandExec_bitField_outOfBounds {s : State} {w : Byte} (hw : widthLegal w = true)
    (hb : 8 * s.bufLen.toNat < s.arg0.toNat + w.toNat) :
    s.commandExec (.bitField w) = raise .outOfBounds s.arg0 := by
  rw [commandExec_bitField s hw, State.bits_outOfBounds hb, BitVec.ofNat_toNat, BitVec.setWidth_eq]
  rfl

/-! ### Big-endian values as words -/

/-- One more byte behind a value is a shift by 8 and the byte (R60). -/
theorem ofNat_mul_add_byte (a : Nat) (b : Byte) :
    BitVec.ofNat 32 (a * 256 + b.toNat) = (BitVec.ofNat 32 a <<< 8) ||| b.setWidth 32 := by
  rw [Nat.mul_comm a, show 256 * a + b.toNat = 2 ^ 8 * a ||| b.toNat from Nat.two_pow_add_eq_or_of_lt b.isLt a]
  apply BitVec.eq_of_getLsbD_eq
  intro i hi
  simp only [BitVec.getLsbD_or, BitVec.getLsbD_ofNat, BitVec.getLsbD_shiftLeft, BitVec.getLsbD_setWidth,
    Nat.testBit_or, Nat.testBit_two_pow_mul, BitVec.testBit_toNat, hi, decide_true, Bool.true_and]
  grind

theorem bigEndian_one (b : Byte) : BitVec.ofNat 32 (bigEndian [b]) = b.setWidth 32 := by
  simp [bigEndian]

theorem bigEndian_two (b0 b1 : Byte) :
    BitVec.ofNat 32 (bigEndian [b0, b1]) = (b0.setWidth 32 <<< 8) ||| b1.setWidth 32 := by
  simp only [bigEndian, List.foldl_cons, List.foldl_nil, ofNat_mul_add_byte]
  simp

theorem bigEndian_four (b0 b1 b2 b3 : Byte) :
    BitVec.ofNat 32 (bigEndian [b0, b1, b2, b3]) =
      (b0.setWidth 32 <<< 24) ||| (b1.setWidth 32 <<< 16) ||| (b2.setWidth 32 <<< 8) ||| b3.setWidth 32 := by
  simp only [bigEndian, List.foldl_cons, List.foldl_nil, ofNat_mul_add_byte, BitVec.shiftLeft_or_distrib,
    ← BitVec.shiftLeft_add]
  simp

/-! ### The byte and bit views of SECBUF (R151) -/

/-- In bounds, Bits at 8 * off of width 8n is MemRead of n bytes at off, UNDEF_READ included (R11, R151). -/
theorem State.bits_eq_memRead {s : State} {off n : Nat} (hb : off + n ≤ s.bufLen.toNat) :
    s.bits (8 * off) (8 * n) = s.memRead off n := by
  rcases s.memRead_cases off n with ⟨-, bs, rfl, hh, hr⟩ | ⟨hn, -⟩ | ⟨-, k, hk, hnone, hbelow, hr⟩
  · rw [hr, State.bits_of_bytes hh hb]
  · omega
  · have hbit : s.secBuf.bit (8 * off + 8 * k) = none :=
      Memory.bit_eq_none.2 (by rwa [show (8 * off + 8 * k) / 8 = off + k by omega])
    rcases s.bits_cases (8 * off) (8 * n) with ⟨-, bs, hl, hh, -⟩ | ⟨hn, -⟩ | ⟨-, j, hj, hjnone, hjbelow, hr'⟩
    · exact absurd hbit (State.holdsBits_bit hh (by omega))
    · omega
    · have hget : s.secBuf.get (off + j / 8) = none := by
        rw [← Memory.bit_eq_none.1 hjnone, show (8 * off + j) / 8 = off + j / 8 by omega]
      have hle : ¬ j / 8 < k := fun h => by simpa [hget] using hbelow _ h
      have hge : ¬ 8 * k < j := fun h => by simpa [hbit] using hjbelow _ h
      rw [hr, hr', show (8 * off + j) / 8 = off + k by omega]

/-- The command answers the `n` bytes at ARG0, and `w` is the width of the bit field they are (R151). -/
structure ReadsBytes (i : Instr) (w : Byte) (n : Nat) : Prop where
  notString : isStringCommand i = false
  legal : widthLegal w = true
  width : w.toNat = 8 * n
  exec_eq : ∀ s : State, s.commandExec i = answerOf (s.memRead s.arg0.toNat n)

theorem readsBytes_of_mem {i : Instr} {w : Byte}
    (h : (i, w) ∈ [(Instr.byteAt, (8 : Byte)), (.word16At, 16), (.word32At, 32)]) : ∃ n, ReadsBytes i w n := by
  simp only [List.mem_cons, Prod.mk.injEq, List.not_mem_nil, or_false] at h
  obtain ⟨rfl, rfl⟩ | ⟨rfl, rfl⟩ | ⟨rfl, rfl⟩ := h
  · exact ⟨1, rfl, rfl, rfl, commandExec_byteAt⟩
  · exact ⟨2, rfl, rfl, rfl, commandExec_word16At⟩
  · exact ⟨4, rfl, rfl, rfl, commandExec_word32At⟩

/-- In bounds, a byte read and BITFIELD at the same place have one Exec (R151). -/
theorem commandExec_bitField_eq {i : Instr} {w : Byte} {n : Nat} (h : ReadsBytes i w n) {s : State} {p : Word}
    (hp : p.toNat = 8 * s.arg0.toNat) (hb : s.arg0.toNat + n ≤ s.bufLen.toNat) :
    State.commandExec { s with arg0 := p } (.bitField w) = s.commandExec i := by
  have hbits : State.bits { s with arg0 := p } = s.bits := State.bits_of_eq rfl rfl
  rw [h.exec_eq, commandExec_bitField _ h.legal, hbits, hp, h.width, State.bits_eq_memRead hb]

/-- Past BUFLEN, a byte read and BITFIELD at the same place are both OUT_OF_BOUNDS, each with its own ARG0 (R151). -/
theorem commandExec_outOfBounds_both {i : Instr} {w : Byte} {n : Nat} (h : ReadsBytes i w n) {s : State} {p : Word}
    (hp : p.toNat = 8 * s.arg0.toNat) (hb : s.bufLen.toNat < s.arg0.toNat + n) :
    s.commandExec i = raise .outOfBounds s.arg0 ∧
      State.commandExec { s with arg0 := p } (.bitField w) = raise .outOfBounds p := by
  have hbits : 8 * s.bufLen.toNat < p.toNat + w.toNat := by
    rw [hp, h.width]
    omega
  exact ⟨(h.exec_eq s).trans (answerOf_memRead_outOfBounds hb), commandExec_bitField_outOfBounds h.legal hbits⟩

/-! ### The obligations -/

/-- Settles O27: the field is the value of the bits there, and row 0x06 of the opcode map takes a width. -/
theorem bitFieldResult : Obligations.BitFieldResult := by
  refine ⟨fun s w h1 h32 hb hw => ?_, fun s w h1 h32 hb => ?_, widthCommand_of 0x06 .bitField fun _ => rfl⟩
  · obtain ⟨bs, hl, hbits⟩ := s.holdsBits_of_written w.toNat s.arg0.toNat hw
    have hexec : s.commandExec (.bitField w) = .ok { res0 := some (BitVec.ofNat 32 (bitsValue bs)) } := by
      rw [commandExec_bitField s (widthLegal_of h1 h32), ← hl, State.bits_holds hbits (by omega)]
      rfl
    exact ⟨_, hl ▸ State.isField_of_holdsBits hbits (by omega), exec_of_ok rfl hexec rfl⟩
  · exact failsWith_of_raise rfl (commandExec_bitField_outOfBounds (widthLegal_of h1 h32) hb)

/-- Settles O51: in bounds the two commands have one Exec, and past BUFLEN both are OUT_OF_BOUNDS. -/
theorem byteAndBitViewsAgree : Obligations.ByteAndBitViewsAgree := by
  intro s p hp i w hiw
  obtain ⟨n, hview⟩ := readsBytes_of_mem hiw
  rw [show w.toNat / 8 = n by rw [hview.width]; omega]
  by_cases hb : s.arg0.toNat + n ≤ s.bufLen.toNat
  · have heq := commandExec_bitField_eq hview hp hb
    refine ⟨fun t ht herr => ?_, fun hout => by omega, fun f => ?_⟩
    · obtain ⟨wr, hok, rfl⟩ := exec_success ht herr
      exact exec_of_ok rfl (heq.trans hok) rfl
    · rw [exec_eq_fault, exec_eq_fault, heq]
  · obtain ⟨hbyte, hbit⟩ := commandExec_outOfBounds_both hview hp (Nat.not_le.1 hb)
    refine ⟨fun t ht herr => ?_,
      fun _ => ⟨failsWith_of_raise hview.notString hbyte, failsWith_of_raise rfl hbit⟩, fun f => ?_⟩
    · obtain ⟨wr, hok, -⟩ := exec_success ht herr
      cases hbyte.symm.trans hok
    · rw [exec_eq_fault, exec_eq_fault, hbyte, hbit]
      exact iff_of_false nofun nofun

/-- Settles O23, by the three cases of a one-byte read; row 0x01 of the opcode map takes no modifier. -/
theorem byteAtResult : Obligations.ByteAtResult := by
  refine ⟨fun s b hb hh => ?_, fun s hb => ?_, fun s hb hn => ?_, plainCommand_of 0x01 .byteAt rfl fun _ => rfl⟩
  · exact exec_of_ok rfl (answerOf_memRead_holds hh hb (bigEndian_one b)) rfl
  · exact failsWith_of_raise rfl (answerOf_memRead_outOfBounds hb)
  · rw [exec_eq_fault, commandExec_byteAt, State.memRead_one_unwritten hn hb]
    rfl

/-- Settles O24: both reads answer the big-endian value of their bytes; rows 0x02 and 0x03 take no modifier. -/
theorem wordReadResults : Obligations.WordReadResults := by
  refine ⟨fun s b0 b1 hb hh => ?_, fun s hb => ?_, plainCommand_of 0x02 .word16At rfl fun _ => rfl,
    fun s b0 b1 b2 b3 hb hh => ?_, fun s hb => ?_, plainCommand_of 0x03 .word32At rfl fun _ => rfl⟩
  · exact exec_of_ok rfl (answerOf_memRead_holds hh hb (bigEndian_two b0 b1)) rfl
  · exact failsWith_of_raise rfl (answerOf_memRead_outOfBounds hb)
  · exact exec_of_ok rfl (answerOf_memRead_holds hh hb (bigEndian_four b0 b1 b2 b3)) rfl
  · exact failsWith_of_raise rfl (answerOf_memRead_outOfBounds hb)

/-- Settles O25: SLICEAT's one decision is the exact bounds check; row 0x04 takes no modifier. -/
theorem sliceAtResult : Obligations.SliceAtResult := by
  refine ⟨fun s hb => ?_, fun s hb => ?_, plainCommand_of 0x04 .sliceAt rfl fun _ => rfl⟩
  · exact exec_of_ok rfl (if_pos (decide_eq_true hb)) rfl
  · exact failsWith_of_raise rfl (if_neg (by simpa [State.bytesInBounds] using hb))

/-- Settles O26: ISCLONE has no failing path; row 0x05 takes no modifier. -/
theorem isCloneResult : Obligations.IsCloneResult :=
  ⟨fun _ => exec_of_ok rfl rfl rfl, plainCommand_of 0x05 .isClone rfl fun _ => rfl⟩

/-- Settles O28: a bit address up to 8 * BUFLEN fits the 16 bits of CURPOS; row 0x07 takes no modifier. -/
theorem seekBitResult : Obligations.SeekBitResult := by
  refine ⟨fun s hb => ?_, fun s hb => ?_, plainCommand_of 0x07 .seekBit rfl fun _ => rfl⟩
  · have hlen := s.bufLen.isLt
    refine ⟨BitVec.ofNat 16 s.arg0.toNat, exec_of_ok rfl (if_pos (decide_eq_true hb)) rfl, ?_⟩
    rw [BitVec.toNat_ofNat, Nat.mod_eq_of_lt (by omega)]
  · exact failsWith_of_raise rfl (if_neg (by simpa [State.bitsInBounds] using hb))

end Sys2Proof.Machine
end

section
/-! PROOF. The section validator (42_crc.md): the CRC in closed form and its residue, the six commands on a header, and what a sealed section answers. -/

namespace Sys2Proof.Machine

/-! ### The CRC (R171) -/

/-- The CRC of a message differs from the shifted message and seed by a multiple of P (R171). -/
theorem bitPoly_crcOf (m : List Byte) : ∃ k,
    bitPoly (msbFirst (crcOf m)) = Polynomial.X ^ 32 * bitPoly (m.flatMap msbFirst) +
      Polynomial.X ^ (8 * m.length) * bitPoly (msbFirst Config.crcSeed) + crcPolynomial * k := by
  obtain ⟨hbits, hlen⟩ := crcByte_bits m Config.crcSeed
  rw [crcOf, hbits, ← hlen]
  exact bitPoly_crcBits _ _

/-- A word is reduced by P. -/
theorem bitPoly_word_degree (c : Word) : (bitPoly (msbFirst c)).degree < crcPolynomial.degree := by
  rw [crcPolynomial_degree, bitPoly_msbFirst]
  exact wordPoly_degree 32 _

/-- The CRC of a message is a remainder by P (R171). -/
theorem bitPoly_crcOf_eq_modByMonic (m : List Byte) :
    bitPoly (msbFirst (crcOf m)) = Polynomial.modByMonic
      (Polynomial.X ^ 32 * bitPoly (m.flatMap msbFirst) +
        Polynomial.X ^ (8 * m.length) * bitPoly (msbFirst Config.crcSeed)) crcPolynomial := by
  obtain ⟨k, hk⟩ := bitPoly_crcOf m
  have hsum : bitPoly (msbFirst (crcOf m)) + crcPolynomial * -k = Polynomial.X ^ 32 * bitPoly (m.flatMap msbFirst) +
      Polynomial.X ^ (8 * m.length) * bitPoly (msbFirst Config.crcSeed) := by
    rw [hk]
    ring
  obtain ⟨-, hrem⟩ := Polynomial.div_modByMonic_unique _ _ crcPolynomial_monic ⟨hsum, bitPoly_word_degree _⟩
  exact hrem.symm

/-- Idle steps are injective and keep 0, so only 0 ends at 0. -/
theorem crcIdle_eq_zero_iff (n : Nat) (c : Word) : crcIdle n c = 0 ↔ c = 0 :=
  ⟨fun h => crcIdle_injective n (h.trans (crcIdle_zero n).symm), fun h => h ▸ crcIdle_zero n⟩

/-- A message with a word after it has CRC 0 iff the word is its CRC (R171). -/
theorem crcOf_append_word_eq_zero_iff (m : List Byte) (t : Word) : crcOf (m ++ wordBytes t) = 0 ↔ t = crcOf m := by
  rw [crcOf_append_word, crcIdle_eq_zero_iff]
  exact BitVec.xor_eq_zero_iff.trans eq_comm

/-! ### The header (R172 to R174) -/

theorem hasTrailer_of_hasCrc {b : Build} {b0 b1 : Byte} (h : sectionHasCrc b b0 b1) (b2 : Byte) :
    hasTrailer b (Header.ofBytes b0 b1 b2) = true :=
  (hasTrailer_iff b b0 b1 b2).2 h

theorem hasTrailer_of_not_hasCrc {b : Build} {b0 b1 : Byte} (h : ¬sectionHasCrc b b0 b1) (b2 : Byte) :
    hasTrailer b (Header.ofBytes b0 b1 b2) = false :=
  Bool.eq_false_iff.2 (mt (hasTrailer_iff b b0 b1 b2).1 h)

/-- A command that reads the header first fails where BUFLEN has no room for one (R172). -/
theorem failsWith_of_short_header {i : Instr} {s : State} {f : Header → Exec Writes} (hi : isStringCommand i = false)
    (h : s.commandExec i = s.readHdr >>= f) (hb : s.bufLen.toNat < 3) : FailsWith i s .outOfBounds 0 :=
  failsWith_of_raise hi (by rw [h, State.readHdr_short hb, Exec.raise_bind])

/-- BAD_SECTION_LENGTH names the length where 32 bits hold it (log entry 10). -/
theorem failsWith_badSectionLength {i : Instr} {s : State} {n : Nat} (hi : isStringCommand i = false)
    (h : s.commandExec i = raise .badSectionLength (infoWord n)) :
    ∃ info, FailsWith i s .badSectionLength info ∧ (n < 2 ^ 32 → info = BitVec.ofNat 32 n) :=
  ⟨infoWord n, failsWith_of_raise hi h, infoWord_of_lt⟩

section
variable {s : State} {b0 b1 b2 : Byte} (hr : s.readHdr = .ok (Header.ofBytes b0 b1 b2))
include hr

theorem commandExec_secHdr_fits (hl : sectionLength s.build b0 b1 b2 ≤ s.bufLen.toNat) :
    s.commandExec .secHdr = .ok
      { res0 := some (BitVec.ofNat 32 (sectionLength s.build b0 b1 b2))
        res1 := some (headerWord s.build (Header.ofBytes b0 b1 b2)) } := by
  simp only [State.commandExec, State.secHdrExec, hr, Exec.ok_bind, physLen_eq]
  exact if_neg (Nat.not_lt.2 hl)

theorem commandExec_secHdr_badLength (hl : s.bufLen.toNat < sectionLength s.build b0 b1 b2) :
    s.commandExec .secHdr = raise .badSectionLength (infoWord (sectionLength s.build b0 b1 b2)) := by
  simp only [State.commandExec, State.secHdrExec, hr, Exec.ok_bind, physLen_eq]
  exact if_pos hl

theorem commandExec_hasCrc :
    s.commandExec .hasCrc = .ok { res0 := some (Word.ofBit (hasTrailer s.build (Header.ofBytes b0 b1 b2))) } := by
  simp only [State.commandExec, State.hasCrcExec, hr, Exec.ok_bind]

end

/-! ### The checks that VERIFYCRC, SECCRC and SETCRC share -/

/-- What a command on the trailer does: it reads the header, goes on with `without` where there is no trailer, checks L against BUFLEN and `least`, and goes on with `within` (R176, R179, R180). -/
def State.checkTrailer {α : Type} (s : State) (least : Nat) (without : Header → Exec α) (within : Nat → Exec α) :
    Exec α := do
  let h ← s.readHdr
  if hasTrailer s.build h then
    if s.extent < physLen s.build h ∨ physLen s.build h < least then
      raise .badSectionLength (infoWord (physLen s.build h))
    else within (physLen s.build h)
  else without h

/-- VERIFYCRC on a section of length `len` with a trailer (R176). -/
def State.compareTrailer (s : State) (len : Nat) : Exec Writes := do
  let c ← s.crc 0 (len - 4)
  let t ← s.memRead (len - 4) 4
  .ok { res0 := some (Word.ofBit (c == BitVec.ofNat 32 t)), res1 := some c }

/-- SECCRC on a section of length `len` with a trailer (R179). -/
def State.answerCrc (s : State) (len : Nat) : Exec Writes := do
  let c ← s.crc 0 (len - 4)
  .ok { res0 := some c }

/-- The stop of SECCRC and SETCRC where there is no trailer (R179, R180). -/
def noTrailer {α : Type} (h : Header) : Exec α := raise .noCrcTrailer (h.tid.setWidth 32)

theorem commandExec_verifyCrc (s : State) : s.commandExec .verifyCrc =
    s.checkTrailer 4 (fun _ => .ok { res0 := some 1, res1 := some 0 }) s.compareTrailer := rfl

theorem commandExec_secCrc (s : State) : s.commandExec .secCrc = s.checkTrailer 4 noTrailer s.answerCrc := rfl

theorem State.trailerOffset_owned {s : State} (hown : s.ctrl.clone = true) :
    s.trailerOffset = s.checkTrailer 7 noTrailer fun len => .ok (len - 4) :=
  if_pos hown

theorem State.trailerOffset_shared {s : State} (hown : s.ctrl.clone = false) : s.trailerOffset = raise .readOnly 0 :=
  if_neg (by simp [hown])

section
variable {α : Type} {s : State} {least : Nat} {without : Header → Exec α} {within : Nat → Exec α}

theorem State.checkTrailer_short (hb : s.bufLen.toNat < 3) :
    s.checkTrailer least without within = raise .outOfBounds 0 := by
  rw [State.checkTrailer, State.readHdr_short hb, Exec.raise_bind]

variable {b0 b1 b2 : Byte} (hr : s.readHdr = .ok (Header.ofBytes b0 b1 b2))
include hr

theorem State.checkTrailer_without (hc : ¬sectionHasCrc s.build b0 b1) :
    s.checkTrailer least without within = without (Header.ofBytes b0 b1 b2) := by
  simp only [State.checkTrailer, hr, Exec.ok_bind, hasTrailer_of_not_hasCrc hc, Bool.false_eq_true, if_false]

theorem State.checkTrailer_badLength (hc : sectionHasCrc s.build b0 b1)
    (hl : s.bufLen.toNat < sectionLength s.build b0 b1 b2 ∨ sectionLength s.build b0 b1 b2 < least) :
    s.checkTrailer least without within = raise .badSectionLength (infoWord (sectionLength s.build b0 b1 b2)) := by
  simp only [State.checkTrailer, hr, Exec.ok_bind, hasTrailer_of_hasCrc hc, physLen_eq, if_true]
  exact if_pos hl

theorem State.checkTrailer_within (hc : sectionHasCrc s.build b0 b1) (hleast : least ≤ sectionLength s.build b0 b1 b2)
    (hl : sectionLength s.build b0 b1 b2 ≤ s.bufLen.toNat) :
    s.checkTrailer least without within = within (sectionLength s.build b0 b1 b2) := by
  simp only [State.checkTrailer, hr, Exec.ok_bind, hasTrailer_of_hasCrc hc, physLen_eq, if_true]
  exact if_neg (not_or.2 ⟨Nat.not_lt.2 hl, Nat.not_lt.2 hleast⟩)

end

/-- Where the command answers, no check has stopped it: the section has a trailer and a good length, and `within` answered. -/
theorem State.within_of_checkTrailer {α : Type} {s : State} {least : Nat} {within : Nat → Exec α} {a : α}
    {b0 b1 b2 : Byte} (hh : s.holds 0 [b0, b1, b2]) (h : s.checkTrailer least noTrailer within = .ok a) :
    sectionHasCrc s.build b0 b1 ∧ least ≤ sectionLength s.build b0 b1 b2 ∧
      sectionLength s.build b0 b1 b2 ≤ s.bufLen.toNat ∧ within (sectionLength s.build b0 b1 b2) = .ok a := by
  have hb : 3 ≤ s.bufLen.toNat := by
    by_contra hlt
    cases (State.checkTrailer_short (Nat.not_le.1 hlt)).symm.trans h
  have hr := State.readHdr_holds hh hb
  have hc : sectionHasCrc s.build b0 b1 := by
    by_contra hn
    cases (State.checkTrailer_without hr hn).symm.trans h
  have hl : ¬(s.bufLen.toNat < sectionLength s.build b0 b1 b2 ∨ sectionLength s.build b0 b1 b2 < least) := fun hn => by
    cases (State.checkTrailer_badLength hr hc hn).symm.trans h
  obtain ⟨hfits, hleast⟩ := not_or.1 hl
  rw [Nat.not_lt] at hfits hleast
  exact ⟨hc, hleast, hfits, (State.checkTrailer_within hr hc hleast hfits).symm.trans h⟩

/-! ### A section with its trailer in bounds -/

/-- The section in the buffer has a trailer in bounds after the written bytes `body`; the trailer may be unwritten. -/
structure State.TrailerAfter (s : State) (b0 b1 b2 : Byte) (body : List Byte) : Prop where
  header : s.holds 0 [b0, b1, b2]
  hasCrc : sectionHasCrc s.build b0 b1
  length : sectionLength s.build b0 b1 b2 = body.length + 4
  fits   : body.length + 4 ≤ s.bufLen.toNat
  held   : s.holds 0 body

section
variable {s : State} {b0 b1 b2 : Byte} {body : List Byte}

theorem State.TrailerAfter.readHdr (h : s.TrailerAfter b0 b1 b2 body) : s.readHdr = .ok (Header.ofBytes b0 b1 b2) :=
  State.readHdr_holds h.header (by have := h.fits; omega)

/-- The CRC of the bytes before the trailer. -/
theorem State.TrailerAfter.crc (h : s.TrailerAfter b0 b1 b2 body) : s.crc 0 body.length = .ok (crcOf body) :=
  State.crc_holds h.held (by have := h.fits; omega)

/-- The checks pass, and the command goes on with L. -/
theorem State.TrailerAfter.checkTrailer {α : Type} {least : Nat} {without : Header → Exec α} {within : Nat → Exec α}
    (h : s.TrailerAfter b0 b1 b2 body) (hleast : least ≤ body.length + 4) :
    s.checkTrailer least without within = within (body.length + 4) := by
  rw [← h.length] at hleast ⊢
  exact State.checkTrailer_within h.readHdr h.hasCrc hleast (h.length ▸ h.fits)

/-- SECCRC reads no byte of the trailer (R179). -/
theorem commandExec_secCrc_ok (h : s.TrailerAfter b0 b1 b2 body) :
    s.commandExec .secCrc = .ok { res0 := some (crcOf body) } := by
  rw [commandExec_secCrc, h.checkTrailer (Nat.le_add_left _ _)]
  simp only [State.answerCrc, Nat.add_sub_cancel, h.crc, Exec.ok_bind]

/-- VERIFYCRC compares the CRC with the trailer (R176). -/
theorem commandExec_verifyCrc_ok {t : Word} (h : s.TrailerAfter b0 b1 b2 body)
    (ht : s.holds body.length (wordBytes t)) :
    s.commandExec .verifyCrc =
      .ok { res0 := some (if crcOf body = t then 1 else 0), res1 := some (crcOf body) } := by
  have htrailer : s.memRead body.length 4 = .ok (bigEndian (wordBytes t)) := State.memRead_holds ht h.fits
  rw [commandExec_verifyCrc, h.checkTrailer (Nat.le_add_left _ _)]
  simp only [State.compareTrailer, Nat.add_sub_cancel, h.crc, Exec.ok_bind, htrailer, bigEndian_wordBytes, Word.ofBit,
    beq_iff_eq]

/-- Where SECCRC succeeds, the section has its trailer in bounds and RES0 is the CRC of the bytes before it (R179). -/
theorem trailerAfter_of_secCrc {w : Writes} (hh : s.holds 0 [b0, b1, b2]) (h : s.commandExec .secCrc = .ok w) :
    ∃ body, s.TrailerAfter b0 b1 b2 body ∧ w = { res0 := some (crcOf body) } := by
  rw [commandExec_secCrc] at h
  obtain ⟨hc, h4, hl, hanswer⟩ := State.within_of_checkTrailer hh h
  rw [State.answerCrc] at hanswer
  obtain ⟨c, hcrc, hw⟩ := Exec.bind_eq_ok.1 hanswer
  cases hw
  rcases s.crc_cases 0 (sectionLength s.build b0 b1 b2 - 4) with
    ⟨-, body, hlen, hbody, hok⟩ | ⟨-, herr⟩ | ⟨-, k, -, -, herr⟩
  · cases hok.symm.trans hcrc
    exact ⟨body, ⟨hh, hc, by omega, by omega, hbody⟩, rfl⟩
  · cases herr.symm.trans hcrc
  · cases herr.symm.trans hcrc

end

/-! ### SETCRC (R180) -/

section
variable {s : State}

theorem commandExec_setCrc_ok {off : Nat} (h : s.trailerOffset = .ok off) :
    s.commandExec .setCrc = .ok { trailer := some (off, s.arg0) } := by
  simp only [State.commandExec, State.setCrcExec, h, Exec.ok_bind]

theorem commandExec_setCrc_raise {c : ErrCode} {info : Word} (h : s.trailerOffset = raise c info) :
    s.commandExec .setCrc = raise c info := by
  simp only [State.commandExec, State.setCrcExec, h, Exec.raise_bind]

end

/-- SETCRC's success stores ARG0 at the trailer's offset (R180). -/
theorem exec_setCrc_ok {s : State} {off : Nat} (h : s.trailerOffset = .ok off) :
    exec .setCrc s = .next { s with
      secBuf := s.secBuf.writeBE 4 off s.arg0.toNat, status := doneStatus s.status } :=
  exec_of_ok rfl (commandExec_setCrc_ok h) rfl

/-! ### A sealed section (R181) -/

section
variable {s u : State} {b0 b1 b2 : Byte} {body : List Byte}

/-- SETCRC stores its trailer behind the body. -/
theorem State.TrailerAfter.trailerOffset (h : s.TrailerAfter b0 b1 b2 body) (hown : s.ctrl.clone = true)
    (h3 : 3 ≤ body.length) : s.trailerOffset = .ok body.length := by
  rw [State.trailerOffset_owned hown, h.checkTrailer (by omega), Nat.add_sub_cancel]

/-- Bytes below a write are held after it. -/
theorem State.holds_below_writeBE {bs : List Byte} {n off v : Nat} (h : s.holds 0 bs) (hoff : bs.length ≤ off)
    (hsec : u.secBuf = s.secBuf.writeBE n off v) : u.holds 0 bs := by
  intro k b hb
  obtain ⟨hk, -⟩ := List.getElem?_eq_some_iff.1 hb
  rw [hsec, Memory.get_writeBE_outside n _ off v _ (by omega), h k b hb]

/-- Writing the trailer leaves the header and the body as they are. -/
theorem State.TrailerAfter.of_writeBE {v : Nat} (h : s.TrailerAfter b0 b1 b2 body) (h3 : 3 ≤ body.length)
    (hsec : u.secBuf = s.secBuf.writeBE 4 body.length v) (hlen : u.bufLen = s.bufLen) (hbuild : u.build = s.build) :
    u.TrailerAfter b0 b1 b2 body where
  header := State.holds_below_writeBE h.header h3 hsec
  hasCrc := hbuild ▸ h.hasCrc
  length := hbuild ▸ h.length
  fits   := hlen ▸ h.fits
  held   := State.holds_below_writeBE h.held le_rfl hsec

/-- With the CRC of the body as its trailer, the section verifies. -/
theorem commandExec_verifyCrc_sealed (h : s.TrailerAfter b0 b1 b2 body) (h3 : 3 ≤ body.length)
    (hsec : u.secBuf = s.secBuf.writeBE 4 body.length (crcOf body).toNat) (hlen : u.bufLen = s.bufLen)
    (hbuild : u.build = s.build) :
    u.commandExec .verifyCrc = .ok { res0 := some 1, res1 := some (crcOf body) } := by
  have htrailer : u.holds body.length (wordBytes (crcOf body)) := by
    have := s.holds_writeBE_word s.secBuf body.length (crcOf body)
    rwa [← hsec] at this
  rw [commandExec_verifyCrc_ok (h.of_writeBE h3 hsec hlen hbuild) htrailer, if_pos rfl]

end

/-! ### CALCCRC (R178) -/

/-- CALCCRC over written bytes in bounds (R178). -/
theorem exec_calcCrc_holds {s : State} {bs : List Byte} (hl : bs.length = s.arg1.toNat)
    (hb : s.arg0.toNat + s.arg1.toNat ≤ s.bufLen.toNat) (hh : s.holds s.arg0.toNat bs) :
    exec .calcCrc s = .next { s with res0 := crcOf bs, status := doneStatus s.status } := by
  refine exec_of_ok (w := { res0 := some (crcOf bs) }) rfl ?_ rfl
  simp only [State.commandExec, State.calcCrcExec, State.byteOffset, State.byteLength, ← hl,
    State.crc_holds hh (hl ▸ hb), Exec.ok_bind]

/-- CALCCRC past BUFLEN names ARG0 (R178). -/
theorem commandExec_calcCrc_outOfBounds {s : State} (hb : s.bufLen.toNat < s.arg0.toNat + s.arg1.toNat) :
    s.commandExec .calcCrc = raise .outOfBounds s.arg0 := by
  simp only [State.commandExec, State.calcCrcExec, State.byteOffset, State.byteLength, State.crc_outOfBounds hb,
    Exec.raise_bind, BitVec.ofNat_toNat, BitVec.setWidth_eq]

/-! ### The obligations -/

/-- Settles O34: the message bits act on the register as multiplication by x up to multiples of P; a word after the message runs 32 injective steps on its sum with the CRC. -/
theorem crcResidue : Obligations.CrcResidue := by
  refine ⟨fun m => ?_, crcOf_append_word_eq_zero_iff⟩
  have hrem := bitPoly_crcOf_eq_modByMonic m
  rw [crcPolynomial, Config.crcSeed] at hrem
  exact hrem

/-- Settles O32: the header alone decides; row 0x11 of the opcode map takes no modifier. -/
theorem hasCrcResult : Obligations.HasCrcResult := by
  refine ⟨fun s b0 b1 b2 hb hh => ?_, fun s hb => failsWith_of_short_header rfl rfl hb,
    plainCommand_of 0x11 .hasCrc rfl fun _ => rfl⟩
  have hexec := commandExec_hasCrc (State.readHdr_holds hh hb)
  refine ⟨fun hc => ?_, fun hc => ?_⟩
  · rw [hasTrailer_of_hasCrc hc] at hexec
    exact exec_of_ok rfl hexec rfl
  · rw [hasTrailer_of_not_hasCrc hc] at hexec
    exact exec_of_ok rfl hexec rfl

/-- Settles O31, by whether L fits BUFLEN; row 0x10 takes no modifier. -/
theorem secHdrResult : Obligations.SecHdrResult := by
  refine ⟨fun s b0 b1 b2 hb hh => ⟨fun hl => ?_, fun hl => ?_⟩, fun s hb => failsWith_of_short_header rfl rfl hb,
    plainCommand_of 0x10 .secHdr rfl fun _ => rfl⟩
  · have hexec := commandExec_secHdr_fits (State.readHdr_holds hh hb) hl
    obtain ⟨h, hbit⟩ : ∃ h : Nat, (sectionHasCrc s.build b0 b1 ∧ h = 1) ∨ (¬sectionHasCrc s.build b0 b1 ∧ h = 0) := by
      by_cases hc : sectionHasCrc s.build b0 b1
      · exact ⟨1, .inl ⟨hc, rfl⟩⟩
      · exact ⟨0, .inr ⟨hc, rfl⟩⟩
    rw [headerWord_eq s.build b0 b1 b2 hbit] at hexec
    exact ⟨h, hbit, exec_of_ok rfl hexec rfl⟩
  · exact failsWith_badSectionLength rfl (commandExec_secHdr_badLength (State.readHdr_holds hh hb) hl)

/-- Settles O33: the span is in bounds or not; row 0x12 takes no modifier. -/
theorem calcCrcResult : Obligations.CalcCrcResult :=
  ⟨fun _ _ hl hb hh => exec_calcCrc_holds hl hb hh,
    fun _ hb => failsWith_of_raise rfl (commandExec_calcCrc_outOfBounds hb),
    plainCommand_of 0x12 .calcCrc rfl fun _ => rfl⟩

/-- Settles O35, in the order VERIFYCRC checks: the header, the trailer, the length, the CRC; row 0x13 takes no modifier. -/
theorem verifyCrcResult : Obligations.VerifyCrcResult := by
  refine ⟨fun s b0 b1 b2 hb hh hc => ?_, fun s body t b0 b1 b2 hb hh hbytes hc hlen hfits => ?_,
    fun s b0 b1 b2 hb hh hc hl => ?_, fun s hb => failsWith_of_short_header rfl rfl hb,
    plainCommand_of 0x13 .verifyCrc rfl fun _ => rfl⟩
  · have hr := State.readHdr_holds hh hb
    exact exec_of_ok rfl ((commandExec_verifyCrc s).trans (State.checkTrailer_without hr hc)) rfl
  · obtain ⟨hbody, ht⟩ := (s.holds_append 0 body _).1 hbytes
    rw [Nat.zero_add] at ht
    exact exec_of_ok rfl (commandExec_verifyCrc_ok ⟨hh, hc, hlen, hfits, hbody⟩ ht) rfl
  · have hr := State.readHdr_holds hh hb
    exact failsWith_badSectionLength rfl ((commandExec_verifyCrc s).trans (State.checkTrailer_badLength hr hc hl))

/-- Settles O36: the same checks without a read of the trailer; row 0x14 takes no modifier. -/
theorem secCrcResult : Obligations.SecCrcResult := by
  refine ⟨fun s body b0 b1 b2 hb hh hbody hc hlen hfits => ?_, fun s b0 b1 b2 hb hh => ⟨fun hc => ?_, fun hc hl => ?_⟩,
    fun s hb => failsWith_of_short_header rfl rfl hb, plainCommand_of 0x14 .secCrc rfl fun _ => rfl⟩
  · exact exec_of_ok rfl (commandExec_secCrc_ok ⟨hh, hc, hlen, hfits, hbody⟩) rfl
  · have hr := State.readHdr_holds hh hb
    exact failsWith_of_raise rfl ((commandExec_secCrc s).trans (State.checkTrailer_without hr hc))
  · have hr := State.readHdr_holds hh hb
    exact failsWith_badSectionLength rfl ((commandExec_secCrc s).trans (State.checkTrailer_badLength hr hc hl))

/-- Settles O37: the store is `Memory.writeBE` of four bytes, and the errors are those of `State.trailerOffset`; row 0x15 takes no modifier. -/
theorem setCrcResult : Obligations.SetCrcResult := by
  refine ⟨fun s b0 b1 b2 hown hb hh hc h7 hl => ?_,
    fun s hown => failsWith_of_raise rfl (commandExec_setCrc_raise (State.trailerOffset_shared hown)),
    fun s hown hb => ?_, fun s b0 b1 b2 hown hb hh => ?_, plainCommand_of 0x15 .setCrc rfl fun _ => rfl⟩
  · have hoff := (State.trailerOffset_owned hown).trans (State.checkTrailer_within (State.readHdr_holds hh hb) hc h7 hl)
    exact ⟨_, exec_setCrc_ok hoff, s.holds_writeBE_word _ _ _,
      fun a ha => Memory.get_writeBE_outside _ _ _ _ _ (by omega)⟩
  · exact failsWith_of_raise rfl
      (commandExec_setCrc_raise ((State.trailerOffset_owned hown).trans (State.checkTrailer_short hb)))
  · have hr := State.readHdr_holds hh hb
    refine ⟨fun hc => ?_, fun hc hl => ?_⟩
    · exact failsWith_of_raise rfl
        (commandExec_setCrc_raise ((State.trailerOffset_owned hown).trans (State.checkTrailer_without hr hc)))
    · exact failsWith_badSectionLength rfl
        (commandExec_setCrc_raise ((State.trailerOffset_owned hown).trans (State.checkTrailer_badLength hr hc hl)))

/-- Settles O54: SECCRC's success puts the trailer in bounds behind `body`, SETCRC changes nothing of the header or `body`, and VERIFYCRC compares the CRC of `body` with itself. -/
theorem sealThenVerify : Obligations.SealThenVerify := by
  intro s t b0 b1 b2 hown hh h7 hexec herr
  obtain ⟨w, hw, rfl⟩ := exec_success hexec herr
  obtain ⟨body, h, rfl⟩ := trailerAfter_of_secCrc hh hw
  have h3 : 3 ≤ body.length := by
    have := h.length
    omega
  refine ⟨_, exec_setCrc_ok (h.trailerOffset hown h3), herr, ?_⟩
  exact ⟨_, exec_of_ok rfl (commandExec_verifyCrc_sealed h h3 rfl rfl rfl) rfl, herr, rfl⟩

/-- Settles O55: the section is `body` and a trailer; VERIFYCRC gives 1 iff the trailer is the CRC of `body`, which is when the CRC of both is 0. -/
theorem residueCheck : Obligations.ResidueCheck := by
  intro s b0 b1 b2 n hb hh hc h4 hl hn hwritten
  obtain ⟨body, hbody, hheld⟩ := s.holds_of_written (sectionLength s.build b0 b1 b2 - 4) 0
    fun k hk => hwritten _ (by omega)
  obtain ⟨tr, htr, hheldt⟩ := s.holds_of_written 4 body.length fun k hk => hwritten _ (by omega)
  obtain ⟨t, rfl⟩ := eq_wordBytes htr
  have h : s.TrailerAfter b0 b1 b2 body := ⟨hh, hc, by omega, by omega, hheld⟩
  have hsection : s.holds 0 (body ++ wordBytes t) :=
    (s.holds_append 0 body _).2 ⟨hheld, by rwa [Nat.zero_add]⟩
  have hspan : (body ++ wordBytes t).length = n.toNat := by
    rw [List.length_append, htr, hn]
    omega
  refine ⟨_, _, exec_of_ok rfl (commandExec_verifyCrc_ok h hheldt) rfl,
    exec_calcCrc_holds (s := { s with arg0 := 0, arg1 := n }) hspan ?_ hsection, ?_⟩
  · simpa [hn] using hl
  · have hverdict : (if crcOf body = t then 1 else 0 : Word) = 1 ↔ crcOf body = t := by simp
    exact hverdict.trans (eq_comm.trans (crcOf_append_word_eq_zero_iff body t).symm)

end Sys2Proof.Machine
end

section
/-! PROOF. The words of commands (R93, R101): the decoder gives each well-formed command back from its word, and the listed words their commands. -/

namespace Sys2Proof.Machine

/-- Settles O1: a well-formed command matches its own row, and the decoder answers the row a word matches. -/
theorem decodeOfEncode : Obligations.DecodeOfEncode := fun _ hi => decode_eq_ok_iff.2 ⟨hi, rfl⟩

/-- A word the decoder rejects is no command's. -/
theorem decode_ne_ok {w : Word} {e : DecodeError} (h : decode w = .error e) (i : Instr) : decode w ≠ .ok i :=
  fun hok => nomatch h.symm.trans hok

/-- Settles O3: each word is the one that the encoder gives; 0x2106 has a width above 32, and 0x0A is no opcode. -/
theorem opcodeMapWords : Obligations.OpcodeMapWords :=
  ⟨decodeOfEncode .nop rfl, decodeOfEncode .byteAt rfl, decodeOfEncode (.bitField 12) rfl,
    decodeOfEncode (.readBits 16) rfl, decodeOfEncode .verifyCrc rfl, decodeOfEncode .huffDecC5 rfl,
    decodeOfEncode .huffDecC7 rfl, decodeOfEncode .dvbText rfl,
    decode_ne_ok (e := .widthOutOfRange 0x06 0x21) rfl, decode_ne_ok (e := .unlistedOp 0x0A) rfl⟩

end Sys2Proof.Machine
end

section
/-! PROOF. The invariant (R20, R31 to R33, R37, R40 to R42, R301, R304): it holds after power-on, and a command, a host access and power-on reset each keep it. -/

namespace Sys2Proof.Machine

/-! ### The results of a command fit their registers and buffers -/

/-- CURPOS within 8 * BUFLEN, a string that fits OUTBUF, and a trailer below BUFLEN. -/
structure Writes.Fits (s : State) (w : Writes) : Prop where
  curPos  : ∀ p, w.curPos = some p → p.toNat ≤ 8 * s.bufLen.toNat
  out     : ∀ us, w.out = some us → us.length ≤ 4096
  trailer : ∀ off v, w.trailer = some (off, v) → off + 4 ≤ s.bufLen.toNat

/-- What a command names fits, by the results it names. -/
theorem Names.fits {s : State} {i : Instr} {w : Writes} (h : Names s i w) : w.Fits s := by
  cases i
  case nop =>
    obtain rfl := h
    exact ⟨nofun, nofun, nofun⟩
  case byteAt | word16At | word32At | isClone | bitField | peekBits | hasCrc | calcCrc | secCrc =>
    obtain ⟨v, rfl⟩ := h
    exact ⟨nofun, nofun, nofun⟩
  case sliceAt | secHdr | verifyCrc =>
    obtain ⟨v, u, rfl⟩ := h
    exact ⟨nofun, nofun, nofun⟩
  case seekBit =>
    obtain ⟨p, hp, rfl⟩ := h
    exact ⟨fun _ he => Option.some.inj he ▸ hp, nofun, nofun⟩
  case readBits =>
    obtain ⟨v, p, hp, rfl⟩ := h
    exact ⟨fun _ he => Option.some.inj he ▸ hp, nofun, nofun⟩
  case setCrc =>
    obtain ⟨off, hoff, rfl⟩ := h
    refine ⟨nofun, nofun, fun _ _ he => ?_⟩
    obtain ⟨rfl, -⟩ := Prod.mk.inj (Option.some.inj he)
    exact (State.trailerOffset_ok hoff).2
  case huffDecC5 | huffDecC7 | dvbText =>
    obtain ⟨us, v, u, hus, rfl⟩ := h
    exact ⟨nofun, fun _ he => Option.some.inj he ▸ hus, nofun⟩

section
variable {s : State} {w : Writes}

theorem Writes.Fits.write_curPos (hw : w.Fits s) (h : Inv s) : (s.write w).curPos.toNat ≤ 32768 := by
  rw [State.write_curPos]
  cases hp : w.curPos with
  | none => exact h.curPos
  | some p =>
    have hfit := hw.curPos p hp
    have hlen := h.bufLen
    exact Nat.le_trans hfit (by omega)

theorem Writes.Fits.write_outBuf (hw : w.Fits s) (h : Inv s) : (s.write w).outBuf.length ≤ 4096 := by
  rw [State.write_outBuf]
  cases hu : w.out with
  | none => exact h.outBuf
  | some us => exact hw.out us hu

theorem Writes.Fits.write_outLen (hw : w.Fits s) (h : Inv s) :
    (s.write w).outLen.toNat = (s.write w).outBuf.length ∨ (s.write w).outLen.toNat = 0 := by
  cases hu : w.out with
  | none =>
    rw [s.write_outLen_none w hu, State.write_outBuf, hu]
    exact h.outLen
  | some us =>
    have hfit := hw.out us hu
    rw [s.write_outLen_some w us hu, State.write_outBuf, hu, BitVec.toNat_ofNat]
    exact .inl (Nat.mod_eq_of_lt (by omega))

theorem Writes.Fits.write_secBuf (hw : w.Fits s) (h : Inv s) : (s.write w).secBuf.wf = true := by
  cases ht : w.trailer with
  | none => rw [s.write_secBuf_none w ht]; exact h.secBuf
  | some tr =>
    have hfit := hw.trailer tr.1 tr.2 ht
    have hlen := h.bufLen
    rw [s.write_secBuf_some w tr.1 tr.2 ht]
    exact Memory.wf_writeBE 4 _ _ _ h.secBuf (by omega)

end

/-! ### The engine -/

section
variable {s t : State}

/-- A pending command succeeds with results that fit: DONE is set where ERR, ERRCODE and ERRINFO are clear (R120, R122). -/
theorem Inv.success {w : Writes} (h : Inv s) (hb : s.status.busy = true) (hw : w.Fits s) :
    Inv (s.write w).markDone := by
  obtain ⟨-, herr, hcode⟩ := h.busy hb
  exact {
    secBuf := hw.write_secBuf h
    bufLen := h.bufLen
    curPos := hw.write_curPos h
    outBuf := hw.write_outBuf h
    outLen := hw.write_outLen h
    doneErr := fun hde => by simp [herr] at hde
    busy := nofun
    done := fun _ => hcode
    err := fun he => by simp [herr] at he
    info := h.info }

/-- A pending command fails with a code: ERR is set where DONE is clear (R120, R123). -/
theorem Inv.failure {c : ErrCode} (h : Inv s) (hb : s.status.busy = true) (hc : c ≠ .none) (info : Word) :
    Inv (s.takeError c info) := by
  obtain ⟨hdone, -, -⟩ := h.busy hb
  exact { h with
    doneErr := fun hde => by simp [hdone] at hde
    busy := nofun
    done := fun hd => by simp [hdone] at hd
    err := fun _ => hc
    info := fun hn => absurd hn hc }

/-- An emptied output has OUTLEN = 0 (R124). -/
theorem Inv.clearOutput (h : Inv s) : Inv s.clearOutput :=
  { h with outBuf := Nat.zero_le _, outLen := .inr rfl }

/-- A pending command keeps the invariant. -/
theorem Inv.exec {i : Instr} (h : Inv s) (hb : s.status.busy = true) (he : exec i s = .next t) : Inv t := by
  cases exec_eq_next.1 he with
  | success w hw => exact h.success hb (State.commandExec_names hw).fits
  | failure c info _ hw => exact h.failure hb (State.commandExec_code hw) info
  | stringFailure c info _ hw => exact (h.failure hb (State.commandExec_code hw) info).clearOutput

theorem Inv.engineTurn (h : Inv s) (he : s.engineTurn = .next t) : Inv t := by
  rcases s.engineTurn_cases with ⟨-, hidle⟩ | ⟨hb, i, -, hexec⟩ | ⟨hb, e, -, hill⟩
  · cases hidle.symm.trans he
    exact h
  · exact h.exec hb (hexec.symm.trans he)
  · cases hill.symm.trans he
    exact h.failure (c := .illegalCmd) hb nofun s.cmd

/-! ### The host -/

/-- A soft reset keeps the two buffers; OUTLEN is 0 (R26, R341). -/
theorem Inv.softReset (h : Inv s) : Inv s.softReset where
  secBuf := h.secBuf
  bufLen := Nat.zero_le _
  curPos := Nat.zero_le _
  outBuf := h.outBuf
  outLen := .inr rfl
  doneErr := nofun
  busy := nofun
  done := nofun
  err := nofun
  info := fun _ => rfl

/-- A STATUS write clears DONE and ERR only (R31). -/
theorem Inv.acknowledge (h : Inv s) (v : Word) : Inv (s.acknowledge v) := by
  have hdone : (s.acknowledge v).status.done = true → s.status.done = true := fun hd => (Bool.and_eq_true_iff.1 hd).1
  have herr : (s.acknowledge v).status.err = true → s.status.err = true := fun he => (Bool.and_eq_true_iff.1 he).1
  exact { h with
    doneErr := fun ⟨hd, he⟩ => h.doneErr ⟨hdone hd, herr he⟩
    busy := fun hb => by
      obtain ⟨hd, he, hc⟩ := h.busy hb
      rw [← Bool.not_eq_true] at hd he
      exact ⟨Bool.eq_false_iff.2 (mt hdone hd), Bool.eq_false_iff.2 (mt herr he), hc⟩
    done := fun hd => h.done (hdone hd)
    err := fun he => h.err (herr he) }

/-- An idle BUFLEN write stores a value up to 4096, or sets ERR in place of DONE (R33). -/
theorem Inv.writeBufLen (h : Inv s) (hb : s.status.busy = false) (v : Word) : Inv (s.writeBufLen v) := by
  by_cases hv : v.toNat ≤ 4096
  · rw [s.writeBufLen_fits hv]
    exact { h with bufLen := (toNat_setWidth_bufLen hv).le.trans hv }
  · rw [s.writeBufLen_rejected (Nat.not_le.1 hv)]
    exact { h with
      doneErr := nofun
      busy := fun hb' => by simp [Status.bufLenRejected, hb] at hb'
      done := nofun
      err := fun _ => nofun
      info := nofun }

/-- A command start clears DONE, ERR, ERRCODE and ERRINFO (R120). -/
theorem Inv.startCommand (h : Inv s) (v : Word) : Inv (s.startCommand v) :=
  { h with
    doneErr := nofun
    busy := fun _ => ⟨rfl, rfl, rfl⟩
    done := nofun
    err := nofun
    info := fun _ => rfl }

theorem Inv.idleWrite {size : AccessSize} {off : Nat} {v : Word} (h : Inv s) (hb : s.status.busy = false)
    (hw : IdleWrite s size off v t) : Inv t := by
  cases hw with
  | ctrl => exact { h with }
  | bufLen => exact h.writeBufLen hb v
  | cmd => exact h.startCommand v
  | arg0 => exact { h with }
  | arg1 => exact { h with }
  | secBuf hl hlo hhi => exact { h with secBuf := Memory.wf_writeBE _ _ _ _ h.secBuf (accessLegal_within hlo hhi hl) }

theorem Inv.hostWrite {size : AccessSize} {off : Nat} {v : Word} (h : Inv s)
    (hw : s.hostWrite size off v = .ok t) : Inv t := by
  rcases State.hostWrite_cases hw with rfl | ⟨-, -, -, rfl⟩ | ⟨-, -, rfl⟩ | ⟨-, rfl⟩ | ⟨hb, hi⟩
  · exact h
  · exact h.softReset
  · exact h.acknowledge v
  · exact { h with }
  · exact h.idleWrite hb hi

theorem Inv.hostAccess {a : HostAccess} (h : Inv s) (ha : s.hostAccess a = .next t) : Inv t := by
  rcases State.hostAccess_eq_next ha with ⟨d, rfl⟩ | ⟨size, off, v, -, hw⟩
  · exact { h with }
  · exact h.hostWrite hw

/-! ### A turn -/

/-- Taking a turn off the schedule changes nothing of the block. -/
theorem Inv.withSchedule (h : Inv s) (rest : List Turn) : Inv { s with schedule := rest } :=
  { h with }

end

/-- Settles O59: every register is 0 and both buffers are empty. -/
theorem powerOnIsLawful : Obligations.PowerOnIsLawful := fun _ _ =>
  { secBuf := Memory.wf_nil
    bufLen := Nat.zero_le _
    curPos := Nat.zero_le _
    outBuf := Nat.zero_le _
    outLen := .inr rfl
    doneErr := nofun
    busy := nofun
    done := nofun
    err := nofun
    info := fun _ => rfl }

/-- Settles O60, by whose turn it is: the engine's, the host's, or power-on reset. -/
theorem stepKeepsInv : Obligations.StepKeepsInv := by
  intro s t h hstep
  obtain ⟨-, hturn⟩ := step_eq_next.1 hstep
  cases hsch : s.schedule with
  | nil => exact h.engineTurn ((State.takeTurn_nil hsch).symm.trans hturn)
  | cons turn rest =>
    cases turn with
    | engine => exact (h.withSchedule rest).engineTurn ((State.takeTurn_engine hsch).symm.trans hturn)
    | host a => exact (h.withSchedule rest).hostAccess ((State.takeTurn_host hsch).symm.trans hturn)
    | powerOn =>
      cases (State.takeTurn_powerOn hsch).symm.trans hturn
      exact powerOnIsLawful s.build rest

end Sys2Proof.Machine
end

section
/-! PROOF. Turns and their order (R20, R71, R121, R302, R350): whose turn a step is, what a marked state does, and what a whole schedule of turns leaves. -/

namespace Sys2Proof.Machine

/-! ### Whose turn it is -/

/-- The engine's turn, as the next of the schedule or with none left (R71; log entry 3). -/
theorem State.takeTurn_engineNext {s : State} {rest : List Turn}
    (h : (s.schedule = [] ∧ rest = []) ∨ s.schedule = .engine :: rest) :
    s.takeTurn = { s with schedule := rest }.engineTurn := by
  obtain ⟨hnil, rfl⟩ | hcons := h
  · rw [State.takeTurn_nil hnil, ← hnil]
  · exact State.takeTurn_engine hcons

/-- An offset of the window names its place at PSE_BASE plus it (R62). -/
theorem windowOffset_add {base off : Nat} (h : off < 0x4000) : windowOffset base (base + off) = some off := by
  rw [windowOffset, if_pos (by omega), Nat.add_sub_cancel_left]

section
variable {s : State} {size : AccessSize} {off : Nat}

theorem State.hostAccess_write_ok {v : Word} {t : State} (h : off < 0x4000) (hw : s.hostWrite size off v = .ok t) :
    s.hostAccess (.write size (s.build.pseBase + off) v) = .next t := by
  simp only [State.hostAccess, windowOffset_add h, hw]

theorem State.hostAccess_write_error {v : Word} {f : Fault} (h : off < 0x4000)
    (hw : s.hostWrite size off v = .error f) : s.hostAccess (.write size (s.build.pseBase + off) v) = .fault f := by
  simp only [State.hostAccess, windowOffset_add h, hw]

theorem State.hostAccess_read_ok {d : Word} (h : off < 0x4000) (hr : s.hostRead size off = .ok d) :
    s.hostAccess (.read size (s.build.pseBase + off)) = .next { s with hostData := some d } := by
  simp only [State.hostAccess, windowOffset_add h, hr]

theorem State.hostAccess_read_error {f : Fault} (h : off < 0x4000) (hr : s.hostRead size off = .error f) :
    s.hostAccess (.read size (s.build.pseBase + off)) = .fault f := by
  simp only [State.hostAccess, windowOffset_add h, hr]

/-- The only fault of a write is the bus error, in whatever state the block is (R63). -/
theorem State.hostWrite_error {v : Word} {f : Fault} (h : s.hostWrite size off v = .error f) (u : State) :
    u.hostWrite size off v = .error f := by
  cases hl : accessLegal size off with
  | true =>
    obtain ⟨t, hok⟩ := s.hostWrite_isOk v hl
    cases hok.symm.trans h
  | false =>
    cases (s.hostWrite_illegal v hl).symm.trans h
    exact u.hostWrite_illegal v hl

end

/-! ### Several turns -/

/-- A run of turns is one turn and the run of the rest. -/
theorem runTurns_succ_eq_next {k : Nat} {s t : State} :
    runTurns (k + 1) s = .next t ↔ ∃ u, step s = .next u ∧ runTurns k u = .next t := by
  rw [runTurns]
  split
  next u hu => simp [hu]
  next f hf => simp [hf]
  next r hr => simp [hr]

/-- What the step of an unmarked state keeps, and what it uses up (R47, R302). -/
theorem step_own {s t : State} (h : step s = .next t) : TurnOwn s t := by
  obtain ⟨hu, hturn⟩ := step_eq_next.1 h
  exact State.takeTurn_own hu hturn

/-- With no turns left a step is the engine's, and leaves a final state (R126). -/
theorem final_of_step_nil {s t : State} (hs : s.schedule = []) (h : step s = .next t) : t.final := by
  obtain ⟨-, hturn⟩ := step_eq_next.1 h
  obtain ⟨-, hsch, hunmarked⟩ := step_own h
  rw [State.takeTurn_nil hs] at hturn
  exact ⟨hunmarked, State.engineTurn_not_busy hturn, by rw [hsch, hs]; rfl⟩

/-- All the turns of the schedule and one more leave a final state. -/
theorem final_of_runTurns : ∀ (l : List Turn) {s t : State}, s.schedule = l →
    runTurns (l.length + 1) s = .next t → t.final
  | [], s, t, hs, h => by
    obtain ⟨u, hu, hlast⟩ := runTurns_succ_eq_next.1 h
    cases hlast
    exact final_of_step_nil hs hu
  | _ :: l, s, t, hs, h => by
    obtain ⟨u, hu, hrest⟩ := runTurns_succ_eq_next.1 h
    exact final_of_runTurns l (by rw [(step_own hu).schedule, hs]; rfl) hrest

/-! ### Host accesses while a command is pending (R44, R67, R71) -/

/-- The state differs in the turns to come, in the host's own note of what it read, and in DONE, ERR and OVR: in no input and no result of the pending command. -/
inductive Latched (s : State) : State → Prop where
  | mk (turns : List Turn) (data : Option Word) (done err ovr : Bool) :
      Latched s { s with
        schedule := turns, hostData := data, status := { s.status with done := done, err := err, ovr := ovr } }

theorem Latched.trans {s t u : State} (h : Latched s t) (h' : Latched t u) : Latched s u := by
  cases h
  cases h'
  exact .mk ..

theorem Latched.withSchedule (s : State) (turns : List Turn) : Latched s { s with schedule := turns } :=
  .mk turns s.hostData s.status.done s.status.err s.status.ovr

/-- While BUSY = 1, a host access that is no soft reset changes no input and no result. -/
theorem latched_of_hostAccess {s t : State} {a : HostAccess} (hb : s.status.busy = true)
    (hr : ∀ v, a = .write .b32 (s.build.pseBase + 4) v → v.getLsbD 31 = false) (h : s.hostAccess a = .next t) :
    Latched s t := by
  rcases State.hostAccess_eq_next h with ⟨d, rfl⟩ | ⟨size, off, v, rfl, hw⟩
  · exact .mk _ d _ _ _
  rcases State.hostWrite_cases hw with rfl | ⟨rfl, rfl, hv, -⟩ | ⟨-, -, rfl⟩ | ⟨-, rfl⟩ | ⟨hidle, -⟩
  · exact .mk ..
  · cases hv.symm.trans (hr v rfl)
  · exact .mk ..
  · exact .mk ..
  · cases hidle.symm.trans hb

/-- The same for a schedule of host accesses, which the run uses up. -/
theorem latched_of_runTurns : ∀ (l : List HostAccess) {s u : State}, s.status.busy = true →
    s.schedule = l.map Turn.host →
    (∀ v, HostAccess.write .b32 (s.build.pseBase + 4) v ∈ l → v.getLsbD 31 = false) →
    runTurns l.length s = .next u → Latched s u ∧ u.schedule = []
  | [], s, u, _, hs, _, h => by
    cases h
    exact ⟨.mk .., hs⟩
  | a :: l, s, u, hb, hs, hr, h => by
    obtain ⟨t, ht, hrest⟩ := runTurns_succ_eq_next.1 h
    obtain ⟨hbuild, hsch, -⟩ := step_own ht
    obtain ⟨-, hturn⟩ := step_eq_next.1 ht
    rw [State.takeTurn_host hs] at hturn
    have hone : Latched s t := (Latched.withSchedule s (l.map .host)).trans
      (latched_of_hostAccess hb (fun v hv => hr v (hv ▸ List.mem_cons_self)) hturn)
    have hbusy : t.status.busy = true := by cases hone; exact hb
    obtain ⟨hmore, hnil⟩ := latched_of_runTurns l hbusy (by rw [hsch, hs]; rfl)
      (fun v hv => hr v (hbuild ▸ List.mem_cons_of_mem a hv)) hrest
    exact ⟨hone.trans hmore, hnil⟩

/-! ### The obligations -/

/-- Settles O4: an unmarked state takes its turn, and the engine's turn on a legal word is the command's meaning. -/
theorem stepRunsPendingCommand : Obligations.StepRunsPendingCommand := by
  intro s i hu hb hd
  rw [step_unmarked hu]
  refine ⟨fun hs => ?_, fun rest hs => ?_⟩
  · rw [State.takeTurn_nil hs, State.engineTurn_legal hb hd]
  · rw [State.takeTurn_engine hs]
    exact State.engineTurn_legal hb hd

/-- Settles O5: the engine's turn is idle, or takes the ILLEGAL_CMD error of the word that is pending. -/
theorem engineTurnWithoutLegalCommand : Obligations.EngineTurnWithoutLegalCommand := by
  intro s rest hu hs
  rw [step_unmarked hu, State.takeTurn_engineNext hs]
  refine ⟨fun hb => State.engineTurn_idle hb, fun hb hill => ?_⟩
  cases hd : decode s.cmd with
  | ok i => exact absurd hd (hill i)
  | error e => exact State.engineTurn_illegal (s := { s with schedule := rest }) hb hd

/-- Settles O6: a host turn at PSE_BASE + off is the access at the offset `off`, and a bus error does not depend on the state. -/
theorem stepOfHostAccess : Obligations.StepOfHostAccess := by
  intro s size off v rest hu hoff
  refine ⟨fun hs t ht => ?_, fun hs f hf => ?_, fun hs d hd => ?_, fun hs f hf => ?_⟩ <;>
    rw [step_unmarked hu, State.takeTurn_host hs]
  · exact State.hostAccess_write_ok (s := { s with schedule := rest }) hoff ht
  · exact State.hostAccess_write_error (s := { s with schedule := rest }) hoff (State.hostWrite_error hf _)
  · exact State.hostAccess_read_ok (s := { s with schedule := rest }) hoff hd
  · exact State.hostAccess_read_error (s := { s with schedule := rest }) hoff hf

/-- Settles O7: `State.settle` sets the one mark, and a state with a mark answers it again. -/
theorem markedStatesAreQuiescent : Obligations.MarkedStatesAreQuiescent := by
  refine ⟨fun s f hf => ?_, fun s r hr => ?_, fun s hmarked => ?_⟩
  · rw [advance, hf, State.settle]
  · rw [advance, hr, State.settle]
  · cases hfm : s.faultMark with
    | some f =>
      have hstep := step_faultMark hfm
      exact ⟨by rw [advance, hstep, State.settle, ← hfm], fun t ht => nomatch hstep.symm.trans ht⟩
    | none =>
      cases hrm : s.refusalMark with
      | some r =>
        have hstep := step_refusalMark hfm hrm
        exact ⟨by rw [advance, hstep, State.settle, ← hrm], fun t ht => nomatch hstep.symm.trans ht⟩
      | none => exact absurd ⟨hfm, hrm⟩ hmarked

/-- Settles O8, by induction on the schedule; the turn after it is the engine's. -/
theorem engineStepHappens : Obligations.EngineStepHappens := fun s _ _ h => final_of_runTurns s.schedule rfl h

/-- Settles O9: the registers of `State.powerOn` one by one, and the power-on turn. -/
theorem powerOnState : Obligations.PowerOnState := by
  refine ⟨⟨Config.build, rfl⟩, fun b => ⟨fun r => ?_, rfl, rfl, rfl, fun _ => rfl, rfl, ⟨rfl, rfl⟩, ?_⟩⟩
  · cases r
    case ctrl => exact (by decide : Ctrl.toWord ⟨false, false⟩ = 0)
    case status => exact (by decide : Status.toWord ⟨false, false, false, false, .none⟩ = 0)
    all_goals rfl
  · rintro u rest hu rfl hs
    rw [step_unmarked hu, State.takeTurn_powerOn hs]
    rfl

/-- Settles O57: one access leaves the pending command's inputs and results, and a schedule of them does by induction. -/
theorem pendingInputsAreLatched : Obligations.PendingInputsAreLatched := by
  intro l s u _ hb hr h
  obtain ⟨hlatched, hnil⟩ := latched_of_runTurns l (s := { s with schedule := l.map Turn.host }) hb rfl hr h
  cases hlatched
  obtain rfl := hnil
  rfl

/-- Settles O58: no turn touches the parameters. -/
theorem parametersNeverChange : Obligations.ParametersNeverChange := fun _ _ h => (step_own h).build

end Sys2Proof.Machine
end

section
/-! PROOF. The host's accesses (20_memory.md): the widths and alignments accepted, the registers as words, the writes that BUSY drops, and the two buffers byte by byte. -/

namespace Sys2Proof.Machine

/-! ### Widths and alignments (R63) -/

/-- The accesses the window accepts, width by width (R63). -/
theorem accessLegal_iff {size : AccessSize} {off : Nat} : accessLegal size off = true ↔
    (off < 0x1000 ∧ size = .b32 ∧ off % 4 = 0) ∨
      (0x1000 ≤ off ∧ (size = .b8 ∨ (size = .b16 ∧ off % 2 = 0) ∨ (size = .b32 ∧ off % 4 = 0))) := by
  by_cases h : off < 0x1000
  · simp only [accessLegal_registers h, h, Nat.not_le.2 h, true_and, false_and, or_false]
  · rw [accessLegal_buffers (Nat.not_lt.1 h)]
    cases size <;> simp [AccessSize.bytes, h, Nat.not_lt.1 h, Nat.mod_one]

/-- A naturally aligned access of SECBUF is accepted. -/
theorem accessLegal_section {size : AccessSize} {k : Nat} (h64 : size ≠ .b64) (ha : k % size.bytes = 0) :
    accessLegal size (0x1000 + k) = true := by
  refine (accessLegal_buffers (Nat.le_add_right _ _)).2 ⟨h64, ?_⟩
  cases size <;> simp only [AccessSize.bytes] at ha ⊢ <;> omega

/-- A naturally aligned access of OUTBUF is accepted. -/
theorem accessLegal_output {size : AccessSize} {k : Nat} (h64 : size ≠ .b64) (ha : k % size.bytes = 0) :
    accessLegal size (0x2000 + k) = true := by
  refine (accessLegal_buffers (by omega)).2 ⟨h64, ?_⟩
  cases size <;> simp only [AccessSize.bytes] at ha ⊢ <;> omega

/-- The bytes of a read are no bus error where none of them is. -/
theorem hostBytes_ne_busError {byte : Nat → Except Fault Byte} {sz : AccessSize} {o : Nat} (n k : Nat)
    (hbyte : ∀ j, byte j ≠ .error (.hostBusError sz o)) :
    (hostBytes byte n k 0).map (BitVec.ofNat 32) ≠ .error (.hostBusError sz o) := by
  rcases hostBytes_cases byte n k 0 with ⟨v, hv⟩ | ⟨j, f, -, hj, hf⟩
  · rw [hv]
    exact nofun
  · rw [hf]
    rintro h
    cases h
    exact hbyte _ hj

/-- An accepted read is no bus error: it answers, or a byte of a buffer is UNDEF_READ (R41, R63). -/
theorem State.hostRead_ne_busError (s : State) {size : AccessSize} {off : Nat} (hl : accessLegal size off = true)
    (sz : AccessSize) (o : Nat) : s.hostRead size off ≠ .error (.hostBusError sz o) := by
  by_cases h1 : off < 0x1000
  · obtain ⟨rfl, h4⟩ := (accessLegal_registers h1).1 hl
    rw [s.hostRead_register off h1 h4]
    exact nofun
  by_cases h2 : off < 0x2000
  · rw [s.hostRead_section hl (Nat.not_lt.1 h1) h2]
    refine hostBytes_ne_busError _ _ fun k => ?_
    unfold State.hostSecByte
    split <;> exact nofun
  · rw [s.hostRead_output hl (Nat.not_lt.1 h2)]
    refine hostBytes_ne_busError _ _ fun k => ?_
    unfold State.outByte
    split <;> exact nofun

/-! ### Registers as words (R25, R29) -/

/-- A 32-bit read at a register's offset is that register. -/
theorem State.hostRead_regAt (s : State) {off : Nat} {r : Reg} (h : regAt off = some r) :
    s.hostRead .b32 off = .ok (s.readReg r) := by
  obtain ⟨hlt, h4⟩ := regAt_eq_some_bounds h
  rw [s.hostRead_register off (by omega) h4, State.readRegAt, h]

@[simp] theorem Word.ofBit_getLsbD (b : Bool) (k : Nat) : (Word.ofBit b).getLsbD k = (decide (k = 0) && b) := by
  cases b <;> simp [Word.ofBit]

theorem Ctrl.toWord_getLsbD (c : Ctrl) (k : Nat) :
    c.toWord.getLsbD k = if k = 0 then c.clone else if k = 1 then c.ie else false := by
  simp only [Ctrl.toWord, BitVec.getLsbD_or, BitVec.getLsbD_shiftLeft, Word.ofBit_getLsbD]
  grind

/-- Bits 0 to 3 are the flags, bits 8 to 15 the number of ERRCODE, and the rest 0 (R29). -/
theorem Status.toWord_getLsbD (st : Status) (k : Nat) :
    st.toWord.getLsbD k =
      if k = 0 then st.busy else if k = 1 then st.done else if k = 2 then st.err else if k = 3 then st.ovr
      else if 8 ≤ k ∧ k < 16 then st.errCode.number.getLsbD (k - 8) else false := by
  simp only [Status.toWord, BitVec.getLsbD_or, BitVec.getLsbD_shiftLeft, BitVec.getLsbD_setWidth, Word.ofBit_getLsbD]
  grind

theorem Status.toWord_errCode (st : Status) : st.toWord.extractLsb' 8 8 = st.errCode.number := by
  apply BitVec.eq_of_getLsbD_eq
  intro i hi
  rw [BitVec.getLsbD_extractLsb', Status.toWord_getLsbD]
  grind

/-- Bits 7:4 and 31:16 of STATUS read 0. -/
theorem Status.toWord_reserved (st : Status) {start len : Nat}
    (h : ∀ k, start ≤ k → k < start + len → 3 < k ∧ ¬(8 ≤ k ∧ k < 16)) : st.toWord.extractLsb' start len = 0 := by
  apply BitVec.eq_of_getLsbD_eq
  intro i hi
  have := h (start + i) (by omega) (by omega)
  rw [BitVec.getLsbD_extractLsb', Status.toWord_getLsbD]
  grind

/-- The codes of R301 in the order of their numbers. -/
def errCodes : List ErrCode :=
  [.none, .illegalCmd, .outOfBounds, .badSectionLength, .readOnly, .noCrcTrailer, .huffTruncated, .huffBadCode,
    .outOverflow, .unsupportedCharset, .textTruncated, .badBufLen]

/-! ### Writes to registers (R25, R35, R67) -/

/-- A CTRL write with bit 31 clear, while idle (R25). -/
theorem State.writeCtrl_idle {s : State} {v : Word} (hb : s.status.busy = false) (hv : v.getLsbD 31 = false) :
    s.writeCtrl v = { s with ctrl := Ctrl.ofWrite v } := by
  rw [State.writeCtrl, hv, if_neg (by simp), State.unlessBusy_idle hb]

/-- A CTRL write with bit 31 clear is dropped while BUSY = 1 (R67). -/
theorem State.writeCtrl_busy {s : State} {v : Word} (hb : s.status.busy = true) (hv : v.getLsbD 31 = false) :
    s.writeCtrl v = { s with status := s.status.dropped } := by
  rw [State.writeCtrl, hv, if_neg (by simp), State.unlessBusy_busy hb]

/-! ### Bytes of a buffer (R40 to R42) -/

/-- The `n` low bytes of a value, most significant first, as MemWrite stores them (R12). -/
def lowBytes : Nat → Nat → List Byte
  | 0, _ => []
  | n + 1, x => BitVec.ofNat 8 (x / 256 ^ n) :: lowBytes n x

@[simp] theorem length_lowBytes (x : Nat) : ∀ n, (lowBytes n x).length = n
  | 0 => rfl
  | n + 1 => congrArg (· + 1) (length_lowBytes x n)

theorem foldl_lowBytes (x : Nat) : ∀ n acc,
    (lowBytes n x).foldl (fun a b => a * 256 + b.toNat) acc = acc * 256 ^ n + x % 256 ^ n
  | 0, acc => by simp [lowBytes, Nat.mod_one]
  | n + 1, acc => by
    rw [lowBytes, List.foldl_cons, foldl_lowBytes x n, Nat.mod_pow_succ, BitVec.toNat_ofNat]
    ring

/-- The big-endian value of the low bytes is the low part of the value (R60). -/
theorem bigEndian_lowBytes (n x : Nat) : bigEndian (lowBytes n x) = x % 256 ^ n := by
  rw [bigEndian, foldl_lowBytes, Nat.zero_mul, Nat.zero_add]

/-- What MemWrite stored is there. -/
theorem State.holds_writeBE (s : State) (x : Nat) : ∀ (n off : Nat) (m : Memory),
    State.holds { s with secBuf := m.writeBE n off x } off (lowBytes n x)
  | 0, _, _ => State.holds_nil _ _
  | n + 1, off, m => by
    rw [lowBytes, State.holds_cons]
    refine ⟨?_, s.holds_writeBE x n (off + 1) _⟩
    simpa using Memory.get_writeBE_inside (n + 1) m off x 0 (Nat.succ_pos n)

/-- Byte i of a word, counted from the least significant. -/
theorem ofNat_div_eq_extractLsb' (v : Word) (i : Nat) :
    BitVec.ofNat 8 (v.toNat / 256 ^ i) = v.extractLsb' (8 * i) 8 := by
  apply BitVec.eq_of_toNat_eq
  rw [BitVec.toNat_ofNat, BitVec.extractLsb'_toNat, Nat.shiftRight_eq_div_pow, Nat.pow_mul]

section
variable {s : State} {size : AccessSize} {k : Nat}

/-- A host read of SECBUF goes byte by byte (R63). -/
theorem State.hostRead_secBuf (hk : k < 4096) (h64 : size ≠ .b64) (ha : k % size.bytes = 0) :
    s.hostRead size (0x1000 + k) = (hostBytes s.hostSecByte size.bytes k 0).map (BitVec.ofNat 32) := by
  rw [s.hostRead_section (accessLegal_section h64 ha) (Nat.le_add_right _ _) (by omega), Nat.add_sub_cancel_left]

theorem State.hostSecByte_some {b : Byte} (h : s.secBuf.get k = some b) : s.hostSecByte k = .ok b := by
  rw [State.hostSecByte, h]

theorem State.hostSecByte_none (h : s.secBuf.get k = none) : s.hostSecByte k = .error (.undefReadSecBuf k) := by
  rw [State.hostSecByte, h]

/-- A host read of written bytes of SECBUF (R40, R63). -/
theorem State.hostRead_secBuf_holds {bs : List Byte} (hk : k < 4096) (h64 : size ≠ .b64) (ha : k % size.bytes = 0)
    (hl : bs.length = size.bytes) (hh : s.holds k bs) :
    s.hostRead size (0x1000 + k) = .ok (BitVec.ofNat 32 (bigEndian bs)) := by
  rw [State.hostRead_secBuf hk h64 ha, ← hl,
    hostBytes_ok _ bs k 0 fun j b hb => State.hostSecByte_some (hh j b hb)]
  rfl

/-- A host read of SECBUF stops at its first unwritten byte (R41). -/
theorem State.hostRead_secBuf_unwritten {j : Nat} (hk : k < 4096) (h64 : size ≠ .b64) (ha : k % size.bytes = 0)
    (hj : j < size.bytes) (hbelow : ∀ l, l < j → (s.secBuf.get (k + l)).isSome = true)
    (hnone : s.secBuf.get (k + j) = none) :
    s.hostRead size (0x1000 + k) = .error (.undefReadSecBuf (k + j)) := by
  have hwritten : ∀ l, l < j → ∃ b, s.hostSecByte (k + l) = .ok b := fun l hl => by
    obtain ⟨b, hb⟩ := Option.isSome_iff_exists.1 (hbelow l hl)
    exact ⟨b, State.hostSecByte_some hb⟩
  rw [State.hostRead_secBuf hk h64 ha,
    hostBytes_first _ _ j _ k 0 hj hwritten (State.hostSecByte_none hnone)]
  rfl

end

/-! ### Entries of OUTBUF (R41, R42) -/

section
variable {s : State} {size : AccessSize} {i k : Nat}

/-- A host read of OUTBUF goes byte by byte (R63). -/
theorem State.hostRead_outBuf (h64 : size ≠ .b64) (ha : k % size.bytes = 0) :
    s.hostRead size (0x2000 + k) = (hostBytes s.outByte size.bytes k 0).map (BitVec.ofNat 32) := by
  rw [s.hostRead_output (accessLegal_output h64 ha) (Nat.le_add_right _ _), Nat.add_sub_cancel_left]

theorem State.outByte_high {u : Half} (h : s.outBuf[i]? = some u) : s.outByte (2 * i) = .ok (u.extractLsb' 8 8) := by
  rw [State.outByte, Nat.mul_div_cancel_left i two_pos, h, Nat.mul_mod_right]
  rfl

theorem State.outByte_low {u : Half} (h : s.outBuf[i]? = some u) : s.outByte (2 * i + 1) = .ok (u.extractLsb' 0 8) := by
  rw [State.outByte, show (2 * i + 1) / 2 = i by omega, h, show (2 * i + 1) % 2 = 1 by omega]
  rfl

theorem State.outByte_none (h : s.outBuf[k / 2]? = none) : s.outByte k = .error (.undefReadOutBuf (k / 2)) := by
  rw [State.outByte, h]

/-- A read that begins in an unmarked entry is UNDEF_READ of that entry (R41). -/
theorem State.hostRead_unmarked (h64 : size ≠ .b64) (ha : k % size.bytes = 0) (hk : k / 2 = i)
    (h : s.outBuf[i]? = none) : s.hostRead size (0x2000 + k) = .error (.undefReadOutBuf i) := by
  obtain ⟨n, hn⟩ : ∃ n, size.bytes = n + 1 := by cases size <;> exact ⟨_, rfl⟩
  subst hk
  rw [State.hostRead_outBuf h64 ha, hn, hostBytes_error _ _ n k 0 (State.outByte_none h)]
  rfl

/-- The two bytes of an entry are the entry. -/
theorem entry_bytes (u : Half) : (u.extractLsb' 8 8).toNat * 256 + (u.extractLsb' 0 8).toNat = u.toNat := by
  simpa [bigEndian] using bigEndian_unit u

/-- Two entries, the first above the second. -/
theorem ofNat_two_entries (u u' : Half) : BitVec.ofNat 32 (u.toNat * 65536 + u'.toNat) = u ++ u' := by
  apply BitVec.eq_of_toNat_eq
  rw [BitVec.toNat_append, ← Nat.shiftLeft_add_eq_or_of_lt u'.isLt, Nat.shiftLeft_eq, BitVec.toNat_ofNat]
  have := u.isLt
  have := u'.isLt
  omega

theorem State.hostRead_entry {u : Half} (hu : s.outBuf[i]? = some u) :
    s.hostRead .b16 (0x2000 + 2 * i) = .ok (u.setWidth 32) := by
  rw [State.hostRead_outBuf (size := .b16) (by decide) (Nat.mul_mod_right 2 i), AccessSize.bytes,
    hostBytes_two (State.outByte_high hu) (State.outByte_low hu), entry_bytes]
  exact congrArg _ (BitVec.ofNat_toNat 32 u)

theorem State.hostRead_entry_high {u : Half} (hu : s.outBuf[i]? = some u) :
    s.hostRead .b8 (0x2000 + 2 * i) = .ok ((u.extractLsb' 8 8).setWidth 32) := by
  rw [State.hostRead_outBuf (size := .b8) (by decide) (Nat.mod_one _), AccessSize.bytes,
    hostBytes_one (State.outByte_high hu)]
  exact congrArg _ (BitVec.ofNat_toNat 32 _)

theorem State.hostRead_entry_low {u : Half} (hu : s.outBuf[i]? = some u) :
    s.hostRead .b8 (0x2000 + (2 * i + 1)) = .ok ((u.extractLsb' 0 8).setWidth 32) := by
  rw [State.hostRead_outBuf (size := .b8) (by decide) (Nat.mod_one _), AccessSize.bytes,
    hostBytes_one (State.outByte_low hu)]
  exact congrArg _ (BitVec.ofNat_toNat 32 _)

theorem State.hostRead_two_entries {u u' : Half} (hi : i % 2 = 0) (hu : s.outBuf[i]? = some u)
    (hu' : s.outBuf[i + 1]? = some u') : s.hostRead .b32 (0x2000 + 2 * i) = .ok (u ++ u') := by
  have ha : 2 * i % 4 = 0 := by omega
  rw [State.hostRead_outBuf (size := .b32) (by decide) ha, AccessSize.bytes,
    hostBytes_four (State.outByte_high hu) (State.outByte_low hu) (State.outByte_high hu') (State.outByte_low hu'),
    entry_bytes, Nat.add_mul, Nat.mul_assoc, Nat.add_assoc, entry_bytes]
  exact congrArg _ (ofNat_two_entries u u')

/-- A 32-bit read of a marked entry and an unmarked one is UNDEF_READ of the second (R41). -/
theorem State.hostRead_second_unmarked {u : Half} (hi : i % 2 = 0) (hu : s.outBuf[i]? = some u)
    (hn : s.outBuf[i + 1]? = none) : s.hostRead .b32 (0x2000 + 2 * i) = .error (.undefReadOutBuf (i + 1)) := by
  have ha : 2 * i % 4 = 0 := by omega
  have hsecond : s.outByte (2 * i + 2) = .error (.undefReadOutBuf (i + 1)) := by
    have hdiv : (2 * i + 2) / 2 = i + 1 := by omega
    rw [← hdiv] at hn ⊢
    exact State.outByte_none hn
  have hfirst : ∀ l, l < 2 → ∃ b, s.outByte (2 * i + l) = .ok b := by
    intro l hl
    obtain rfl | rfl : l = 0 ∨ l = 1 := by omega
    · exact ⟨_, State.outByte_high hu⟩
    · exact ⟨_, State.outByte_low hu⟩
  rw [State.hostRead_outBuf (size := .b32) (by decide) ha, AccessSize.bytes,
    hostBytes_first _ _ 2 4 (2 * i) 0 (by decide) hfirst hsecond]
  rfl

end

/-! ### The obligations -/

/-- Settles O12: each is the write of its register, which BUSY = 0 lets through. -/
theorem idleWritesOfCtrlAndArgs : Obligations.IdleWritesOfCtrlAndArgs := by
  intro s v hb
  refine ⟨fun hv => ?_, ?_, ?_⟩
  · rw [s.hostWrite_regAt v (r := .ctrl) rfl, State.writeReg, State.writeCtrl_idle hb hv]
    rfl
  · rw [s.hostWrite_regAt v (r := .arg0) rfl, State.writeReg, State.unlessBusy_idle hb]
  · rw [s.hostWrite_regAt v (r := .arg1) rfl, State.writeReg, State.unlessBusy_idle hb]

/-- Settles O14: the bits of CTRL and STATUS one by one, and the register map. -/
theorem registerReads : Obligations.RegisterReads := by
  refine ⟨fun s c n hmem hc => ?_, fun s => ⟨s.ctrl.toWord_getLsbD, s.status.toWord_getLsbD 0,
    s.status.toWord_getLsbD 1, s.status.toWord_getLsbD 2, s.status.toWord_getLsbD 3, s.status.toWord_reserved (by omega),
    s.status.toWord_reserved (by omega),
    s.hostRead_regAt (r := .id) rfl, s.hostRead_regAt (r := .ctrl) rfl, s.hostRead_regAt (r := .status) rfl,
    s.hostRead_regAt (r := .bufLen) rfl, s.hostRead_regAt (r := .cmd) rfl, s.hostRead_regAt (r := .arg0) rfl,
    s.hostRead_regAt (r := .arg1) rfl, s.hostRead_regAt (r := .res0) rfl, s.hostRead_regAt (r := .res1) rfl,
    s.hostRead_regAt (r := .curPos) rfl, s.hostRead_regAt (r := .outLen) rfl, s.hostRead_regAt (r := .errInfo) rfl⟩⟩
  obtain ⟨c', -, hpair⟩ := List.mem_map.1 (show (c, n) ∈ errCodes.map fun c => (c, c.number) from hmem)
  cases hpair
  rw [State.readReg, Status.toWord_errCode, hc]

/-- Settles O16, by where the write falls: CTRL, another register, or SECBUF. -/
theorem busyDropsHostWrites : Obligations.BusyDropsHostWrites := by
  intro s size off v hb hl hoff
  rcases hoff with ⟨rfl, hv⟩ | hreg | ⟨hlo, hhi⟩
  · obtain ⟨rfl, -⟩ := (accessLegal_registers (by decide)).1 hl
    rw [s.hostWrite_regAt v (r := .ctrl) rfl, State.writeReg, State.writeCtrl_busy hb hv]
    rfl
  · have hlt : off < 0x1000 := by
      simp only [List.mem_cons, List.not_mem_nil, or_false] at hreg
      omega
    obtain ⟨rfl, -⟩ := (accessLegal_registers hlt).1 hl
    simp only [List.mem_cons, List.not_mem_nil, or_false] at hreg
    rcases hreg with rfl | rfl | rfl | rfl
    · exact (s.hostWrite_regAt v (r := .bufLen) rfl).trans (congrArg _ (State.unlessBusy_busy hb))
    · exact (s.hostWrite_regAt v (r := .cmd) rfl).trans (congrArg _ (State.unlessBusy_busy hb))
    · exact (s.hostWrite_regAt v (r := .arg0) rfl).trans (congrArg _ (State.unlessBusy_busy hb))
    · exact (s.hostWrite_regAt v (r := .arg1) rfl).trans (congrArg _ (State.unlessBusy_busy hb))
  · rw [s.hostWrite_section v hl hlo hhi, State.unlessBusy_busy hb]
    rfl

/-- Settles O18: the condition is `accessLegal`, which decides every access before the state is looked at. -/
theorem busErrorsExactly : Obligations.BusErrorsExactly := by
  intro s size off v _
  dsimp only
  rw [← accessLegal_iff, Bool.not_eq_true]
  exact ⟨s.hostWrite_isOk v, fun hl => s.hostRead_ne_busError hl size off, s.hostWrite_illegal v,
    s.hostRead_illegal⟩

/-- Settles O19: a read is of the bytes of its entries, high byte first. -/
theorem hostReadsOutBuf : Obligations.HostReadsOutBuf := by
  intro s i _
  have hlow : 0x2001 + 2 * i = 0x2000 + (2 * i + 1) := by omega
  have ha : i % 2 = 0 → 2 * i % 4 = 0 := by omega
  rw [hlow]
  exact ⟨fun u hu => ⟨State.hostRead_entry hu, State.hostRead_entry_high hu, State.hostRead_entry_low hu⟩,
    fun u u' hi hu hu' => State.hostRead_two_entries hi hu hu',
    fun hn => ⟨State.hostRead_unmarked (size := .b16) (by decide) (Nat.mul_mod_right 2 i) (by omega) hn,
      State.hostRead_unmarked (size := .b8) (by decide) (Nat.mod_one _) (by omega) hn,
      State.hostRead_unmarked (size := .b8) (by decide) (Nat.mod_one _) (by omega) hn⟩,
    fun hi hn => State.hostRead_unmarked (size := .b32) (by decide) (ha hi) (by omega) hn,
    fun u hi hu hn => State.hostRead_second_unmarked hi hu hn⟩

/-- Settles O20: the write is `Memory.writeBE`, and a read answers the bytes that are there or stops at the first that is not. -/
theorem hostWritesSecBuf : Obligations.HostWritesSecBuf := by
  refine ⟨fun s size k v hb hk h64 ha => ?_, fun s size k hk h64 ha =>
    ⟨fun bs hl hh => State.hostRead_secBuf_holds hk h64 ha hl hh,
      fun j hj hbelow hnone => State.hostRead_secBuf_unwritten hk h64 ha hj hbelow hnone⟩⟩
  refine ⟨s.secBuf.writeBE size.bytes k v.toNat, ?_, fun j hj => ?_,
    fun a ha => Memory.get_writeBE_outside _ _ _ _ _ ha, ?_⟩
  · rw [s.hostWrite_section v (accessLegal_section h64 ha) (Nat.le_add_right _ _) (by omega),
      State.unlessBusy_idle hb, Nat.add_sub_cancel_left]
  · rw [Memory.get_writeBE_inside _ _ _ _ _ hj, ofNat_div_eq_extractLsb']
  · rw [State.hostRead_secBuf_holds hk h64 ha (length_lowBytes v.toNat size.bytes) (s.holds_writeBE _ _ _ _),
      bigEndian_lowBytes, Nat.pow_mul]

end Sys2Proof.Machine
end

section
/-! PROOF. The commands of 41_cursor.md that read at CURPOS: READBITS and PEEKBITS, and how they agree with BITFIELD. -/

namespace Sys2Proof.Machine

/-! ### What the two commands read -/

/-- Where Bits answers, the field is in bounds and its bits are there (R12). -/
theorem State.bits_ok {s : State} {p w v : Nat} (h : s.bits p w = .ok v) :
    p + w ≤ 8 * s.bufLen.toNat ∧ ∃ bs, bs.length = w ∧ s.holdsBits p bs ∧ v = bitsValue bs := by
  rcases s.bits_cases p w with ⟨hb, bs, hl, hh, hok⟩ | ⟨-, herr⟩ | ⟨-, k, -, -, -, herr⟩
  · exact ⟨hb, bs, hl, hh, Except.ok.inj (h.symm.trans hok)⟩
  · cases herr.symm.trans h
  · cases herr.symm.trans h

/-- The 16 bits of CURPOS hold every bit address up to 8 * BUFLEN (R37). -/
theorem toNat_ofNat_curPos {s : State} {p : Nat} (h : p ≤ 8 * s.bufLen.toNat) : (BitVec.ofNat 16 p).toNat = p := by
  have hlen := s.bufLen.isLt
  rw [BitVec.toNat_ofNat, Nat.mod_eq_of_lt (by omega)]

/-- READBITS answers a field in RES0 and the bit address after it in CURPOS (R148). -/
def readAnswer (p w v : Nat) : Writes :=
  { res0 := some (BitVec.ofNat 32 v), curPos := some (BitVec.ofNat 16 (p + w)) }

section
variable {s : State} {w : Byte}

theorem commandExec_readBits (hw : widthLegal w = true) :
    s.commandExec (.readBits w) =
      s.bits s.curPos.toNat w.toNat >>= fun v => .ok (readAnswer s.curPos.toNat w.toNat v) := by
  simp only [State.commandExec, State.readBitsExec, State.checkWidth, hw, if_true, Exec.ok_bind]
  rfl

theorem commandExec_peekBits (hw : widthLegal w = true) :
    s.commandExec (.peekBits w) = answerOf (s.bits s.curPos.toNat w.toNat) := by
  simp only [State.commandExec, State.peekBitsExec, State.checkWidth, hw, if_true, Exec.ok_bind]
  rfl

/-- Where READBITS succeeds, its width is legal and Bits answered (R148). -/
theorem readBits_ok {x : Writes} (h : s.commandExec (.readBits w) = .ok x) :
    widthLegal w = true ∧ ∃ v, s.bits s.curPos.toNat w.toNat = .ok v ∧ x = readAnswer s.curPos.toNat w.toNat v := by
  cases hw : widthLegal w with
  | false => simp [State.commandExec, State.readBitsExec, State.checkWidth, hw, raise] at h
  | true =>
    rw [commandExec_readBits hw] at h
    obtain ⟨v, hv, hx⟩ := Exec.bind_eq_ok.1 h
    exact ⟨rfl, v, hv, (Except.ok.inj hx).symm⟩

/-- Where PEEKBITS succeeds, its width is legal and Bits answered (R149). -/
theorem peekBits_ok {x : Writes} (h : s.commandExec (.peekBits w) = .ok x) :
    widthLegal w = true ∧ ∃ v, s.bits s.curPos.toNat w.toNat = .ok v ∧ x = { res0 := some (BitVec.ofNat 32 v) } := by
  cases hw : widthLegal w with
  | false => simp [State.commandExec, State.peekBitsExec, State.checkWidth, hw, raise] at h
  | true =>
    rw [commandExec_peekBits hw] at h
    obtain ⟨v, hv, hx⟩ := Exec.bind_eq_ok.1 h
    exact ⟨rfl, v, hv, (Except.ok.inj hx).symm⟩

/-- CURPOS is the ERRINFO of a field at CURPOS past 8 * BUFLEN (R148, R149). -/
theorem bits_curPos_outOfBounds (hb : 8 * s.bufLen.toNat < s.curPos.toNat + w.toNat) :
    s.bits s.curPos.toNat w.toNat = raise .outOfBounds (s.curPos.setWidth 32) := by
  rw [State.bits_outOfBounds hb, BitVec.ofNat_toNat]

end

/-- Two fields one behind the other are one field (R11). -/
theorem State.bits_append {s : State} {p w v a b : Nat} (ha : s.bits p w = .ok a) (hb : s.bits (p + w) v = .ok b) :
    s.bits p (w + v) = .ok (a * 2 ^ v + b) := by
  obtain ⟨-, as, rfl, hheld, rfl⟩ := State.bits_ok ha
  obtain ⟨hin, bs, rfl, hheld', rfl⟩ := State.bits_ok hb
  rw [← bitsValue_append, ← List.length_append]
  exact State.bits_holds ((s.holdsBits_append p as bs).2 ⟨hheld, hheld'⟩) (by rw [List.length_append]; omega)

/-- The value of a field of at most 32 bits is its word (R10). -/
theorem toNat_ofNat_bitsValue {bs : List Bool} (h : bs.length ≤ 32) :
    (BitVec.ofNat 32 (bitsValue bs)).toNat = bitsValue bs := by
  have hlt := Nat.lt_of_lt_of_le (bitsValue_lt bs) (Nat.pow_le_pow_right two_pos h)
  rw [BitVec.toNat_ofNat, Nat.mod_eq_of_lt hlt]

/-- A successful READBITS leaves the field at CURPOS in RES0, CURPOS behind it, and every field as it was (R148). -/
theorem bits_of_exec_readBits {s t : State} {w : Byte} (h : exec (.readBits w) s = .next t)
    (ht : t.status.err = false) : s.bits s.curPos.toNat w.toNat = .ok t.res0.toNat ∧
      t.curPos.toNat = s.curPos.toNat + w.toNat ∧ t.bits = s.bits := by
  obtain ⟨wr, hwr, rfl⟩ := exec_success h ht
  obtain ⟨hw, v, hv, rfl⟩ := readBits_ok hwr
  obtain ⟨hin, bs, hl, -, rfl⟩ := State.bits_ok hv
  have h32 : bs.length ≤ 32 := by
    simp only [widthLegal, Bool.and_eq_true, decide_eq_true_eq] at hw
    exact hl.trans_le hw.2
  exact ⟨hv.trans (congrArg _ (toNat_ofNat_bitsValue h32).symm), toNat_ofNat_curPos hin, State.bits_of_eq rfl rfl⟩

/-! ### The obligations -/

/-- Settles O29: the field is the value of the bits at CURPOS, and row 0x08 of the opcode map takes a width. -/
theorem readBitsResult : Obligations.ReadBitsResult := by
  refine ⟨fun s w h1 h32 hb hw => ?_, fun s w h1 h32 hb => ?_, widthCommand_of 0x08 .readBits fun _ => rfl⟩
  · obtain ⟨bs, hl, hbits⟩ := s.holdsBits_of_written w.toNat s.curPos.toNat hw
    have hexec : s.commandExec (.readBits w) = .ok (readAnswer s.curPos.toNat w.toNat (bitsValue bs)) := by
      rw [commandExec_readBits (widthLegal_of h1 h32), ← hl, State.bits_holds hbits (by omega)]
      rfl
    exact ⟨_, _, hl ▸ State.isField_of_holdsBits hbits (by omega), toNat_ofNat_curPos hb, exec_of_ok rfl hexec rfl⟩
  · refine failsWith_of_raise rfl ?_
    rw [commandExec_readBits (widthLegal_of h1 h32), bits_curPos_outOfBounds hb, Exec.raise_bind]

/-- Settles O30: the same field without the advance, and row 0x09 takes a width. -/
theorem peekBitsResult : Obligations.PeekBitsResult := by
  refine ⟨fun s w h1 h32 hb hw => ?_, fun s w h1 h32 hb => ?_, widthCommand_of 0x09 .peekBits fun _ => rfl⟩
  · obtain ⟨bs, hl, hbits⟩ := s.holdsBits_of_written w.toNat s.curPos.toNat hw
    have hexec : s.commandExec (.peekBits w) = .ok { res0 := some (BitVec.ofNat 32 (bitsValue bs)) } := by
      rw [commandExec_peekBits (widthLegal_of h1 h32), ← hl, State.bits_holds hbits (by omega)]
      rfl
    exact ⟨_, hl ▸ State.isField_of_holdsBits hbits (by omega), exec_of_ok rfl hexec rfl⟩
  · refine failsWith_of_raise rfl ?_
    rw [commandExec_peekBits (widthLegal_of h1 h32), bits_curPos_outOfBounds hb]
    rfl

/-- Settles O52: the second field begins where the first ends, so the two are one field of both widths. -/
theorem readBitsSplit : Obligations.ReadBitsSplit := by
  intro s t u w v x p hw1 hv1 hx hx32 hp ht hterr hu huerr
  obtain ⟨hfirst, hcur, hsame⟩ := bits_of_exec_readBits ht hterr
  obtain ⟨hsecond, -, -⟩ := bits_of_exec_readBits hu huerr
  rw [hsame, hcur] at hsecond
  have hsame' : State.bits { s with arg0 := p } = s.bits := State.bits_of_eq rfl rfl
  have hexec : State.commandExec { s with arg0 := p } (.bitField x) =
      .ok { res0 := some (BitVec.ofNat 32 (t.res0.toNat * 2 ^ v.toNat + u.res0.toNat)) } := by
    rw [commandExec_bitField _ (widthLegal_of (by omega) hx32), hsame', hp, hx, State.bits_append hfirst hsecond]
    rfl
  exact exec_of_ok rfl hexec rfl

/-- Settles O53: PEEKBITS changes neither SECBUF nor BUFLEN nor CURPOS, so Bits at CURPOS answers the same again. -/
theorem peekAgreesWithReadAndField : Obligations.PeekAgreesWithReadAndField := by
  intro s t w ht hterr
  obtain ⟨wr, hwr, rfl⟩ := exec_success ht hterr
  obtain ⟨hw, v, hv, rfl⟩ := peekBits_ok hwr
  obtain ⟨hin, -⟩ := State.bits_ok hv
  refine ⟨?_, fun p hp => ?_⟩
  · have hsame : State.bits (s.write { res0 := some (BitVec.ofNat 32 v) }).markDone = s.bits := State.bits_of_eq rfl rfl
    have hexec : State.commandExec (s.write { res0 := some (BitVec.ofNat 32 v) }).markDone (.readBits w) =
        .ok (readAnswer s.curPos.toNat w.toNat v) := by
      rw [commandExec_readBits hw, hsame, State.markDone_curPos, State.write_curPos, Option.getD_none, hv, Exec.ok_bind]
    exact ⟨_, exec_of_ok rfl hexec rfl, rfl, toNat_ofNat_curPos hin⟩
  · have hsame : State.bits { s with arg0 := p } = s.bits := State.bits_of_eq rfl rfl
    have hexec : State.commandExec { s with arg0 := p } (.bitField w) = .ok { res0 := some (BitVec.ofNat 32 v) } := by
      rw [commandExec_bitField _ hw, hsame, hp, hv]
      rfl
    exact exec_of_ok rfl hexec rfl

end Sys2Proof.Machine
end

section
/-! PROOF. HUFFDEC (43_huffman.md): its results and errors over a string of characters, the machines that refuse it, that it ends, and that the bits after HUFF_END do not matter. -/

namespace Sys2Proof.Machine

/-! ### The two HUFFDEC commands as one -/

theorem isStringCommand_huffDec (t : CodeTable) : isStringCommand (huffDec t) = true := by
  cases t <;> rfl

theorem commandExec_huffDec (s : State) (t : CodeTable) : s.commandExec (huffDec t) = s.huffDecode t := by
  cases t <;> rfl

/-- An error of a string command empties the output too (R124). -/
theorem stringFailsWith_of_raise {i : Instr} {s : State} {c : ErrCode} {info : Word} (hi : isStringCommand i = true)
    (h : s.commandExec i = raise c info) : StringFailsWith i s c info :=
  exec_eq_next.2 (.stringFailure c info hi h)

/-- What HUFFDEC names after the characters `r.1` and `r.2` bits (R203). -/
def huffAnswer (r : List Half × Nat) : Writes :=
  { out := some r.1, res0 := some (BitVec.ofNat 32 r.1.length), res1 := some (BitVec.ofNat 32 r.2) }

/-- The loop of HUFFDEC over its whole span, from the first bit on (R203). -/
def State.huffSpan (s : State) (t : CodeTable) : Exec (List Half × Nat) :=
  s.huffLoop t (8 * s.arg0.toNat) (8 * s.arg1.toNat) (8 * s.arg1.toNat + 1) 0 s.build.huffCtxStart []

/-- A HUFFDEC with a meaning and a span in bounds is its loop (R203). -/
theorem commandExec_huffDec_inBounds {s : State} (t : CodeTable) (ho : huffOk s.build = true)
    (hb : s.arg0.toNat + s.arg1.toNat ≤ s.bufLen.toNat) :
    s.commandExec (huffDec t) = s.huffSpan t >>= fun r => .ok (huffAnswer r) :=
  (commandExec_huffDec s t).trans (State.huffDecode_eq t ho hb)

/-! ### Reading the span from `q` on -/

section
variable {s : State} {t : CodeTable} {base total fuel q : Nat} {ctx : Symbol} {out : List Half}

/-- The bits of a string that is there, as the loop reads them (R204). -/
theorem State.spanBit_holds {w : List Bool} (hb : base + total ≤ 8 * s.bufLen.toNat) (hw : s.holdsBits (base + q) w)
    (hq : q + w.length ≤ total) : ∀ k b, w[k]? = some b → s.spanBit base (q + k) = .ok b := by
  intro k b hk
  obtain ⟨hlt, -⟩ := List.getElem?_eq_some_iff.1 hk
  exact State.spanBit_some (Nat.add_assoc base q k ▸ hw k b hk) (by omega)

/-- A code word that cannot be read ends the loop with its error. -/
theorem State.huffLoop_raise {c : ErrCode} {info : Word}
    (h : readCodeWord (huffCode s.build t ctx) (s.spanBit base) q (total - q) q [] = raise c info) :
    s.huffLoop t base total (fuel + 1) q ctx out = raise c info := by
  rw [State.huffLoop, h, Exec.raise_bind]

/-- A symbol fits a byte, as it has seven bits (R200). -/
theorem setWidth_symbol (sym : Symbol) : (sym.setWidth 8).setWidth 16 = sym.setWidth 16 := by
  apply BitVec.eq_of_toNat_eq
  have := sym.isLt
  simp only [BitVec.toNat_setWidth]
  omega

variable (ho : huffOk s.build = true) (hb : base + total ≤ 8 * s.bufLen.toNat)
include ho

/-- A literal fits a byte, as HUFF_LIT_BITS is at most 8 (R7). -/
theorem setWidth_literal {lit : List Bool} (hl : lit.length = s.build.huffLitBits) :
    (BitVec.ofNat 8 (bitsValue lit)).setWidth 16 = BitVec.ofNat 16 (bitsValue lit) := by
  obtain ⟨-, -, -, -, h8⟩ := (huffOk_iff _).1 ho
  have hlt : bitsValue lit < 2 ^ 8 :=
    Nat.lt_of_lt_of_le (bitsValue_lt lit) (Nat.pow_le_pow_right two_pos (hl ▸ h8))
  apply BitVec.eq_of_toNat_eq
  rw [BitVec.toNat_setWidth, BitVec.toNat_ofNat, BitVec.toNat_ofNat]
  omega

include hb

/-- The first of a string of characters is appended, and the loop goes on behind its bits. -/
theorem State.huffLoop_cons {c c' : Symbol} {bs : List Bool} {u : Half} {us : List Half}
    (h : Chars s.build t c bs (u :: us) c') :
    ∃ w bs' c1, bs = w ++ bs' ∧ Chars s.build t c1 bs' us c' ∧
      ∀ (fuel q : Nat) (out : List Half), s.holdsBits (base + q) w → q + w.length ≤ total →
        s.huffLoop t base total (fuel + 1) q c out =
          emit out u >>= s.huffLoop t base total fuel (q + w.length) c1 := by
  cases h with
  | char _ w sym bs' _ _ hm hend hesc hrest =>
    refine ⟨w, bs', _, rfl, hrest, fun fuel q out hw hq => ?_⟩
    rw [State.huffLoop_char ho hb hm hend hw hq, State.readChar_char hesc, Exec.ok_bind, setWidth_symbol]
  | esc _ w lit bs' _ _ hm hl hrest =>
    obtain ⟨-, -, hne, -, -⟩ := (huffOk_iff _).1 ho
    refine ⟨w ++ lit, bs', _, rfl, hrest, fun fuel q out hw hq => ?_⟩
    rw [State.holdsBits_append, Nat.add_assoc] at hw
    rw [List.length_append] at hq ⊢
    rw [State.huffLoop_char ho hb hm hne.symm hw.1 (by omega), State.readChar_esc hl hb (by omega) hw.2, Exec.ok_bind,
      setWidth_literal ho hl, Nat.add_assoc]

/-- One character more than OUTBUF holds is OUT_OVERFLOW (R203). -/
theorem State.huffLoop_overflow : ∀ (us : List Half) {c c' : Symbol} {bs : List Bool} {fuel q : Nat}
    {out : List Half}, Chars s.build t c bs us c' → s.holdsBits (base + q) bs → q + bs.length ≤ total →
    out.length ≤ 4096 → 4096 < out.length + us.length → us.length ≤ fuel →
    s.huffLoop t base total fuel q c out = raise .outOverflow 4096
  | [], _, _, _, _, _, _, _, _, _, hout, hmore, _ => by
    rw [List.length_nil] at hmore
    omega
  | u :: us, c, c', bs, fuel, q, out, h, hh, hq, hout, hmore, hfuel => by
    obtain ⟨w, bs', c1, rfl, hrest, hturn⟩ := State.huffLoop_cons ho hb h
    obtain ⟨fuel, rfl⟩ : ∃ f, fuel = f + 1 := ⟨fuel - 1, by simp only [List.length_cons] at hfuel; omega⟩
    rw [State.holdsBits_append, Nat.add_assoc] at hh
    simp only [List.length_cons, List.length_append] at hq hmore hfuel
    rw [hturn fuel q out hh.1 (by omega)]
    rcases emit_cases out u with ⟨-, he⟩ | ⟨hne, he⟩
    · rw [he, Exec.raise_bind]
    · have hlen : (out ++ [u]).length = out.length + 1 := List.length_append
      rw [he, Exec.ok_bind]
      exact State.huffLoop_overflow us hrest hh.2 (by omega) (by omega) (by omega) (by omega)

end

/-! ### HUFFDEC over a string of characters -/

section
variable {s : State} {t : CodeTable} {bs : List Bool} {out : List Half} {c : Symbol}

/-- A span in bounds, as the loop needs it: in bits. -/
theorem State.span_bits (hb : s.arg0.toNat + s.arg1.toNat ≤ s.bufLen.toNat) :
    8 * s.arg0.toNat + 8 * s.arg1.toNat ≤ 8 * s.bufLen.toNat := by omega

/-- Where the loop stops with an error, so does HUFFDEC. -/
theorem stringFailsWith_of_huffSpan {code : ErrCode} {info : Word} (ho : huffOk s.build = true)
    (hb : s.arg0.toNat + s.arg1.toNat ≤ s.bufLen.toNat)
    (h : s.huffSpan t = raise code info) : StringFailsWith (huffDec t) s code info := by
  refine stringFailsWith_of_raise (isStringCommand_huffDec t) ?_
  rw [commandExec_huffDec_inBounds t ho hb, h, Exec.raise_bind]

/-- Where the loop answers, HUFFDEC names its answer. -/
theorem exec_huffDec_ok {r : List Half × Nat} (ho : huffOk s.build = true)
    (hb : s.arg0.toNat + s.arg1.toNat ≤ s.bufLen.toNat) (h : s.huffSpan t = .ok r) :
    exec (huffDec t) s = .next (s.write (huffAnswer r)).markDone := by
  refine exec_eq_next.2 (.success _ ?_)
  rw [commandExec_huffDec_inBounds t ho hb, h, Exec.ok_bind]

/-- After the bits of at most 4096 characters the loop stands behind them, with a turn left. -/
theorem State.huffSpan_after_chars (ho : huffOk s.build = true) (hb : s.arg0.toNat + s.arg1.toNat ≤ s.bufLen.toNat)
    (hc : Chars s.build t s.build.huffCtxStart bs out c) (hh : s.holdsBits (8 * s.arg0.toNat) bs)
    (hl : bs.length ≤ 8 * s.arg1.toNat) (hout : out.length ≤ 4096) :
    ∃ fuel, s.huffSpan t =
      s.huffLoop t (8 * s.arg0.toNat) (8 * s.arg1.toNat) (fuel + 1) bs.length c out := by
  have hle := Chars.length_le ho hc
  refine ⟨8 * s.arg1.toNat - out.length, ?_⟩
  rw [State.huffSpan, State.huffLoop_chars ho (State.span_bits hb) hc _ 0 [] hh (by omega) (by simpa using hout)
    (by omega), Nat.zero_add, List.nil_append, Nat.sub_add_comm (by omega)]

end

/-- Where HUFFDEC succeeds, it is well formed, its span is in bounds, and the loop answered (R203). -/
theorem huffDec_ok {s : State} {t : CodeTable} {x : Writes} (h : s.commandExec (huffDec t) = .ok x) :
    huffOk s.build = true ∧ s.arg0.toNat + s.arg1.toNat ≤ s.bufLen.toNat ∧
      ∃ r, s.huffSpan t = .ok r ∧ x = huffAnswer r := by
  cases ho : huffOk s.build with
  | false => simp [commandExec_huffDec, State.huffDecode, ho] at h
  | true =>
    by_cases hb : s.arg0.toNat + s.arg1.toNat ≤ s.bufLen.toNat
    · rw [commandExec_huffDec_inBounds t ho hb] at h
      obtain ⟨r, hr, hx⟩ := Exec.bind_eq_ok.1 h
      exact ⟨rfl, hb, r, hr, (Except.ok.inj hx).symm⟩
    · simp [commandExec_huffDec, State.huffDecode, ho, State.bytesInBounds, hb, raise] at h

/-- HUFFDEC past BUFLEN names ARG0 (R203). -/
theorem State.huffDecode_outOfBounds {s : State} (t : CodeTable) (ho : huffOk s.build = true)
    (hb : s.bufLen.toNat < s.arg0.toNat + s.arg1.toNat) : s.huffDecode t = raise .outOfBounds s.arg0 := by
  simp [State.huffDecode, ho, State.bytesInBounds, Nat.not_le.2 hb]

/-- HUFFDEC of a machine whose codes have no meaning (R201). -/
theorem State.huffDecode_refused {s : State} (t : CodeTable) (h : huffOk s.build = false) :
    s.huffDecode t = .error (.refusal .huffCodeIllFormed) := by
  simp [State.huffDecode, h]

/-- A span of written bytes is a span of written bits. -/
theorem State.fieldWritten_span {s : State} {off n : Nat}
    (h : ∀ k, k < n → (s.secBuf.get (off + k)).isSome = true) : s.fieldWritten (8 * off) (8 * n) := by
  intro k hk
  have hbyte := h (k / 8) (by omega)
  rw [Memory.bit, Option.isSome_map]
  rwa [show (8 * off + k) / 8 = off + k / 8 by omega]

/-! ### The obligations -/

/-- Settles O38: behind the characters the loop reads the code word of HUFF_END and ends. -/
theorem huffDecResult : Obligations.HuffDecResult := by
  intro s t bs w out c ho hb hc hend hh hl hout
  rw [State.holdsBits_append] at hh
  rw [List.length_append] at hl ⊢
  obtain ⟨fuel, hloop⟩ := State.huffSpan_after_chars ho hb hc hh.1 (by omega) hout
  exact exec_huffDec_ok ho hb (hloop.trans (State.huffLoop_end ho (State.span_bits hb) hend hh.2 hl))

/-- Settles O39: behind the characters the next code word or literal is cut short or is none; a 4097th character has no place. -/
theorem huffDecErrors : Obligations.HuffDecErrors := by
  refine ⟨fun s t ho hb => ?_, fun s t bs w out c ho hb hc hh hout => ?_, fun s t bs out c ho hb hc hh hl hout => ?_⟩
  · exact stringFailsWith_of_raise (isStringCommand_huffDec t)
      ((commandExec_huffDec s t).trans (State.huffDecode_outOfBounds t ho hb))
  · have hspan := State.span_bits hb
    rw [State.holdsBits_append] at hh
    rw [List.length_append]
    obtain ⟨hchars, hword⟩ := hh
    have after := fun hl => State.huffSpan_after_chars ho hb hc hchars hl hout
    refine ⟨fun hw hl => ?_, fun hesc hl hcut => ?_, fun b hw hl hp hnone hext => ?_⟩
    · obtain ⟨fuel, hloop⟩ := after (by omega)
      have hleft : 8 * s.arg1.toNat - bs.length = w.length := by omega
      refine stringFailsWith_of_huffSpan ho hb (hloop.trans (State.huffLoop_raise ?_))
      rw [hleft, readCodeWord_truncated (huffOk_code ho t c) hw (State.spanBit_holds hspan hword (by omega)), hl]
    · obtain ⟨fuel, hloop⟩ := after (by omega)
      obtain ⟨-, -, hne, -, -⟩ := (huffOk_iff _).1 ho
      refine stringFailsWith_of_huffSpan ho hb (hloop.trans ?_)
      rw [State.huffLoop_char ho hspan hesc hne.symm hword hl, State.readChar_esc_truncated hcut, Exec.raise_bind]
    · obtain ⟨fuel, hloop⟩ := after (by omega)
      have hbits := State.spanBit_holds hspan hword hl
      rw [hw] at hnone hext hbits hl
      rw [List.length_append, List.length_singleton] at hl
      exact stringFailsWith_of_huffSpan ho hb (hloop.trans (State.huffLoop_raise
        (readCodeWord_bad (huffOk_code ho t c) hp hnone hext (by omega) hbits)))
  · have hle := Chars.length_le ho hc
    refine stringFailsWith_of_huffSpan ho hb ?_
    exact State.huffLoop_overflow ho (State.span_bits hb) out hc hh (by omega) (Nat.zero_le _)
      (by rw [List.length_nil]; omega) (by omega)

/-- Settles O40: either parameter contradicts `huffOk`. -/
theorem illFormedCodesAreRefused : Obligations.IllFormedCodesAreRefused := by
  intro s t h
  have hill : huffOk s.build = false := by
    refine Bool.eq_false_iff.2 fun ho => ?_
    rcases h with heq | ⟨t', c, a, b, ha, hb, hprefix, hne⟩
    · obtain ⟨-, -, hends, -, -⟩ := (huffOk_iff _).1 ho
      exact hends heq
    · exact hne (congrArg CodeWord.bits (codeOk_prefix (huffOk_code ho t' c) ha hb hprefix))
  exact exec_eq_refused.2 ((commandExec_huffDec s t).trans (State.huffDecode_refused t hill))

/-- Settles O41: over written bytes the loop meets no fault, and its errors are the three of R208. -/
theorem huffDecEnds : Obligations.HuffDecEnds := by
  intro s t ho herr hb hwritten
  have hspan := State.span_bits hb
  cases hloop : s.huffSpan t with
  | ok r => exact ⟨_, exec_huffDec_ok ho hb hloop, .inl ⟨rfl, herr⟩⟩
  | error e =>
    have hstops := State.huffLoop_stops (codes := [.huffTruncated, .huffBadCode, .outOverflow]) (refusals := [])
      (t := t) (by simp) (by simp) (by simp) hspan _ 0 _ _ (Nat.zero_le _) e hloop
    cases e with
    | error code info =>
      exact ⟨_, stringFailsWith_of_huffSpan ho hb hloop, .inr ⟨rfl, hstops⟩⟩
    | fault f =>
      exact absurd hloop
        (State.huffLoop_noFault f hspan (State.fieldWritten_span hwritten) _ 0 _ _ (Nat.zero_le _))
    | refusal r => exact absurd hstops (List.not_mem_nil)

/-- Settles O42: the loop reads no bit past those it consumes, whose number is RES1. -/
theorem huffDecIgnoresPadBits : Obligations.HuffDecIgnoresPadBits := by
  intro s u t m hu herr hagree
  obtain ⟨x, hx, rfl⟩ := exec_success hu herr
  obtain ⟨ho, hb, r, hr, rfl⟩ := huffDec_ok hx
  obtain ⟨-, hle⟩ := State.huffLoop_ok _ _ _ _ (Nat.zero_le _) hr
  have hres1 : (BitVec.ofNat 32 r.2).toNat = r.2 := by
    have hlen := s.bufLen.isLt
    rw [BitVec.toNat_ofNat, Nat.mod_eq_of_lt (by omega)]
  have hsame : State.huffSpan { s with secBuf := m } t = .ok r :=
    State.huffLoop_congr (s := s) (s' := { s with secBuf := m }) rfl rfl _ _ _ _ (Nat.zero_le _) hr
      fun k _ hk => hagree k (hk.trans_eq hres1.symm)
  exact exec_huffDec_ok (s := { s with secBuf := m }) ho hb hsame

end Sys2Proof.Machine
end

section
/-! PROOF. DVBTEXT (44_dvbtext.md): the two mappings, and the results and errors of the decoder. -/

namespace Sys2Proof.Machine

/-! ### The mappings (R233, R234) -/

section
variable (tb : IsoTables) (p : IsoPart) {c : Byte}

theorem mapByte_newline : mapByte tb p 0x8A = .ok (some 0x000A) := rfl

theorem mapByte_control (hlo : 0x80 ≤ c.toNat) (hhi : c.toNat ≤ 0x9F) (hne : c ≠ 0x8A) : mapByte tb p c = .ok none := by
  rw [mapByte, if_neg hne, if_pos ⟨hlo, hhi⟩]

theorem mapByte_ascii (h : c.toNat ≤ 0x7F) : mapByte tb p c = .ok (some (c.setWidth 16)) := by
  have hne : c ≠ 0x8A := by
    rintro rfl
    exact absurd h (by decide)
  rw [mapByte, if_neg hne, if_neg (by omega), if_pos h]

theorem mapByte_upper {tab : UpperHalf} (ht : isoTable tb p = some tab) {k : Fin 96} (h : c.toNat = 0xA0 + k.val) :
    mapByte tb p c = .ok (some tab[k]) := by
  have hne : c ≠ 0x8A := by
    rintro rfl
    have : (0x8A : Byte).toNat = 138 := rfl
    omega
  have hcode : upperCode tab c = tab[k] := by
    simp only [upperCode, h, Nat.add_sub_cancel_left]
    rfl
  rw [mapByte, if_neg hne, if_neg (by omega), if_neg (by omega), ht]
  exact congrArg (fun u => Except.ok (some u)) hcode

end

theorem mapUnit_newline : mapUnit 0xE08A = some 0x000A := rfl

theorem mapUnit_control {u : Half} (hlo : 0xE080 ≤ u.toNat) (hhi : u.toNat ≤ 0xE09F) (hne : u ≠ 0xE08A) :
    mapUnit u = none := by
  rw [mapUnit, if_neg hne, if_pos ⟨hlo, hhi⟩]

theorem mapUnit_other {u : Half} (h : u.toNat < 0xE080 ∨ 0xE09F < u.toNat) : mapUnit u = some u := by
  have hne : u ≠ 0xE08A := by
    rintro rfl
    exact absurd h (by decide)
  rw [mapUnit, if_neg hne, if_neg (by omega)]

/-! ### The decoder -/

section
variable {s : State}

theorem State.textDecode_outOfBounds (hb : s.bufLen.toNat < s.arg0.toNat + s.arg1.toNat) :
    s.textDecode = raise .outOfBounds s.arg0 := by
  simp [State.textDecode, State.bytesInBounds, Nat.not_le.2 hb]

/-- The empty span is the default table with no characters (R231). -/
theorem State.textDecode_empty (hb : s.arg0.toNat ≤ s.bufLen.toNat) (h0 : s.arg1.toNat = 0) :
    s.textDecode = .ok (textWrites [] (.iso s.build.dvbDefault)) := by
  simp [State.textDecode, State.bytesInBounds, h0, hb]

variable (hb : s.arg0.toNat + s.arg1.toNat ≤ s.bufLen.toNat) (h1 : 1 ≤ s.arg1.toNat)
include hb h1

/-- A span with bytes in it: the selector, then the characters (R232). -/
theorem State.textDecode_eq : s.textDecode =
    s.selector s.arg0.toNat s.arg1.toNat >>= fun r =>
      s.decodeChars r.1 r.2 (s.arg0.toNat + s.arg1.toNat) s.arg1.toNat >>= fun out => .ok (textWrites out r.1) := by
  rw [State.textDecode, if_pos (by simpa [State.bytesInBounds] using hb),
    if_neg (show ¬s.arg1.toNat = 0 by omega)]

/-- Where the selector stops, so does DVBTEXT. -/
theorem textFails_of_selector {code : ErrCode} {info : Word}
    (h : s.selector s.arg0.toNat s.arg1.toNat = raise code info) : StringFailsWith .dvbText s code info := by
  refine stringFailsWith_of_raise rfl ((State.textDecode_eq hb h1).trans ?_)
  rw [h, Exec.raise_bind]

/-- An odd number of UCS-2 bytes is found before any of them is read (R232). -/
theorem textFails_of_odd_ucs2 (hsel : s.secBuf.get s.arg0.toNat = some 0x11) (hodd : (s.arg1.toNat - 1) % 2 = 1) :
    StringFailsWith .dvbText s .textTruncated s.arg1 := by
  have hheld : s.holds s.arg0.toNat [0x11] := (s.holds_cons _ _ _).2 ⟨hsel, s.holds_nil _⟩
  have hfirst : s.arg0.toNat + 1 ≤ s.bufLen.toNat := by omega
  obtain ⟨hok, -, -⟩ := State.selector_of (.ucs2 []) hheld hfirst h1
  have hlen : s.arg0.toNat + s.arg1.toNat - (s.arg0.toNat + 1) = s.arg1.toNat - 1 := by omega
  refine stringFailsWith_of_raise rfl ((State.textDecode_eq hb h1).trans ?_)
  simp only [hok, Exec.ok_bind, State.decodeChars, List.length_singleton, List.length_nil, hlen, hodd, if_true,
    Exec.raise_bind, BitVec.ofNat_toNat, BitVec.setWidth_eq]

end

/-- A text of R231's table is not empty. -/
theorem Selects.length_pos {b : Build} {span chars : List Byte} {enc : TextEnc} (h : Selects b span enc chars) :
    1 ≤ span.length := by
  cases h <;> exact Nat.succ_pos _

/-- DVBTEXT over a text of R231's table gives what the loop over its characters does (R232). -/
theorem exec_dvbText_selects {s : State} {span chars : List Byte} {enc : TextEnc} {us : List Half}
    (hb : s.arg0.toNat + s.arg1.toNat ≤ s.bufLen.toNat) (hl : span.length = s.arg1.toNat)
    (hh : s.holds s.arg0.toNat span) (hs : Selects s.build span enc chars)
    (hdec : ∀ i, s.holds i chars → i + chars.length = s.arg0.toNat + s.arg1.toNat →
      s.decodeChars enc i (s.arg0.toNat + s.arg1.toNat) s.arg1.toNat = .ok us) :
    exec .dvbText s = .next (s.write (textWrites us enc)).markDone := by
  have h1 := hs.length_pos
  obtain ⟨hsel, hchars, hle⟩ := State.selector_of hs hh (hl ▸ hb) hl.le
  refine exec_eq_next.2 (.success _ ((State.textDecode_eq hb (by omega)).trans ?_))
  rw [hsel, Exec.ok_bind, hdec _ hchars (by omega), Exec.ok_bind]

/-- The bytes of code units are twice as many as the units. -/
theorem length_unitBytes (us : List Half) :
    (us.flatMap fun u => [u.extractLsb' 8 8, u.extractLsb' 0 8]).length = 2 * us.length := by
  simp [List.length_flatMap, Nat.mul_comm]

/-! ### The obligations -/

/-- Settles O45, by the branches of the two mappings. -/
theorem textMappings : Obligations.TextMappings :=
  ⟨fun tb p _ => ⟨mapByte_ascii tb p, fun h => h ▸ mapByte_newline tb p, mapByte_control tb p,
    fun _ ht _ h => mapByte_upper tb p ht h⟩, fun _ => ⟨fun h => h ▸ mapUnit_newline, mapUnit_control, mapUnit_other⟩⟩

/-- Settles O43, by the empty span and the two loops over the characters that the selector leaves. -/
theorem dvbTextResult : Obligations.DvbTextResult := by
  refine ⟨fun s h0 hb => exec_eq_next.2 (.success (i := .dvbText) _ (State.textDecode_empty hb h0)),
    fun s span chars p us hlen hb hl hh hs hmap => ?_, fun s span units hlen hb hl hh hs => ?_⟩
  · refine exec_dvbText_selects hb hl hh hs fun i hi hend => ?_
    rw [State.decodeChars, show s.arg0.toNat + s.arg1.toNat - i = chars.length by omega,
      State.decodeBytes_holds chars us i [] hi (by omega) hmap (by rw [List.length_nil]; omega), List.nil_append]
  · refine exec_dvbText_selects hb hl hh hs fun i hi hend => ?_
    rw [length_unitBytes] at hend
    have hleft : s.arg0.toNat + s.arg1.toNat - i = 2 * units.length := by omega
    rw [State.decodeChars, hleft, if_neg (by omega), Nat.mul_div_cancel_left _ two_pos,
      State.decodeUnits_holds units i [] hi (by omega) (by rw [List.length_nil]; omega), List.nil_append]

/-- Settles O44: the bounds, the errors of the selector, and the odd UCS-2 length, each from the selector's own bytes. -/
theorem dvbTextErrors : Obligations.DvbTextErrors := by
  refine ⟨fun s hb => stringFailsWith_of_raise rfl (State.textDecode_outOfBounds hb), fun s b0 hb h1 hh => ?_⟩
  have hb0 : s.secBuf.get s.arg0.toNat = some b0 := ((s.holds_cons _ _ _).1 hh).1
  have hfirst : s.arg0.toNat + 1 ≤ s.bufLen.toNat := by omega
  refine ⟨fun hk => ?_, ?_, ?_, ?_⟩
  · rw [← BitVec.ofNat_toNat]
    exact textFails_of_selector hb h1 (State.selector_unsupported hb0 hfirst hk)
  · rintro rfl hcut
    refine textFails_of_selector hb h1 ((State.selector_truncated hb0 hfirst hcut).trans ?_)
    rw [BitVec.ofNat_toNat, BitVec.setWidth_eq]
  · rintro b1 b2 rfl h3 hh3 hk
    exact textFails_of_selector hb h1 (State.selector_unsupported_long hh3 (by omega) h3 hk)
  · rintro rfl hodd
    exact textFails_of_odd_ucs2 hb h1 hb0 hodd

end Sys2Proof.Machine
end

section
/-! PROOF. The frames of all commands at once (40_lifecycle.md): what a command that completes leaves alone, what a failure changes, and what a command depends on. -/

namespace Sys2Proof.Machine

/-! ### What a success leaves alone -/

/-- The results a command does not name (R36 to R38, R40, R150, R183, R207, R236). -/
structure Writes.Spares (i : Instr) (w : Writes) : Prop where
  res0    : i ∈ [.nop, .seekBit, .setCrc] → w.res0 = none
  res1    : i ∉ [.sliceAt, .secHdr, .verifyCrc, .huffDecC5, .huffDecC7, .dvbText] → w.res1 = none
  curPos  : i ≠ .seekBit → (∀ v, i ≠ .readBits v) → w.curPos = none
  out     : i ∉ [.huffDecC5, .huffDecC7, .dvbText] → w.out = none
  trailer : i ≠ .setCrc → w.trailer = none

/-- By the results each command names. -/
theorem Names.spares {s : State} {i : Instr} {w : Writes} (h : Names s i w) : w.Spares i := by
  cases i
  case nop =>
    obtain rfl := h
    exact ⟨fun _ => rfl, fun _ => rfl, fun _ _ => rfl, fun _ => rfl, fun _ => rfl⟩
  case byteAt | word16At | word32At | isClone | bitField | peekBits | hasCrc | calcCrc | secCrc =>
    obtain ⟨v, rfl⟩ := h
    exact ⟨fun hi => by simp at hi, fun _ => rfl, fun _ _ => rfl, fun _ => rfl, fun _ => rfl⟩
  case sliceAt | secHdr | verifyCrc =>
    obtain ⟨v, u, rfl⟩ := h
    exact ⟨fun hi => by simp at hi, fun hi => by simp at hi, fun _ _ => rfl, fun _ => rfl, fun _ => rfl⟩
  case seekBit =>
    obtain ⟨p, -, rfl⟩ := h
    exact ⟨fun _ => rfl, fun _ => rfl, fun hi => absurd rfl hi, fun _ => rfl, fun _ => rfl⟩
  case readBits =>
    obtain ⟨v, p, -, rfl⟩ := h
    exact ⟨fun hi => by simp at hi, fun _ => rfl, fun _ hi => absurd rfl (hi _), fun _ => rfl, fun _ => rfl⟩
  case setCrc =>
    obtain ⟨off, -, rfl⟩ := h
    exact ⟨fun _ => rfl, fun _ => rfl, fun _ _ => rfl, fun _ => rfl, fun hi => absurd rfl hi⟩
  case huffDecC5 | huffDecC7 | dvbText =>
    obtain ⟨us, v, u, -, rfl⟩ := h
    exact ⟨fun hi => by simp at hi, fun hi => by simp at hi, fun _ _ => rfl, fun hi => by simp at hi, fun _ => rfl⟩

theorem isStringCommand_eq_false_iff {i : Instr} :
    isStringCommand i = false ↔ i ∉ [.huffDecC5, .huffDecC7, .dvbText] := by
  rw [← isStringCommand_iff, Bool.not_eq_true]

/-! ### The same success over two states -/

/-- Equal bytes stay equal under the same write. -/
theorem Memory.get_writeBE_congr {m m' : Memory} {a : Nat} (n off v : Nat) (h : m'.get a = m.get a) :
    (m'.writeBE n off v).get a = (m.writeBE n off v).get a := by
  by_cases ha : a < off ∨ off + n ≤ a
  · rw [Memory.get_writeBE_outside n m' off v a ha, Memory.get_writeBE_outside n m off v a ha, h]
  · obtain ⟨j, rfl⟩ : ∃ j, a = off + j := ⟨a - off, by omega⟩
    rw [Memory.get_writeBE_inside n m' off v j (by omega), Memory.get_writeBE_inside n m off v j (by omega)]

section
variable {s s' : State} {w : Writes}

/-- OUTLEN after a success, as a function of what is named (R38). -/
theorem State.write_outLen (s : State) (w : Writes) :
    (s.write w).outLen = (w.out.map fun u => BitVec.ofNat 13 u.length).getD s.outLen := by
  cases hw : w.out with
  | none => exact s.write_outLen_none w hw
  | some u => exact s.write_outLen_some w u hw

/-- A success, field by field (R122). -/
theorem State.write_markDone_eq (s : State) (w : Writes) : (s.write w).markDone = { s with
    res0 := w.res0.getD s.res0, res1 := w.res1.getD s.res1, curPos := w.curPos.getD s.curPos
    outBuf := w.out.getD s.outBuf, outLen := (w.out.map fun u => BitVec.ofNat 13 u.length).getD s.outLen
    secBuf := (s.write w).secBuf, status := doneStatus s.status } := by
  rw [← State.write_outLen]
  rfl

/-- Where two states agree on a byte of SECBUF they agree after the same writes. -/
theorem State.write_secBuf_congr {a : Nat} (h : s'.secBuf.get a = s.secBuf.get a) :
    (s'.write w).secBuf.get a = (s.write w).secBuf.get a := by
  cases hw : w.trailer with
  | none => rw [s'.write_secBuf_none w hw, s.write_secBuf_none w hw, h]
  | some tr =>
    rw [s'.write_secBuf_some w tr.1 tr.2 hw, s.write_secBuf_some w tr.1 tr.2 hw]
    exact Memory.get_writeBE_congr 4 tr.1 _ h

/-- A trailer below BUFLEN leaves every byte at and above BUFLEN (R180). -/
theorem Writes.Fits.write_secBuf_above {a : Nat} (hw : w.Fits s) (ha : s.bufLen.toNat ≤ a) :
    (s.write w).secBuf.get a = s.secBuf.get a := by
  cases ht : w.trailer with
  | none => rw [s.write_secBuf_none w ht]
  | some tr =>
    have hfit := hw.trailer tr.1 tr.2 ht
    rw [s.write_secBuf_some w tr.1 tr.2 ht, Memory.get_writeBE_outside 4 _ _ _ _ (by omega)]

end

/-! ### The obligations -/

/-- Settles O46: neither a success nor an error touches these fields, and each ends BUSY with its flag. -/
theorem commandFrame : Obligations.CommandFrame := by
  intro i s t h
  cases exec_eq_next.1 h with
  | success => exact ⟨rfl, rfl, rfl, rfl, rfl, rfl, rfl, .inl rfl, rfl, rfl, rfl, rfl, rfl⟩
  | failure => exact ⟨rfl, rfl, rfl, rfl, rfl, rfl, rfl, .inr rfl, rfl, rfl, rfl, rfl, rfl⟩
  | stringFailure => exact ⟨rfl, rfl, rfl, rfl, rfl, rfl, rfl, .inr rfl, rfl, rfl, rfl, rfl, rfl⟩

/-- Settles O47: a success writes what its command names; an error writes no result, and empties the output of a string command only. -/
theorem resultRegisterFrame : Obligations.ResultRegisterFrame := by
  intro i s t h
  cases exec_eq_next.1 h with
  | success w hw =>
    obtain ⟨hres0, hres1, hcur, hout, -⟩ := (State.commandExec_names hw).spares
    refine ⟨fun hi => ?_, fun hi => ?_, fun hi hi' => ?_, fun hi => ⟨?_, ?_⟩⟩
    · rw [State.markDone_res0, State.write_res0, hres0 hi, Option.getD_none]
    · rw [State.markDone_res1, State.write_res1, hres1 hi, Option.getD_none]
    · rw [State.markDone_curPos, State.write_curPos, hcur hi hi', Option.getD_none]
    · exact s.write_outLen_none w (hout hi)
    · rw [State.markDone_outBuf, State.write_outBuf, hout hi, Option.getD_none]
  | failure => exact ⟨fun _ => rfl, fun _ => rfl, fun _ _ => rfl, fun _ => ⟨rfl, rfl⟩⟩
  | stringFailure c info hi =>
    exact ⟨fun _ => rfl, fun _ => rfl, fun _ _ => rfl, fun hno => absurd ((isStringCommand_iff i).1 hi) hno⟩

/-- Settles O48: only SETCRC's success names a trailer, and only where its offset is found. -/
theorem secBufFrame : Obligations.SecBufFrame := by
  intro i s t h
  cases exec_eq_next.1 h with
  | success w hw =>
    have hnames := State.commandExec_names hw
    refine ⟨fun hi a => ?_, ?_⟩
    · rw [State.markDone_secBuf, s.write_secBuf_none w (hnames.spares.trailer hi)]
    · rintro rfl
      obtain ⟨off, hoff, rfl⟩ := hnames
      refine ⟨fun off' hoff' => ?_, fun hno => absurd hoff (hno off)⟩
      cases hoff.symm.trans hoff'
      exact ⟨fun a ha => Memory.get_writeBE_outside 4 _ _ _ _ ha, s.holds_writeBE_word _ off s.arg0⟩
  | failure c info _ hw =>
    refine ⟨fun _ _ => rfl, ?_⟩
    rintro rfl
    exact ⟨fun _ hoff => (nomatch (commandExec_setCrc_ok hoff).symm.trans hw), fun _ _ => rfl⟩
  | stringFailure c info hi hw =>
    refine ⟨fun _ _ => rfl, ?_⟩
    rintro rfl
    cases hi

/-- Settles O49: a success leaves ERR clear, so it was an error, whose two forms change just this. -/
theorem failedCommandsArePrecise : Obligations.FailedCommandsArePrecise := by
  intro i s t herr h hterr
  cases exec_eq_next.1 h with
  | success w hw => cases herr.symm.trans hterr
  | failure c info hi hw =>
    exact ⟨rfl, fun _ => rfl, fun hstring => absurd hstring (isStringCommand_eq_false_iff.1 hi)⟩
  | stringFailure c info hi hw =>
    exact ⟨rfl, fun hno => absurd ((isStringCommand_iff i).1 hi) hno, fun _ => ⟨rfl, fun _ => State.outByte_none rfl⟩⟩

/-- Settles O56: the Exec is the same over both states, so it ends the same way, and the same writes go to both. -/
theorem execReadsOnlyItsInputs : Obligations.ExecReadsOnlyItsInputs := by
  intro i s s' hcmd harg0 harg1 hclone hlen hcur hbuild hsec
  have hexec : s'.commandExec i = s.commandExec i :=
    SameInputs.commandExec ⟨hcmd, harg0, harg1, hclone, hlen, hcur, hbuild, hsec⟩ i
  refine ⟨fun f => ?_, fun r => ?_, fun t ht => ?_⟩
  · rw [exec_eq_fault, exec_eq_fault, hexec]
  · rw [exec_eq_refused, exec_eq_refused, hexec]
  · cases exec_eq_next.1 ht with
    | success w hw =>
      have hfits := (State.commandExec_names hw).fits
      have hfits' := (State.commandExec_names (hexec.trans hw)).fits
      refine .inl ⟨w, (s.write w).secBuf, (s'.write w).secBuf, s.write_markDone_eq w, ?_, fun a ha => ?_,
        fun a ha => ?_⟩
      · rw [← State.write_markDone_eq]
        exact exec_eq_next.2 (.success w (hexec.trans hw))
      · exact State.write_secBuf_congr (hsec a ha)
      · exact ⟨hfits.write_secBuf_above ha, hfits'.write_secBuf_above (hlen ▸ ha)⟩
    | failure c info hi hw =>
      exact .inr (.inl ⟨isStringCommand_eq_false_iff.1 hi, c, info, failsWith_of_raise hi hw,
        failsWith_of_raise hi (hexec.trans hw)⟩)
    | stringFailure c info hi hw =>
      exact .inr (.inr ⟨(isStringCommand_iff i).1 hi, c, info, stringFailsWith_of_raise hi hw,
        stringFailsWith_of_raise hi (hexec.trans hw)⟩)

end Sys2Proof.Machine
end

section
/-! PROOF. Where each command stops (R41, R65, R302, R303): the faults of its reads one after the other, and the two refusals. -/

namespace Sys2Proof.Machine

/-! ### Sequences that fault in their first part only -/

/-- A read whose rest cannot fault. -/
theorem Exec.faults_bind_left {α β : Type} {x : Exec α} {f : α → Exec β} (h : ∀ a, ¬Exec.Faults (f a)) :
    Exec.Faults (x >>= f) ↔ Exec.Faults x := by
  rw [Exec.faults_bind]
  exact or_iff_left fun ⟨a, _, ha⟩ => h a ha

theorem Exec.not_faults_ite {α : Type} {p : Prop} [Decidable p] {x y : Exec α} (hx : ¬Exec.Faults x)
    (hy : ¬Exec.Faults y) : ¬Exec.Faults (if p then x else y) := by
  split
  · exact hx
  · exact hy

section
variable {s : State}

/-! ### Reads into a register -/

theorem faults_answerOf {r : Exec Nat} : Exec.Faults (answerOf r) ↔ Exec.Faults r :=
  Exec.faults_bind_left fun _ => Exec.not_faults_ok _

/-- A width in 1..32 is checked before any bit is read (R91). -/
theorem State.faults_checkWidth_bind {α : Type} {w : Byte} {f : Unit → Exec α} :
    Exec.Faults (s.checkWidth w >>= f) ↔ 1 ≤ w.toNat ∧ w.toNat ≤ 32 ∧ Exec.Faults (f ()) := by
  have hlegal : widthLegal w = true ↔ 1 ≤ w.toNat ∧ w.toNat ≤ 32 := by
    simp only [widthLegal, Bool.and_eq_true, decide_eq_true_eq]
  rw [← and_assoc, ← hlegal]
  cases hw : widthLegal w with
  | true => simp [State.checkWidth, hw]
  | false => simp [State.checkWidth, hw]

/-! ### The commands on a header -/

/-- What the commands on a trailer read: the header, and where it has a trailer of good length, what comes then. -/
theorem State.checkTrailer_faults {α : Type} {least : Nat} {without : Header → Exec α} {within : Nat → Exec α}
    (h3 : 3 ≤ least) (hwithout : ∀ h, ¬Exec.Faults (without h)) :
    Exec.Faults (s.checkTrailer least without within) ↔ s.bytesUnwritten 0 3 ∨
      ∃ b0 b1 b2, s.holds 0 [b0, b1, b2] ∧ sectionHasCrc s.build b0 b1 ∧ least ≤ sectionLength s.build b0 b1 b2 ∧
        sectionLength s.build b0 b1 b2 ≤ s.bufLen.toNat ∧ Exec.Faults (within (sectionLength s.build b0 b1 b2)) := by
  constructor
  · intro h
    rcases s.readHdr_cases with ⟨-, b0, b1, b2, hh, hr⟩ | ⟨hshort, -⟩ | ⟨-, k, -, -, hr⟩
    · by_cases hc : sectionHasCrc s.build b0 b1
      · by_cases hl : s.bufLen.toNat < sectionLength s.build b0 b1 b2 ∨ sectionLength s.build b0 b1 b2 < least
        · rw [State.checkTrailer_badLength hr hc hl] at h
          exact absurd h (Exec.not_faults_raise _ _)
        · obtain ⟨hfits, hleast⟩ := not_or.1 hl
          rw [Nat.not_lt] at hfits hleast
          rw [State.checkTrailer_within hr hc hleast hfits] at h
          exact .inr ⟨b0, b1, b2, hh, hc, hleast, hfits, h⟩
      · rw [State.checkTrailer_without hr hc] at h
        exact absurd h (hwithout _)
    · rw [State.checkTrailer_short hshort] at h
      exact absurd h (Exec.not_faults_raise _ _)
    · exact .inl (State.readHdr_faults.1 (hr ▸ Exec.faults_fault _))
  · rintro (h | ⟨b0, b1, b2, hh, hc, hleast, hfits, h⟩)
    · exact Exec.faults_bind.2 (.inl (State.readHdr_faults.2 h))
    · rwa [State.checkTrailer_within (State.readHdr_holds hh (by omega)) hc hleast hfits]

/-- VERIFYCRC reads every byte of the section, its trailer included (R176). -/
theorem State.compareTrailer_faults {len : Nat} (h4 : 4 ≤ len) (hb : len ≤ s.bufLen.toNat) :
    Exec.Faults (s.compareTrailer len) ↔ s.bytesUnwritten 0 len := by
  have htrailer : ∀ c, Exec.Faults (s.memRead (len - 4) 4 >>= fun t =>
      (.ok { res0 := some (Word.ofBit (c == BitVec.ofNat 32 t)), res1 := some c } : Exec Writes)) ↔
        s.bytesUnwritten (len - 4) 4 := fun c =>
    (Exec.faults_bind_left fun _ => Exec.not_faults_ok _).trans (State.memRead_faults _ _)
  rw [State.compareTrailer, Exec.faults_bind, State.crc_faults]
  simp only [htrailer, exists_and_right]
  constructor
  · rintro (⟨-, k, hk, hnone⟩ | ⟨-, -, k, hk, hnone⟩)
    · exact ⟨by omega, k, by omega, hnone⟩
    · exact ⟨by omega, len - 4 + k, by omega, by rwa [Nat.zero_add]⟩
  · rintro ⟨-, k, hk, hnone⟩
    rw [Nat.zero_add] at hnone
    rcases s.crc_cases 0 (len - 4) with ⟨-, bs, hl, hh, hok⟩ | ⟨hout, -⟩ | ⟨hin, j, hj, hj', -⟩
    · refine .inr ⟨⟨_, hok⟩, by omega, k - (len - 4), ?_⟩
      have hge : ¬k < len - 4 := fun hlt => State.holds_get hh (hl ▸ hlt) (by rwa [Nat.zero_add])
      exact ⟨by omega, by rwa [show len - 4 + (k - (len - 4)) = k by omega]⟩
    · omega
    · exact .inl ⟨hin, j, hj, hj'⟩

/-- SECCRC reads the bytes before the trailer (R179). -/
theorem State.answerCrc_faults (len : Nat) : Exec.Faults (s.answerCrc len) ↔ s.bytesUnwritten 0 (len - 4) :=
  (Exec.faults_bind_left fun _ => Exec.not_faults_ok _).trans (State.crc_faults _ _)

theorem not_faults_noTrailer {α : Type} (h : Header) : ¬Exec.Faults (noTrailer h : Exec α) :=
  Exec.not_faults_raise _ _

/-- SETCRC reads the header of an owned buffer and nothing else (R180). -/
theorem State.trailerOffset_faults :
    Exec.Faults s.trailerOffset ↔ s.ctrl.clone = true ∧ s.bytesUnwritten 0 3 := by
  cases hown : s.ctrl.clone with
  | false => simp [State.trailerOffset_shared hown]
  | true =>
    rw [State.trailerOffset_owned hown, State.checkTrailer_faults (by decide) not_faults_noTrailer]
    simp

/-! ### HUFFDEC (R203) -/

theorem State.huffDecode_faults (t : CodeTable) : Exec.Faults (s.huffDecode t) ↔ s.huffUnwritten t := by
  cases ho : huffOk s.build with
  | false => simp [State.huffDecode_refused t ho, State.huffUnwritten, ho]
  | true =>
    by_cases hb : s.arg0.toNat + s.arg1.toNat ≤ s.bufLen.toNat
    · rw [State.huffDecode_eq t ho hb, Exec.faults_bind_left fun _ => Exec.not_faults_ok _,
        State.huffLoop_faults ho (State.span_bits hb) (fuel := 8 * s.arg1.toNat + 1) (out := []) (Nat.zero_le _)
          (by omega) (Nat.zero_le _)]
      simp only [State.needsBit, State.huffUnwritten, ho, hb, true_and, List.length_nil, Nat.sub_zero, Nat.add_zero,
        Nat.zero_add]
    · rw [State.huffDecode_outOfBounds t ho (Nat.not_le.1 hb)]
      exact iff_of_false (Exec.not_faults_raise _ _) fun ⟨_, hb', _⟩ => hb hb'

/-! ### DVBTEXT (R231, R232) -/

/-- A text in UCS-2 is one selector byte and its characters. -/
theorem Selects.length_ucs2 {b : Build} {span chars : List Byte} (h : Selects b span .ucs2 chars) :
    span.length = chars.length + 1 := by
  cases h
  rfl

/-- A text in the absent part 12 has no selector: R231's table has no selector of it. -/
theorem Selects.eq_of_p12 {b : Build} {span chars : List Byte} (h : Selects b span (.iso .p12) chars) :
    span = chars := by
  generalize henc : TextEnc.iso .p12 = enc at h
  cases h with
  | noSelector => rfl
  | short c rest p h1 hB h8 hp =>
    cases henc
    have : c.toNat + 4 = 12 := hp.symm
    omega
  | long n rest p hn h12 =>
    cases henc
    exact absurd rfl h12
  | ucs2 => cases henc

/-- The characters of a span fault where the loop over them does: the length is even for UCS-2, and no byte before the unwritten one lacks a table. -/
theorem State.decodeChars_faults {enc : TextEnc} {i e n : Nat} (hi : i ≤ e) (hb : e ≤ s.bufLen.toNat)
    (hroom : e - i ≤ 4096) :
    Exec.Faults (s.decodeChars enc i e n) ↔ ∃ cs, cs.length < e - i ∧ s.holds i cs ∧
      s.secBuf.get (i + cs.length) = none ∧ (enc = .ucs2 → (e - i) % 2 = 0) ∧
      (enc = .iso .p12 → ∀ c ∈ cs, c.toNat < 0xA0) := by
  cases enc with
  | iso p =>
    rw [State.decodeChars, State.decodeBytes_faults _ _ _ (by omega) (by simpa using hroom)]
    simp
  | ucs2 =>
    by_cases hodd : (e - i) % 2 = 1
    · simp [State.decodeChars, hodd]
    · have heven : (e - i) % 2 = 0 := by omega
      rw [State.decodeChars, if_neg hodd,
        State.decodeUnits_faults _ _ _ (by omega) (by rw [List.length_nil]; omega)]
      simp [heven, Nat.mul_div_cancel' (Nat.dvd_of_mod_eq_zero heven)]

section
variable (hlen : s.bufLen.toNat ≤ 4096) (hb : s.arg0.toNat + s.arg1.toNat ≤ s.bufLen.toNat) (h1 : 1 ≤ s.arg1.toNat)
include hlen hb h1

/-- After a selector that answers, an unwritten byte behind it is one behind a text of R231's table. -/
theorem State.textChars_faults : (∃ r, s.selector s.arg0.toNat s.arg1.toNat = .ok r ∧
      Exec.Faults (s.decodeChars r.1 r.2 (s.arg0.toNat + s.arg1.toNat) s.arg1.toNat)) ↔
    ∃ pre enc chars, Selects s.build pre enc chars ∧ s.holds s.arg0.toNat pre ∧ pre.length < s.arg1.toNat ∧
      s.secBuf.get (s.arg0.toNat + pre.length) = none ∧ (enc = .ucs2 → s.arg1.toNat % 2 = 1) ∧
      (enc = .iso .p12 → ∀ c ∈ chars, c.toNat < 0xA0) := by
  constructor
  · rintro ⟨⟨enc, i⟩, hsel, hf⟩
    obtain ⟨sel, hheld, hi, hle, hone, hselects⟩ := State.selector_selects h1 hb hsel
    dsimp only at hf hi hone hselects
    subst hi
    rw [State.decodeChars_faults (by omega) hb (by omega)] at hf
    obtain ⟨cs, hl, hcs, hnone, heven, htable⟩ := hf
    have hne : sel ++ cs ≠ [] := by
      intro hnil
      obtain ⟨rfl, rfl⟩ := List.append_eq_nil_iff.1 hnil
      obtain ⟨f, hfault⟩ := (State.selector_faults h1 hb).2 (.inl (by simpa using hnone))
      cases hfault.symm.trans hsel
    refine ⟨sel ++ cs, enc, cs, hselects cs hcs hne, (s.holds_append _ sel cs).2 ⟨hheld, hcs⟩, ?_, ?_, fun he => ?_,
      htable⟩
    · rw [List.length_append]
      omega
    · rw [List.length_append, ← Nat.add_assoc]
      exact hnone
    · have := heven he
      have := hone he
      omega
  · rintro ⟨pre, enc, chars, hs, hheld, hl, hnone, hodd, htable⟩
    obtain ⟨hsel, hchars, hle⟩ := State.selector_of hs hheld (by omega) (n := s.arg1.toNat) hl.le
    refine ⟨_, hsel, ?_⟩
    dsimp only
    refine (State.decodeChars_faults (by omega) hb (by omega)).2 ⟨chars, by omega, hchars, ?_, fun he => ?_, htable⟩
    · rwa [Nat.add_assoc, Nat.sub_add_cancel hle]
    · subst he
      have := hodd rfl
      have := hs.length_ucs2
      omega

end

/-- DVBTEXT faults at an unwritten byte of its selector or behind it, and nowhere else. -/
theorem State.textDecode_faults (hlen : s.bufLen.toNat ≤ 4096) : Exec.Faults s.textDecode ↔ s.textUnwritten := by
  by_cases hb : s.arg0.toNat + s.arg1.toNat ≤ s.bufLen.toNat
  · by_cases h0 : s.arg1.toNat = 0
    · rw [State.textDecode_empty (by omega) h0]
      simp [State.textUnwritten, h0]
    · have h1 : 1 ≤ s.arg1.toNat := Nat.pos_of_ne_zero h0
      have hchars : ∀ (x : Exec (List Half)) (enc : TextEnc),
          Exec.Faults (x >>= fun out => (.ok (textWrites out enc) : Exec Writes)) ↔ Exec.Faults x := fun _ _ =>
        Exec.faults_bind_left fun _ => Exec.not_faults_ok _
      rw [State.textDecode_eq hb h1, Exec.faults_bind]
      simp only [hchars]
      rw [State.textChars_faults hlen hb h1, State.selector_faults h1 hb, State.textUnwritten, or_assoc]
      simp only [hb, true_and, Nat.lt_iff_add_one_le.2 h1]
  · rw [State.textDecode_outOfBounds (Nat.not_le.1 hb)]
    simp [State.textUnwritten, hb]

end

/-! ### Every command -/

/-- A command faults where it reads an unwritten byte before any other cause ends it, and nowhere else. -/
theorem State.commandExec_faults {s : State} (hlen : s.bufLen.toNat ≤ 4096) (i : Instr) :
    Exec.Faults (s.commandExec i) ↔ s.readsUnwritten i := by
  cases i
  case nop | isClone => exact iff_of_false (Exec.not_faults_ok _) not_false
  case sliceAt | seekBit =>
    exact iff_of_false (Exec.not_faults_ite (Exec.not_faults_ok _) (Exec.not_faults_raise _ _)) not_false
  case byteAt | word16At | word32At => exact faults_answerOf.trans (State.memRead_faults _ _)
  case bitField w | peekBits w =>
    exact State.faults_checkWidth_bind.trans
      (and_congr_right' (and_congr_right' (faults_answerOf.trans (State.bits_faults _ _))))
  case readBits w =>
    exact State.faults_checkWidth_bind.trans (and_congr_right' (and_congr_right'
      ((Exec.faults_bind_left fun _ => Exec.not_faults_ok _).trans (State.bits_faults _ _))))
  case secHdr =>
    exact (Exec.faults_bind_left fun _ => Exec.not_faults_ite (Exec.not_faults_raise _ _) (Exec.not_faults_ok _)).trans
      State.readHdr_faults
  case hasCrc => exact (Exec.faults_bind_left fun _ => Exec.not_faults_ok _).trans State.readHdr_faults
  case calcCrc => exact (Exec.faults_bind_left fun _ => Exec.not_faults_ok _).trans (State.crc_faults _ _)
  case verifyCrc =>
    rw [commandExec_verifyCrc, State.checkTrailer_faults (by decide) fun _ => Exec.not_faults_ok _]
    refine or_congr_right ?_
    constructor
    · rintro ⟨b0, b1, b2, hh, hc, h4, hl, hf⟩
      exact ⟨b0, b1, b2, hh, hc, h4, (State.compareTrailer_faults h4 hl).1 hf⟩
    · rintro ⟨b0, b1, b2, hh, hc, h4, hu⟩
      have hl : sectionLength s.build b0 b1 b2 ≤ s.bufLen.toNat := by
        have := hu.1
        omega
      exact ⟨b0, b1, b2, hh, hc, h4, hl, (State.compareTrailer_faults h4 hl).2 hu⟩
  case secCrc =>
    rw [commandExec_secCrc, State.checkTrailer_faults (by decide) not_faults_noTrailer]
    simp only [State.answerCrc_faults]
    rfl
  case setCrc => exact (Exec.faults_bind_left fun _ => Exec.not_faults_ok _).trans State.trailerOffset_faults
  case huffDecC5 | huffDecC7 => exact State.huffDecode_faults _
  case dvbText => exact State.textDecode_faults hlen

/-! ### The refusals -/

/-- The refusals of R303's table, command by command. -/
theorem mem_commandRefusals {b : Build} {i : Instr} {r : Refusal} (h : r ∈ commandRefusals b i) :
    (i ∈ [.huffDecC5, .huffDecC7] ∧ r = .huffCodeIllFormed ∧ huffOk b = false) ∨
      (i = .dvbText ∧ r = .isoTableAbsent .p12 ∧ b.dvbDefault = .p12) := by
  cases i
  case huffDecC5 | huffDecC7 =>
    simp only [commandRefusals, List.mem_ite_nil_left, List.mem_singleton, Bool.not_eq_true] at h
    exact .inl ⟨by simp, h.2, h.1⟩
  case dvbText =>
    simp only [commandRefusals, List.mem_ite_nil_right, List.mem_singleton] at h
    exact .inr ⟨rfl, h.2, h.1⟩
  all_goals exact absurd h List.not_mem_nil

/-- The characters of a span are refused where the loop meets a byte 0xA0..0xFF of part 12 before an unwritten one. -/
theorem State.decodeChars_refused {s : State} {enc : TextEnc} {i e n : Nat} {r : Refusal} (hi : i ≤ e)
    (hb : e ≤ s.bufLen.toNat) (hroom : e - i ≤ 4096) :
    s.decodeChars enc i e n = .error (.refusal r) ↔ enc = .iso .p12 ∧ r = .isoTableAbsent .p12 ∧
      ∃ cs c, (cs ++ [c]).length ≤ e - i ∧ s.holds i (cs ++ [c]) ∧ 0xA0 ≤ c.toNat := by
  cases enc with
  | iso p =>
    rw [State.decodeChars, State.decodeBytes_refused _ _ _ (by omega) (by simpa using hroom), TextEnc.iso.injEq]
  | ucs2 =>
    refine iff_of_false (fun h => ?_) nofun
    rw [State.decodeChars] at h
    split at h
    · cases h
    · exact List.not_mem_nil (State.decodeUnits_stops (codes := [.outOverflow]) (refusals := []) (by simp) _ _ _
        (by omega) _ h)

/-- DVBTEXT is refused at a byte 0xA0..0xFF of a text in part 12, after written bytes only (R46, log entry 13). -/
theorem State.textDecode_refused {s : State} {r : Refusal} (hlen : s.bufLen.toNat ≤ 4096) :
    s.textDecode = .error (.refusal r) ↔ r = .isoTableAbsent .p12 ∧ s.textWithoutTable := by
  by_cases hb : s.arg0.toNat + s.arg1.toNat ≤ s.bufLen.toNat
  · constructor
    · intro h
      have h1 : 1 ≤ s.arg1.toNat := by
        by_contra hlt
        cases (State.textDecode_empty (by omega) (by omega)).symm.trans h
      rw [State.textDecode_eq hb h1, Exec.bind_eq_error] at h
      obtain hsel | ⟨⟨enc, i⟩, hsel, h⟩ := h
      · exact absurd (State.selector_stops (codes := [.unsupportedCharset, .textTruncated]) (refusals := []) (by simp)
          (by simp) h1 hb _ hsel) List.not_mem_nil
      · obtain hchars | ⟨out, -, hok⟩ := Exec.bind_eq_error.1 h
        · obtain ⟨sel, hheld, hi, hle, -, hselects⟩ := State.selector_selects h1 hb hsel
          dsimp only at hi hchars hselects
          subst hi
          obtain ⟨rfl, rfl, cs, c, hl, hcs, hc⟩ := (State.decodeChars_refused (by omega) hb (by omega)).1 hchars
          have hs := hselects _ hcs (by simp)
          obtain rfl : sel = [] := List.append_left_eq_self.1 hs.eq_of_p12
          exact ⟨rfl, hb, cs, c, hs, hcs, hl.trans (by simp), hc⟩
        · cases hok
    · rintro ⟨rfl, -, pre, c, hs, hh, hl, hc⟩
      obtain ⟨hsel, -, -⟩ := State.selector_of hs hh (by omega) hl
      have h1 : 1 ≤ s.arg1.toNat := hs.length_pos.trans hl
      rw [State.textDecode_eq hb h1, hsel, Exec.ok_bind, Nat.sub_self, Nat.add_zero,
        (State.decodeChars_refused (by omega) hb (by omega)).2 ⟨rfl, rfl, pre, c, by omega, hh, hc⟩]
      rfl
  · rw [State.textDecode_outOfBounds (Nat.not_le.1 hb)]
    exact iff_of_false nofun fun ⟨_, hb', _⟩ => hb hb'

/-! ### The obligation -/

/-- Settles O50: the faults are those of the reads, command by command, and the refusals those of `huffOk` and of part 12. -/
theorem commandStopsExactly : Obligations.CommandStopsExactly := by
  have refusals : ∀ (i : Instr) (s : State) (r : Refusal), exec i s = .refused r →
      (i ∈ [.huffDecC5, .huffDecC7] ∧ r = .huffCodeIllFormed ∧ huffOk s.build = false) ∨
        (i = .dvbText ∧ r = .isoTableAbsent .p12 ∧ s.build.dvbDefault = .p12) :=
    fun i s r h => mem_commandRefusals (s.commandExec_stops i _ (exec_eq_refused.1 h))
  refine ⟨fun i s f h => s.commandExec_stops i _ (exec_eq_fault.1 h), refusals, fun i s hlen => ?_,
    fun i s r hlen => ⟨fun h => ?_, ?_⟩⟩
  · exact (exists_congr fun f => exec_eq_fault).trans (State.commandExec_faults hlen i)
  · refine (refusals i s r h).imp id ?_
    rintro ⟨rfl, rfl, -⟩
    exact ⟨rfl, (State.textDecode_refused hlen).1 (exec_eq_refused.1 h)⟩
  · rintro (⟨hi, rfl, ho⟩ | ⟨rfl, hr⟩)
    · obtain ⟨t, rfl⟩ : ∃ t, i = huffDec t := by
        simp only [List.mem_cons, List.not_mem_nil, or_false] at hi
        rcases hi with rfl | rfl
        · exact ⟨.c5, rfl⟩
        · exact ⟨.c7, rfl⟩
      exact exec_eq_refused.2 ((commandExec_huffDec s t).trans (State.huffDecode_refused t ho))
    · exact exec_eq_refused.2 ((State.textDecode_refused hlen).2 hr)

end Sys2Proof.Machine
end
